-- ==== Sys2Proof/Word.lean ====
section
/-! DEFINITION. The two words of the Lux protocol core: the byte of every stream and buffer, and the
32-bit word of every register (spec/00_scope.md R9: all quantities are unsigned). -/

namespace Sys2Proof

/-- A byte: 8 bits, value 0 to 255 (R9). -/
abbrev Byte := BitVec 8

/-- A 32-bit register or accumulator (R27, R34, R36, R37, R41). -/
abbrev Word := BitVec 32

/-- A bus offset: the application bus has a 12-bit byte address (R62). -/
abbrev Addr := BitVec 12

end Sys2Proof
end

