-- ==== Sys2Proof/Config.lean ====
section
/-! DEFINITION. What an implementation fixes: the fixed parameters of R7, the open parameters of R8,
and the free values (constants with no body) that stand for what the spec leaves unspecified. -/

namespace Sys2Proof

/-- The address filter of a node (R41, R85): 18 plain 32-bit registers, 72 bytes in all. -/
structure Filter where
  /-- `MCAST_ADDR`, offset 0x440. -/
  mcastAddr : Word
  /-- `MCAST_MASK`, offset 0x444. -/
  mcastMask : Word
  /-- `UNICAST[0..15]`, offsets 0x448 to 0x484. -/
  unicast : Vector Word 16
deriving DecidableEq, Repr

/-- The open parameter `DEST_BYTE_ORDER` (R8, R53). -/
inductive ByteOrder where
  | little
  | big
deriving DecidableEq, Repr

/-- The open parameter `CNT_OVERFLOW` (R8, R38). -/
inductive CntOverflow where
  | saturate
  | wrap
deriving DecidableEq, Repr

/-- The open parameter `MATCH_FN` (R8, R150): the default predicate, or any other total function of the
same type, held as the number of an uninterpreted function. -/
inductive MatchFn where
  | standard
  | other (k : Nat)
deriving DecidableEq, Repr

/-- The open parameters of R8, fixed for one machine. They stand in `State` as plain data that no step
changes, so a statement about every state is a statement about every choice (assumption 6). -/
structure Params where
  /-- `MATCH_FN`. -/
  matchFn : MatchFn
  /-- `DEST_BYTE_ORDER`. -/
  destByteOrder : ByteOrder
  /-- `CNT_OVERFLOW`. -/
  cntOverflow : CntOverflow
  /-- `RXQ_DEPTH`: `none` is unbounded. -/
  rxqDepth : Option Nat
deriving DecidableEq, Repr

namespace Config

/-- The defaults of R8, which the spec's test vectors use. -/
def defaultParams : Params :=
  { matchFn := .standard, destByteOrder := .little, cntOverflow := .saturate, rxqDepth := none }

/-- `DEST_LEN` (R7). -/
abbrev destLen : Nat := 4
/-- `HDR_LEN` (R7): destination, command, index. -/
abbrev hdrLen : Nat := 6
/-- `CRC_LEN` (R7). -/
abbrev crcLen : Nat := 4
/-- `PACKET_MAX` (R7, R76). -/
abbrev packetMax : Nat := 1024
/-- `MAX_PAYLOAD` (R7, R76). -/
abbrev maxPayload : Nat := 1014
/-- `PKT_BUF_CAP` (R7, R29). -/
abbrev pktBufCap : Nat := 1020
/-- `MIN_BODY` (R7, R153). -/
abbrev minBody : Nat := 6
/-- `COBS_MAX_RUN` (R7). -/
abbrev cobsMaxRun : Nat := 254
/-- `CRC_RESIDUE` (R7, R125). -/
abbrev crcResidue : Word := 0x2144DF1C#32
/-- `CRC_POLY_REFLECTED` (R7, R120; assumption 16). -/
abbrev crcPoly : Word := 0xEDB88320#32
/-- `CRC_INIT_VALUE` (R7, R121; assumption 16). -/
abbrev crcInitValue : Word := 0xFFFFFFFF#32
/-- `CRC_XOROUT` (R7, R123; assumption 16). -/
abbrev crcXorOut : Word := 0xFFFFFFFF#32
/-- `HOST_ADDR` (R7): the destination of every response. -/
abbrev hostAddr : Word := 0#32

/-! ### Free values

R46, R271 and U7 leave the first of these unspecified after reset and ask for `any value`, never 0. Their
first argument is the number of resets so far (`State.epoch`), so that two resets need not leave the same
values (assumptions 3 and 4). The last ones are functions of their operands. -/

/-- Free: `DEST` after reset (R27). -/
opaque resetDest (epoch : Nat) : Word
/-- Free: `MCAST_ADDR` after reset (R42). -/
opaque resetMcastAddr (epoch : Nat) : Word
/-- Free: `MCAST_MASK` after reset (R42). -/
opaque resetMcastMask (epoch : Nat) : Word
/-- Free: `UNICAST[i]` after reset (R42). -/
opaque resetUnicast (epoch i : Nat) : Word
/-- Free: `tx_crc` after reset (R36). -/
opaque resetTxCrc (epoch : Nat) : Word
/-- Free: `crc_lat` after reset (R36). -/
opaque resetCrcLat (epoch : Nat) : Word
/-- Free: `dest_buf[i]` after reset (R34). -/
opaque resetDestBuf (epoch i : Nat) : Byte
/-- Free: `enc_blk[i]` after reset (R36). -/
opaque resetEncBlk (epoch i : Nat) : Byte
/-- Free: what `pkt[a]` holds while nothing has written it since reset (R29). -/
opaque unwrittenByte (epoch a : Nat) : Byte
/-- Free: the `k`-th address-match predicate other than the default one (R8, R150, U11). -/
opaque otherMatch (k : Nat) (f : Filter) (d : Word) : Bool
/-- Free: the remaining-block counter, 0 to 254, that `DEC_BYTE` answers on operands outside R105's
(assumption 13). -/
opaque decRemOutside (rem : Byte) (pz : Bool) (b : Byte) : Fin 255
/-- Free: the pending-zero flag that `DEC_BYTE` answers there. -/
opaque decPzOutside (rem : Byte) (pz : Bool) (b : Byte) : Bool
/-- Free: the zero or one data bytes that `DEC_BYTE` answers there. -/
opaque decDataOutside (rem : Byte) (pz : Bool) (b : Byte) : Option Byte

end Config

end Sys2Proof
end

