-- ==== Sys2Proof/Machine/Operands.lean ====
section
/-! DEFINITION. Operand forms: the byte-order helpers of R10, the destination's byte order (R53), and
the application bus's address map (R58, R59, R62, R83 to R85). -/

namespace Sys2Proof.Machine

/-! ### Byte order -/

/-- `LE32(v)` of R10: least significant byte first. -/
def le32 (v : Word) : List Byte :=
  [v.extractLsb' 0 8, v.extractLsb' 8 8, v.extractLsb' 16 8, v.extractLsb' 24 8]

/-- `UNLE32` of R10, of the four bytes in sequence order. -/
def unle32 (b0 b1 b2 b3 : Byte) : Word :=
  BitVec.ofNat 32 (b0.toNat + 256 * b1.toNat + 65536 * b2.toNat + 16777216 * b3.toNat)

/-- The four wire bytes of a destination, under `DEST_BYTE_ORDER` (R10, R53). -/
def destBytes (o : ByteOrder) (d : Word) : List Byte :=
  match o with
  | .little => le32 d
  | .big => (le32 d).reverse

/-- The destination that four wire bytes stand for, under `DEST_BYTE_ORDER` (R10, R53). -/
def destOfBytes (o : ByteOrder) (b0 b1 b2 b3 : Byte) : Word :=
  match o with
  | .little => unle32 b0 b1 b2 b3
  | .big => unle32 b3 b2 b1 b0

/-! ### The application bus -/

/-- The 32-bit registers of `REG` (R83 to R85). -/
inductive BusReg where
  | dest
  | pktLen
  | status
  | cmd
  | good
  | malformed
  | overrun
  | badCrc
  | rxInterrupted
  /-- 0x424 to 0x43C: the hole inside `REG`. -/
  | nothing
  | mcastAddr
  | mcastMask
  | unicast (i : Fin 16)
deriving DecidableEq, Repr

/-- What a bus access reaches (R62, R221, R222). -/
inductive BusTarget where
  /-- Byte `i` of the packet buffer, by an access of width 1. -/
  | buf (i : Nat)
  /-- A register, by an aligned access of width 4. -/
  | reg (r : BusReg)
  /-- 0x3FC to 0x3FF and 0x488 up: nothing, by any width. -/
  | hole
  /-- A width the space does not have, or a misaligned `REG` access (R58, R59). -/
  | bad
deriving DecidableEq, Repr

/-- The register at an aligned offset from 0x400 to 0x484 (R83, R84, R85). -/
def busReg (a : Nat) : BusReg :=
  if a = 0x400 then .dest
  else if a = 0x404 then .pktLen
  else if a = 0x408 then .status
  else if a = 0x40C then .cmd
  else if a = 0x410 then .good
  else if a = 0x414 then .malformed
  else if a = 0x418 then .overrun
  else if a = 0x41C then .badCrc
  else if a = 0x420 then .rxInterrupted
  else if a < 0x440 then .nothing
  else if a = 0x440 then .mcastAddr
  else if a = 0x444 then .mcastMask
  else .unicast (Fin.ofNat 16 ((a - 0x448) / 4))

/-- What an access of `n` bytes at `addr` reaches: the case analysis of R221 and R222. -/
def busTarget (addr : Addr) (n : Nat) : BusTarget :=
  let a := addr.toNat
  if a ≤ 0x3FB then
    if n = 1 then .buf a else .bad
  else if a ≤ 0x3FF ∨ 0x488 ≤ a then .hole
  else if n = 4 ∧ a % 4 = 0 then .reg (busReg a)
  else .bad

end Sys2Proof.Machine
end

