-- ==== Sys2Proof/Syntax.lean ====
section
/-! DEFINITION. The operations of the core: one constructor per row of spec/opcode_table.json (R81),
with the operands R81 gives it. -/

namespace Sys2Proof

/-- The 22 operations of R81, in the table's order. -/
inductive Instr where
  /-- 0x01, R141. -/
  | pump
  /-- 0x02, R160. -/
  | stopRx
  /-- 0x03, R161. -/
  | startRx
  /-- 0x04, R170. -/
  | startTx
  /-- 0x05, R226. -/
  | release
  /-- 0x06, R227. -/
  | resetPktcnt
  /-- 0x10, R221: bus offset and width in bytes. -/
  | busRd (addr : Addr) (n : Nat)
  /-- 0x11, R222: bus offset, width in bytes, value. -/
  | busWr (addr : Addr) (n : Nat) (v : Word)
  /-- 0x18, R140. -/
  | step
  /-- 0x20, R100: the data bytes. -/
  | cobsEncode (x : List Byte)
  /-- 0x21, R104: the stuffed bytes of one frame. -/
  | cobsDecode (w : List Byte)
  /-- 0x22, R105: the session and a stuffed byte, which R105 takes to be non-zero. -/
  | decByte (rem : Byte) (pz : Bool) (b : Byte)
  /-- 0x23, R106: the remaining-block counter of the session. -/
  | decEnd (rem : Byte)
  /-- 0x24, R108: a data byte. -/
  | encFeed (b : Byte)
  /-- 0x25, R109: the code byte. -/
  | encClose (code : Byte)
  /-- 0x28, R121. -/
  | crcInit
  /-- 0x29, R122: accumulator and data byte. -/
  | crcUpdate (c : Word) (b : Byte)
  /-- 0x2A, R123: accumulator. -/
  | crcFinal (c : Word)
  /-- 0x2B, R124: the bytes. -/
  | crc32 (x : List Byte)
  /-- 0x2C, R125: accumulator. -/
  | crcVerify (c : Word)
  /-- 0x30, R200. -/
  | serialize (dest : Word) (cmd idx : Byte) (payload : List Byte)
  /-- 0x31, R204: the stuffed bytes of one frame. -/
  | deserialize (w : List Byte)
deriving DecidableEq, Repr

end Sys2Proof
end

