-- ==== Sys2Proof/WellFormed.lean ====
section
/-! DEFINITION. When an operation can be issued as bytes: its operands fit their operand block
(assumption 2). Operands that fit and that a rule gives no result for still run (assumption 13). -/

namespace Sys2Proof

/-- A bus access names a width of 1 to 256 bytes, which one operand byte holds (assumption 14). -/
def Instr.wellFormed : Instr → Bool
  | .busRd _ n => decide (1 ≤ n ∧ n ≤ 256)
  | .busWr _ n _ => decide (1 ≤ n ∧ n ≤ 256)
  | .pump | .stopRx | .startRx | .startTx | .release | .resetPktcnt | .step => true
  | .cobsEncode _ | .cobsDecode _ | .decByte _ _ _ | .decEnd _ | .encFeed _ | .encClose _ => true
  | .crcInit | .crcUpdate _ _ | .crcFinal _ | .crc32 _ | .crcVerify _ => true
  | .serialize _ _ _ _ | .deserialize _ => true

end Sys2Proof
end

