-- ==== Sys2Proof/Decode.lean ====
section
/-! DEFINITION. The decoder and the encoder. An operation is issued as its 8-bit code (R80, R81) with
its operands beside the code. R80 gives the operands no bit-level encoding; the block of operand bytes
that follows the code here is the model's own (assumption 2): a 32-bit operand is four bytes, least
significant first; a bus offset two bytes, least significant first; a width, the stuffed byte of
`DEC_BYTE` and a code byte are stored less one; a byte sequence is the rest of the block. -/

namespace Sys2Proof

/-- Why a sequence of bytes is no operation. -/
inductive DecodeError where
  /-- There is no byte at all. -/
  | noCode
  /-- The code is none of R81's. -/
  | unknownCode (code : Byte)
  /-- The operand block of a known code has the wrong length or holds a value no operand has. -/
  | badOperands (code : Byte)
deriving DecidableEq, Repr

/-! ### Operand blocks, one function per operand form -/

/-- No operands. -/
def parseNone (i : Instr) : List Byte → Option Instr
  | [] => some i
  | _ => none

/-- One byte. -/
def parseByte (f : Byte → Instr) : List Byte → Option Instr
  | [b] => some (f b)
  | _ => none

/-- One 32-bit word. -/
def parseWord (f : Word → Instr) : List Byte → Option Instr
  | [c0, c1, c2, c3] => some (f (Machine.unle32 c0 c1 c2 c3))
  | _ => none

/-- A bus offset: two bytes, of which the upper four bits are 0. -/
def parseAddr (lo hi : Byte) : Option Addr :=
  if hi.toNat < 16 then some (BitVec.ofNat 12 (lo.toNat + 256 * hi.toNat)) else none

/-- `BUS_RD`: offset, width less one. -/
def parseBusRd : List Byte → Option Instr
  | [a0, a1, n] => (parseAddr a0 a1).map fun a => .busRd a (n.toNat + 1)
  | _ => none

/-- `BUS_WR`: offset, width less one, value. -/
def parseBusWr : List Byte → Option Instr
  | [a0, a1, n, v0, v1, v2, v3] =>
    (parseAddr a0 a1).map fun a => .busWr a (n.toNat + 1) (Machine.unle32 v0 v1 v2 v3)
  | _ => none

/-- `DEC_BYTE`: `rem`, `pz` as 0 or 1, the stuffed byte less one. -/
def parseDecByte : List Byte → Option Instr
  | [rem, pz, b] => if pz.toNat < 2 then some (.decByte rem (pz == 1#8) (b + 1#8)) else none
  | _ => none

/-- `CRC_UPDATE`: accumulator, data byte. -/
def parseCrcUpdate : List Byte → Option Instr
  | [c0, c1, c2, c3, b] => some (.crcUpdate (Machine.unle32 c0 c1 c2 c3) b)
  | _ => none

/-- `SERIALIZE`: destination, command, index, then the payload. -/
def parseSerialize : List Byte → Option Instr
  | d0 :: d1 :: d2 :: d3 :: cmd :: idx :: payload =>
    some (.serialize (Machine.unle32 d0 d1 d2 d3) cmd idx payload)
  | _ => none

/-! ### The decoder -/

/-- The operations of R81 by code: `none` where the code is none of them, otherwise what its operand
block stands for. -/
def parse (code : Byte) (ops : List Byte) : Option (Option Instr) :=
  match code.toNat with
  | 0x01 => some (parseNone .pump ops)
  | 0x02 => some (parseNone .stopRx ops)
  | 0x03 => some (parseNone .startRx ops)
  | 0x04 => some (parseNone .startTx ops)
  | 0x05 => some (parseNone .release ops)
  | 0x06 => some (parseNone .resetPktcnt ops)
  | 0x10 => some (parseBusRd ops)
  | 0x11 => some (parseBusWr ops)
  | 0x18 => some (parseNone .step ops)
  | 0x20 => some (some (.cobsEncode ops))
  | 0x21 => some (some (.cobsDecode ops))
  | 0x22 => some (parseDecByte ops)
  | 0x23 => some (parseByte .decEnd ops)
  | 0x24 => some (parseByte .encFeed ops)
  | 0x25 => some (parseByte (fun b => .encClose (b + 1#8)) ops)
  | 0x28 => some (parseNone .crcInit ops)
  | 0x29 => some (parseCrcUpdate ops)
  | 0x2A => some (parseWord .crcFinal ops)
  | 0x2B => some (some (.crc32 ops))
  | 0x2C => some (parseWord .crcVerify ops)
  | 0x30 => some (parseSerialize ops)
  | 0x31 => some (some (.deserialize ops))
  | _ => none

/-- The operation a code and its operand block stand for: total on any bytes, rejecting by name. -/
def decode : List Byte → Except DecodeError Instr
  | [] => .error .noCode
  | code :: ops =>
    match parse code ops with
    | none => .error (.unknownCode code)
    | some none => .error (.badOperands code)
    | some (some i) => .ok i

/-! ### The encoder -/

/-- The operation code of R81. -/
def opcode : Instr → Byte
  | .pump => 0x01#8
  | .stopRx => 0x02#8
  | .startRx => 0x03#8
  | .startTx => 0x04#8
  | .release => 0x05#8
  | .resetPktcnt => 0x06#8
  | .busRd _ _ => 0x10#8
  | .busWr _ _ _ => 0x11#8
  | .step => 0x18#8
  | .cobsEncode _ => 0x20#8
  | .cobsDecode _ => 0x21#8
  | .decByte _ _ _ => 0x22#8
  | .decEnd _ => 0x23#8
  | .encFeed _ => 0x24#8
  | .encClose _ => 0x25#8
  | .crcInit => 0x28#8
  | .crcUpdate _ _ => 0x29#8
  | .crcFinal _ => 0x2A#8
  | .crc32 _ => 0x2B#8
  | .crcVerify _ => 0x2C#8
  | .serialize _ _ _ _ => 0x30#8
  | .deserialize _ => 0x31#8

/-- The two operand bytes of a bus offset. -/
def addrBytes (a : Addr) : List Byte :=
  [a.extractLsb' 0 8, BitVec.ofNat 8 (a.toNat / 256)]

/-- The operand block of an operation (assumption 2). -/
def operandBlock : Instr → List Byte
  | .pump | .stopRx | .startRx | .startTx | .release | .resetPktcnt | .step | .crcInit => []
  | .busRd a n => addrBytes a ++ [BitVec.ofNat 8 (n - 1)]
  | .busWr a n v => addrBytes a ++ [BitVec.ofNat 8 (n - 1)] ++ Machine.le32 v
  | .cobsEncode x => x
  | .cobsDecode w => w
  | .decByte rem pz b => [rem, if pz then 1#8 else 0#8, b - 1#8]
  | .decEnd rem => [rem]
  | .encFeed b => [b]
  | .encClose code => [code - 1#8]
  | .crcUpdate c b => Machine.le32 c ++ [b]
  | .crcFinal c => Machine.le32 c
  | .crc32 x => x
  | .crcVerify c => Machine.le32 c
  | .serialize dest cmd idx payload => Machine.le32 dest ++ [cmd, idx] ++ payload
  | .deserialize w => w

/-- The bytes an operation is issued as: its code, then its operand block. -/
def encode (i : Instr) : List Byte :=
  opcode i :: operandBlock i

/-! ### The opcode table's words -/

/-- The least number of operand bytes of a code: its fixed operands, and no byte of a sequence. -/
def operandCount (code : Byte) : Nat :=
  match code.toNat with
  | 0x10 => 3
  | 0x11 => 7
  | 0x22 => 3
  | 0x23 | 0x24 | 0x25 => 1
  | 0x29 => 5
  | 0x2A | 0x2C => 4
  | 0x30 => 6
  | _ => 0

/-- The bytes of the table word `w` of `nbits` bits, first byte lowest, followed by operand bytes of
zero up to the code's operand count. -/
def tableBytes (nbits w : Nat) : List Byte :=
  match (List.range ((nbits + 7) / 8)).map fun k => BitVec.ofNat 8 (w / 2 ^ (8 * k)) with
  | [] => []
  | code :: ops => code :: ops ++ List.replicate (operandCount code - ops.length) 0#8

/-- The instruction the decoder reads from a table word: `none` where it refuses. -/
def decodeTableWord (nbits w : Nat) : Option Instr :=
  match decode (tableBytes nbits w) with
  | .ok i => some i
  | .error _ => none

end Sys2Proof
end

