-- ==== Sys2Proof/Machine/State.lean ====
section
/-! DEFINITION. The state of the core, of the line it hangs on and of the application that drives it,
as plain data (spec/10_state.md, spec/20_memory.md); the refusals; the state after reset (R46). -/

namespace Sys2Proof.Machine

/-! ### Names -/

/-- The main state register (R22). -/
inductive EngineState where
  | start
  | readDestination
  | readPayload
  | skipCurrentPacket
  | stopped
  | encode
deriving DecidableEq, Repr

/-- The encoder's sub-stage (R23). -/
inductive EncStage where
  | encoderStart
  | writeDestination
  | writePayload
  | writeCrc
  | flush
deriving DecidableEq, Repr

/-- The result of a micro-step (R12). -/
inductive StepResult where
  | progress
  | blocked
deriving DecidableEq, Repr

/-- The events of the core (R246): there is one. -/
inductive Event where
  | evRx
deriving DecidableEq, Repr

/-- The counted errors (R241). -/
inductive CoreError where
  | malformed
  | overrun
  | badChecksum
  | rxInterrupted
deriving DecidableEq, Repr

/-! ### Operation results -/

/-- A decoded packet (R74, R75). -/
structure Packet where
  dest : Word
  cmd : Byte
  idx : Byte
  payload : List Byte
  crc : Word
deriving DecidableEq, Repr

/-- The result column of R81: what an operation returns. -/
inductive Value where
  /-- The operation returns nothing. -/
  | none
  /-- `STEP`. -/
  | stepped (r : StepResult)
  /-- `BUS_RD`: `n` bytes, as a number. -/
  | busData (n : Nat) (v : Word)
  /-- `COBS_ENCODE`, `COBS_DECODE`. -/
  | bytes (x : List Byte)
  /-- `COBS_DECODE`, `DEC_END`, `DESERIALIZE`: the error returned. -/
  | error (e : CoreError)
  /-- `DEC_BYTE`: the new session and zero or one data bytes. -/
  | session (rem : Byte) (pz : Bool) (o : Option Byte)
  /-- `DEC_END`: ok. -/
  | ok
  /-- `CRC_INIT`, `CRC_UPDATE`, `CRC_FINAL`, `CRC32`. -/
  | word (c : Word)
  /-- `CRC_VERIFY`. -/
  | bool (b : Bool)
  /-- `SERIALIZE`: the wire bytes and the checksum. -/
  | frame (w : List Byte) (crc : Word)
  /-- `DESERIALIZE`. -/
  | packet (p : Packet)
deriving DecidableEq, Repr

/-- The outputs of the last operation: its result and the events it emitted, in order (R141, R246). The
model's own field, since a step of the model returns only a state (assumption 11). -/
structure Output where
  value : Value
  events : List Event
deriving DecidableEq, Repr

/-! ### The parts of the state -/

/-- The decode session (R32 to R34). -/
structure RxSession where
  /-- `rx_rem`, 8 bits: literals of the current block still to come. -/
  rem : Byte
  /-- `rx_pz`: an implied zero is owed. -/
  pz : Bool
  /-- `rx_crc`: the raw accumulator. -/
  crc : Word
  /-- `dest_buf[0..3]`. -/
  destBuf : Vector Byte 4
  /-- `dest_cnt`, 3 bits. -/
  destCnt : BitVec 3
  /-- `body_cnt`, 11 bits. -/
  bodyCnt : BitVec 11
deriving DecidableEq, Repr

/-- The encode session (R36). -/
structure EncSession where
  /-- `tx_crc`: the raw accumulator. -/
  txCrc : Word
  /-- `crc_lat`: the finalized checksum. -/
  crcLat : Word
  /-- `enc_blk[0..254]`: the open block, its code byte's place first. -/
  blk : Vector Byte 255
  /-- `enc_fill`, 8 bits: literals in the open block. -/
  fill : Byte
  /-- `enc_dlen`, 8 bits: bytes of the closed block being pushed, 0 when none is. -/
  dlen : Byte
  /-- `enc_out`, 8 bits: next byte of the closed block to push. -/
  out : Byte
deriving DecidableEq, Repr

/-- The five packet counters (R37). -/
structure Counters where
  good : Word
  malformed : Word
  overrun : Word
  badCrc : Word
  rxInterrupted : Word
deriving DecidableEq, Repr

/-- The line side: the environment's queues and inputs (R56, R57, R45; assumption 7). -/
structure Line where
  /-- `RXQ`, oldest byte first. -/
  rxq : List Byte
  /-- The bytes pushed that are still in the sink or the line driver, oldest first. -/
  sink : List Byte
  /-- The bytes that have left on the line, oldest first: `TXS` is `sent ++ sink`. -/
  sent : List Byte
  /-- `tx_room`. -/
  room : Nat
  /-- `tx_idle`. -/
  idle : Bool
deriving DecidableEq, Repr

/-- The bytes of the packet buffer that have been written, by rising address. An address that is not
listed holds no written byte (assumption 4). -/
abbrev Memory := List Host.Cell

/-- What the line does between two operations (R6, R56, R57, R88). -/
inductive LineAction where
  /-- Bytes arrive from the line: `LINE` of R88. -/
  | receive (x : List Byte)
  /-- The oldest `k` bytes of the sink leave on the line (R57). -/
  | drain (k : Nat)
  /-- `tx_room` grows to `k`, or stays where it is no less already (R57): `ROOM` of R88. -/
  | room (k : Nat)
  /-- `tx_idle` is now `t`: `IDLE` of R88. -/
  | idle (t : Bool)
deriving DecidableEq, Repr

/-- One thing that happens next (assumption 1). -/
inductive Entry where
  /-- The application issues the operation these bytes stand for. -/
  | issue (bytes : List Byte)
  /-- The line acts. -/
  | line (a : LineAction)
  /-- The reset input is asserted (R270). -/
  | reset
deriving DecidableEq, Repr

/-! ### The state -/

/-- The state of the machine: the core (R20), the line, the application's agenda. -/
structure State where
  /-- `state` (R22). -/
  state : EngineState
  /-- `enc_stage` (R23). -/
  encStage : EncStage
  /-- `enc_stalled` (R24). -/
  encStalled : Bool
  /-- `enc_src`, 11 bits (R25). -/
  encSrc : BitVec 11
  /-- `DEST` (R27). -/
  dest : Word
  /-- `PKT_LEN`, 11 bits (R28). -/
  pktLen : BitVec 11
  /-- `pkt[0..1019]`, the packet buffer (R29). -/
  mem : Memory
  /-- `pkt_valid` (R31). -/
  pktValid : Bool
  /-- The decode session (R32 to R35). -/
  rx : RxSession
  /-- The encode session (R36). -/
  enc : EncSession
  /-- The packet counters (R37). -/
  cnt : Counters
  /-- The address filter (R41). -/
  filter : Filter
  /-- `rx_en` (R44). -/
  rxEn : Bool
  /-- `tx_en` (R44). -/
  txEn : Bool
  /-- The line side (R56, R57). -/
  line : Line
  /-- The outputs of the last operation. -/
  out : Output
  /-- What happens next, in order: the operations the application issues, what the line does between
  them, resets. -/
  agenda : List Entry
  /-- The open parameters of R8, which no step changes. -/
  params : Params
  /-- The number of resets so far: the counter the free values of `Config` are drawn with. -/
  epoch : Nat
deriving DecidableEq, Repr

/-! ### How a step can stop -/

/-- Faults: none. "Nothing in the core is `fault`: no situation stops the engine or transfers control"
(spec/93_implementation_defined.md; R240). -/
inductive Fault where
deriving DecidableEq, Repr

/-- Refusals: the situations to which the spec gives no behaviour (`refuse`, R11; assumption 22). Each is safe: the
model stops where the spec says nothing. -/
inductive Refusal where
  /-- Raised by an arm of `exec` whose instruction has no meaning yet. Safe. -/
  | notModelled (mnemonic : String)
  /-- Raised by `STOP_RX` while `state = Encode` (R160, U4). Safe. -/
  | stopRxInEncode
  /-- Raised by `START_TX` while `state` is not `Stopped` (R170, U1). Safe. -/
  | startTxNotStopped
  /-- Raised by `START_TX` with `PKT_LEN` below 2 or above 1016 (R170, U2). Safe. -/
  | startTxBadLength
  /-- Raised by `BUS_WR` to `pkt[]`, `DEST` or `PKT_LEN` while `state` is not `Stopped` (R223, U3). Safe. -/
  | busWriteNotOwned
  /-- Raised by `BUS_RD` and `BUS_WR`: a width the space does not have, or a misaligned `REG` access
  (R58, R59, U5). Safe. -/
  | busBadAccess
  /-- Raised by `SERIALIZE` with a payload longer than 1014 bytes (R201, U6). Safe. -/
  | payloadTooLong
  /-- Raised by `ENC_FEED` while a closed block is draining: its precondition `enc_dlen = 0` does not
  hold (R108; assumption 12). Safe. -/
  | encFeedWhileDraining
deriving DecidableEq, Repr

/-! ### Reset -/

/-- The state right after the reset numbered `epoch` (R46, R271): the core's fields at the values of
R46, the unspecified ones at free values, and the line, the agenda and the parameters as given. -/
def State.afterReset (epoch : Nat) (line : Line) (agenda : List Entry) (params : Params) : State :=
  { state := .start
    encStage := .encoderStart
    encStalled := false
    encSrc := 0#11
    dest := Config.resetDest epoch
    pktLen := 0#11
    mem := []
    pktValid := false
    rx :=
      { rem := 0#8
        pz := false
        crc := Config.crcInitValue
        destBuf := Vector.ofFn fun i => Config.resetDestBuf epoch i
        destCnt := 0#3
        bodyCnt := 0#11 }
    enc :=
      { txCrc := Config.resetTxCrc epoch
        crcLat := Config.resetCrcLat epoch
        blk := Vector.ofFn fun i => Config.resetEncBlk epoch i
        fill := 0#8
        dlen := 0#8
        out := 0#8 }
    cnt := { good := 0#32, malformed := 0#32, overrun := 0#32, badCrc := 0#32, rxInterrupted := 0#32 }
    filter :=
      { mcastAddr := Config.resetMcastAddr epoch
        mcastMask := Config.resetMcastMask epoch
        unicast := Vector.ofFn fun i => Config.resetUnicast epoch i }
    rxEn := false
    txEn := false
    line := line
    out := { value := .none, events := [] }
    agenda := agenda
    params := params
    epoch := epoch }

/-- The line at power-on: nothing received, nothing pushed, no room yet, not idle (assumption 8). -/
def Line.initial : Line :=
  { rxq := [], sink := [], sent := [], room := 0, idle := false }

/-- The machine right after reset (R46, R271), with an empty agenda and the parameters' defaults. -/
def State.reset : State :=
  State.afterReset 0 Line.initial [] Config.defaultParams

end Sys2Proof.Machine
end

