-- ==== Sys2Proof/Machine/Codec.lean ====
section
/-! DEFINITION. The pure function units: the COBS codec (spec/40_cobs.md), the CRC-32 engine
(spec/41_crc32.md), the one-pass serializer and deserializer (spec/44_serializer.md) and the
address-match predicate (R150). None of them holds state. -/

namespace Sys2Proof.Machine

/-! ### COBS -/

/-- The rest of the encoding once the literals `blk` of the open block are collected (R100). -/
def cobsEncodeFrom (blk : List Byte) : List Byte → List Byte
  | [] => BitVec.ofNat 8 (blk.length + 1) :: blk
  | b :: x =>
    if b = 0#8 then BitVec.ofNat 8 (blk.length + 1) :: blk ++ cobsEncodeFrom [] x
    else if (blk ++ [b]).length = Config.cobsMaxRun then 255#8 :: (blk ++ [b]) ++ cobsEncodeFrom [] x
    else cobsEncodeFrom (blk ++ [b]) x

/-- `COBS_ENCODE` (R100): the stuffed bytes, without the delimiter. -/
def cobsEncode (x : List Byte) : List Byte :=
  cobsEncodeFrom [] x

/-- What one step of the streaming decoder gives: the new session and zero or one data bytes. -/
structure DecOut where
  rem : Byte
  pz : Bool
  out : Option Byte
deriving DecidableEq, Repr

/-- `DEC_BYTE` (R105), on a stuffed byte that is not 0. -/
def decByte (rem : Byte) (pz : Bool) (s : Byte) : DecOut :=
  if rem = 0#8 then
    { rem := s - 1#8
      pz := decide (s.toNat < 255)
      out := if pz then some 0#8 else none }
  else
    { rem := rem - 1#8
      pz := pz
      out := some s }

/-- `DEC_BYTE` on any operands: on those R105 gives it, its result; on a zero byte, or a session outside
R32's range, for which R105 states no result, a free session and free data (assumption 13). -/
def decByteAny (rem : Byte) (pz : Bool) (s : Byte) : DecOut :=
  if s = 0#8 ∨ rem = 255#8 then
    { rem := BitVec.ofNat 8 (Config.decRemOutside rem pz s).val
      pz := Config.decPzOutside rem pz s
      out := Config.decDataOutside rem pz s }
  else decByte rem pz s

/-- `DEC_END` (R106): whether the frame may end here. -/
def decEnd (rem : Byte) : Bool :=
  rem == 0#8

/-- The decoding of stuffed bytes from a session (R104): `none` is `Malformed`. -/
def cobsDecodeFrom (rem : Byte) (pz : Bool) : List Byte → Option (List Byte)
  | [] => if decEnd rem then some [] else none
  | s :: w =>
    if s = 0#8 then none
    else
      (cobsDecodeFrom (decByte rem pz s).rem (decByte rem pz s).pz w).map
        ((decByte rem pz s).out.toList ++ ·)

/-- `COBS_DECODE` (R104): `none` is `Malformed`. -/
def cobsDecode (w : List Byte) : Option (List Byte) :=
  cobsDecodeFrom 0#8 false w

/-! ### CRC-32 -/

/-- One of the eight shifts of R122. -/
def crcShift (c : Word) : Word :=
  if c.getLsbD 0 then (c >>> 1) ^^^ Config.crcPoly else c >>> 1

/-- `k` shifts. -/
def crcShifts : Nat → Word → Word
  | 0, c => c
  | k + 1, c => crcShifts k (crcShift c)

/-- `CRC_UPDATE` (R122). -/
def crcUpdate (c : Word) (b : Byte) : Word :=
  crcShifts 8 (c ^^^ b.zeroExtend 32)

/-- `CRC_FINAL` (R123). -/
def crcFinal (c : Word) : Word :=
  c ^^^ Config.crcXorOut

/-- The accumulator after every byte of a sequence, in order. -/
def crcAccumulate (c : Word) (x : List Byte) : Word :=
  x.foldl crcUpdate c

/-- `CRC32` of a byte sequence (R124). -/
def crcOf (x : List Byte) : Word :=
  crcFinal (crcAccumulate Config.crcInitValue x)

/-- `CRC_VERIFY` (R125). -/
def crcVerify (c : Word) : Bool :=
  crcFinal c == Config.crcResidue

/-! ### Serializer and deserializer -/

/-- The decoded frame before its trailer: destination, command, index, payload (R74, R126). -/
def frameHead (o : ByteOrder) (dest : Word) (cmd idx : Byte) (payload : List Byte) : List Byte :=
  destBytes o dest ++ [cmd, idx] ++ payload

/-- A decoded frame: its head, then the checksum, least significant byte first (R74, R127). -/
def frameRaw (head : List Byte) : List Byte :=
  head ++ le32 (crcOf head)

/-- `SERIALIZE` (R200) for a legal payload: the wire bytes and the checksum. -/
def serialize (o : ByteOrder) (dest : Word) (cmd idx : Byte) (payload : List Byte) : List Byte × Word :=
  (cobsEncode (frameRaw (frameHead o dest cmd idx payload)) ++ [0#8],
    crcOf (frameHead o dest cmd idx payload))

/-- The fields of a decoded frame of at least 10 bytes (R75). -/
def fieldsOf (o : ByteOrder) (raw : List Byte) : Packet :=
  let at' := fun i => raw.getD i 0#8
  let n := raw.length
  { dest := destOfBytes o (at' 0) (at' 1) (at' 2) (at' 3)
    cmd := at' 4
    idx := at' 5
    payload := (raw.drop Config.hdrLen).take (n - Config.hdrLen - Config.crcLen)
    crc := unle32 (at' (n - 4)) (at' (n - 3)) (at' (n - 2)) (at' (n - 1)) }

/-- `DESERIALIZE` (R204, R205): COBS, then length, then checksum. -/
def deserialize (o : ByteOrder) (w : List Byte) : Except CoreError Packet :=
  match cobsDecode w with
  | none => .error .malformed
  | some raw =>
    if raw.length < Config.hdrLen + Config.crcLen ∨ Config.packetMax < raw.length then .error .malformed
    else if crcVerify (crcAccumulate Config.crcInitValue raw) then .ok (fieldsOf o raw)
    else .error .badChecksum

/-! ### Address match -/

/-- The default `MATCH_FN` (R150). -/
def matchStandard (f : Filter) (d : Word) : Bool :=
  ((d &&& f.mcastMask) == (f.mcastAddr &&& f.mcastMask)) || f.unicast.toList.any fun u => u == d

/-- `MATCH_FN` as the parameters choose it (R8, R147). -/
def matchDest (p : Params) (f : Filter) (d : Word) : Bool :=
  match p.matchFn with
  | .standard => matchStandard f d
  | .other k => Config.otherMatch k f d

end Sys2Proof.Machine
end

