-- ==== Sys2Proof/Machine/Flags.lean ====
section
/-! DEFINITION. The status bits and the counters: `STATUS` (R43, R86), the counter increment (R38) and
which counter an error increments (R241). The core has no arithmetic condition codes (R30). -/

namespace Sys2Proof.Machine

/-- The code of the main state register in `STATUS` (R22). -/
def stateCode : EngineState → BitVec 3
  | .start => 0#3
  | .readDestination => 1#3
  | .readPayload => 2#3
  | .skipCurrentPacket => 3#3
  | .stopped => 4#3
  | .encode => 5#3

/-- The code of the encoder stage in `STATUS` (R23). -/
def stageCode : EncStage → BitVec 3
  | .encoderStart => 0#3
  | .writeDestination => 1#3
  | .writePayload => 2#3
  | .writeCrc => 3#3
  | .flush => 4#3

/-- A flag as one bit. -/
def bit (b : Bool) : BitVec 1 :=
  BitVec.ofBool b

/-- `STATUS` (R43, R86), most significant field first. -/
def statusWord (s : State) : Word :=
  0#22 ++ bit s.txEn ++ bit s.rxEn ++ bit s.pktValid ++ bit s.encStalled ++ stageCode s.encStage ++ stateCode s.state

/-- `inc(C)` (R38). -/
def inc (o : CntOverflow) (c : Word) : Word :=
  match o with
  | .saturate => if c.toNat < 0xFFFFFFFF then c + 1#32 else c
  | .wrap => c + 1#32

/-- `inc(good)` (R155). -/
def Counters.incGood (o : CntOverflow) (c : Counters) : Counters :=
  { c with good := inc o c.good }

/-- The increment of an error's counter (R241, R242). -/
def Counters.incError (o : CntOverflow) (e : CoreError) (c : Counters) : Counters :=
  match e with
  | .malformed => { c with malformed := inc o c.malformed }
  | .overrun => { c with overrun := inc o c.overrun }
  | .badChecksum => { c with badCrc := inc o c.badCrc }
  | .rxInterrupted => { c with rxInterrupted := inc o c.rxInterrupted }

/-- All five counters at 0 (R40). -/
def Counters.zero : Counters :=
  { good := 0#32, malformed := 0#32, overrun := 0#32, badCrc := 0#32, rxInterrupted := 0#32 }

/-- The numeric code of an error: the index of its counter (R241). Nothing observable depends on it. -/
def errorCode : CoreError → Nat
  | .malformed => 1
  | .overrun => 2
  | .badChecksum => 3
  | .rxInterrupted => 4

end Sys2Proof.Machine
end

