-- ==== Sys2Proof/Machine/Ops.lean ====
section
/-! DEFINITION. The named operations over the packet buffer, the sessions, the line and the outputs,
among them `raise`, the one error action of the core (R243; R249: "trap entry" is this and nothing
more, and there is no return). -/

namespace Sys2Proof.Machine

/-! ### The packet buffer as a memory -/

/-- The byte written at address `a`, if one has been. -/
def Memory.read : Memory → Nat → Option Byte
  | [], _ => none
  | (k, b) :: m, a => if a = k then some b else Memory.read m a

/-- The memory with `b` written at address `a`. -/
def Memory.write : Memory → Nat → Byte → Memory
  | [], a, b => [(a, b)]
  | (k, c) :: m, a, b =>
    if a < k then (a, b) :: (k, c) :: m
    else if a = k then (a, b) :: m
    else (k, c) :: Memory.write m a b

/-- The canonical form: addresses strictly rising, all inside the buffer. -/
abbrev Memory.wf (m : Memory) : Prop :=
  m.Pairwise (fun x y => x.1 < y.1) ∧ ∀ x ∈ m, x.1 < Config.pktBufCap

/-- `pkt[a]` (R11, R29): the byte written there, or the free value of a byte nothing has written. -/
def pktRead (s : State) (a : Nat) : Byte :=
  (Memory.read s.mem a).getD (Config.unwrittenByte s.epoch a)

/-- `pkt[a] <- b` (R11). -/
def pktWrite (a : Nat) (b : Byte) (s : State) : State :=
  { s with mem := Memory.write s.mem a b }

/-! ### Outputs -/

/-- The operation returns `v` and has emitted `evs`. -/
def answer (v : Value) (evs : List Event) (s : State) : State :=
  { s with out := { value := v, events := evs } }

/-! ### The decode session -/

/-- The fresh decode session; `dest_buf` keeps its bytes (R34, R35). -/
def RxSession.fresh (r : RxSession) : RxSession :=
  { r with rem := 0#8, pz := false, crc := Config.crcInitValue, destCnt := 0#3, bodyCnt := 0#11 }

/-- `RxSessionReset()` (R35). -/
def rxSessionReset (s : State) : State :=
  { s with rx := s.rx.fresh }

/-- The entry to `ReadDestination`, which always resets the session (R35). -/
def toReadDestination (s : State) : State :=
  { rxSessionReset s with state := .readDestination }

/-- The session after `DEC_BYTE` on `b`, its data byte not yet used (R145, R151). -/
def RxSession.decode (r : RxSession) (b : Byte) : RxSession :=
  { r with rem := (decByte r.rem r.pz b).rem, pz := (decByte r.rem r.pz b).pz }

/-- The data byte `DEC_BYTE` delivers on `b`, if any (R145, R151). -/
def RxSession.delivered (r : RxSession) (b : Byte) : Option Byte :=
  (decByte r.rem r.pz b).out

/-! ### Errors -/

/-- `raise e` (R243): the error's counter is incremented and the state moves to `next`, with a session
reset when that is `ReadDestination`. Nothing else happens: no trap, no abort. -/
def raise (e : CoreError) (next : EngineState) (s : State) : State :=
  let t := { s with cnt := s.cnt.incError s.params.cntOverflow e }
  match next with
  | .readDestination => toReadDestination t
  | _ => { t with state := next }

/-! ### The byte sink -/

/-- `TxRoom()` (R11, R57). -/
def txRoom (s : State) : Nat :=
  s.line.room

/-- `TxIdle()` (R11, R57). -/
def txIdle (s : State) : Bool :=
  s.line.idle

/-- A byte enters the sink and lowers the room by 1. On a line that is idle whenever it is sampled the
byte has left at once (R57, R63; assumption 7). -/
def Line.push (b : Byte) (l : Line) : Line :=
  if l.idle then { l with sent := l.sent ++ l.sink ++ [b], sink := [], room := l.room - 1 }
  else { l with sink := l.sink ++ [b], room := l.room - 1 }

/-- `TxPush(b)` (R11, R57). -/
def txPush (b : Byte) (s : State) : State :=
  { s with line := s.line.push b }

/-- `TXS`: every byte pushed so far, in push order (R50, R57). -/
def Line.txs (l : Line) : List Byte :=
  l.sent ++ l.sink

/-! ### The encode session -/

/-- `ENC_CLOSE(code)` (R109). -/
def EncSession.close (code : Byte) (e : EncSession) : EncSession :=
  { e with
    blk := e.blk.setIfInBounds 0 code
    dlen := e.fill + 1#8
    out := 0#8 }

/-- A literal joins the open block (R108). -/
def EncSession.literal (b : Byte) (e : EncSession) : EncSession :=
  { e with
    fill := e.fill + 1#8
    blk := e.blk.setIfInBounds (e.fill + 1#8).toNat b }

/-- `ENC_FEED(b)` (R108). -/
def EncSession.feed (b : Byte) (e : EncSession) : EncSession :=
  if b ≠ 0#8 then
    if (e.literal b).fill = 254#8 then (e.literal b).close 255#8 else e.literal b
  else e.close (e.fill + 1#8)

/-- The byte of the closed block that is pushed next (R172). -/
def EncSession.next (e : EncSession) : Byte :=
  e.blk[e.out.toNat]?.getD 0#8

/-- The session after that byte has been pushed; the last one ends the drain (R172). -/
def EncSession.advance (e : EncSession) : EncSession :=
  if e.out + 1#8 = e.dlen then { e with dlen := 0#8, out := 0#8, fill := 0#8 }
  else { e with out := e.out + 1#8 }

end Sys2Proof.Machine
end

