-- ==== Sys2Proof/Machine/Engine.lean ====
section
/-! DEFINITION. The node packet engine: the micro-step `STEP` in every state (spec/42_node_rx.md,
spec/43_node_tx.md), the loop of `PUMP`, and the commands the application issues. -/

namespace Sys2Proof.Machine

/-- What a micro-step gives (R12, R140): its result, zero or one event, the state after it. -/
structure StepOut where
  res : StepResult
  event : Option Event
  after : State
deriving DecidableEq, Repr

/-- A micro-step that moved and emitted nothing. -/
def progress (s : State) : StepOut :=
  { res := .progress, event := none, after := s }

/-- A micro-step that could not move. -/
def blocked (s : State) : StepOut :=
  { res := .blocked, event := none, after := s }

/-! ### Receiving -/

/-- `STEP` in `Start` (R142). -/
def stepStart (s : State) : State :=
  toReadDestination { s with txEn := false, rxEn := true }

/-- The destination the four bytes of `dest_buf` stand for (R147). -/
def bufferedDest (s : State) : Word :=
  destOfBytes s.params.destByteOrder s.rx.destBuf[0] s.rx.destBuf[1] s.rx.destBuf[2] s.rx.destBuf[3]

/-- `DestinationComplete()` (R147 to R149). -/
def destinationComplete (s : State) : State :=
  if !matchDest s.params s.filter (bufferedDest s) then { s with state := .skipCurrentPacket }
  else if s.pktValid then raise .overrun .skipCurrentPacket s
  else { s with dest := bufferedDest s, rx := { s.rx with bodyCnt := 0#11 }, state := .readPayload }

/-- A decoded byte joins the destination and the checksum (R145). -/
def RxSession.storeDest (d : Byte) (r : RxSession) : RxSession :=
  { r with
    destBuf := r.destBuf.setIfInBounds r.destCnt.toNat d
    destCnt := r.destCnt + 1#3
    crc := crcUpdate r.crc d }

/-- `STEP` in `ReadDestination` on the byte `b`, already taken from `RXQ` (R145, R146). -/
def readDestinationByte (b : Byte) (s : State) : StepOut :=
  if b = 0#8 then
    if decEnd s.rx.rem then progress (toReadDestination s)
    else progress (raise .malformed .readDestination s)
  else
    match s.rx.delivered b with
    | none => progress { s with rx := s.rx.decode b }
    | some d =>
      let t := { s with rx := (s.rx.decode b).storeDest d }
      if t.rx.destCnt = 4#3 then progress (destinationComplete t) else progress t

/-- A frame that passed every check (R155, R156). -/
def acceptFrame (s : State) : State :=
  toReadDestination
    { s with
      cnt := s.cnt.incGood s.params.cntOverflow
      pktLen := s.rx.bodyCnt - 4#11
      pktValid := true }

/-- The delimiter in `ReadPayload`: the checks of R152 to R155 in that order, then R156. -/
def frameEnd (s : State) : StepOut :=
  if !decEnd s.rx.rem then progress (raise .malformed .readDestination s)
  else if s.rx.bodyCnt.toNat < Config.minBody then progress (raise .malformed .readDestination s)
  else if !crcVerify s.rx.crc then progress (raise .badChecksum .readDestination s)
  else { res := .progress, event := some .evRx, after := acceptFrame s }

/-- A decoded byte is counted and joins the checksum (R151). -/
def RxSession.countBody (d : Byte) (r : RxSession) : RxSession :=
  { r with bodyCnt := r.bodyCnt + 1#11, crc := crcUpdate r.crc d }

/-- `STEP` in `ReadPayload` on the byte `b`, already taken from `RXQ` (R151 to R157). -/
def readPayloadByte (b : Byte) (s : State) : StepOut :=
  if b = 0#8 then frameEnd s
  else
    let t := { s with rx := s.rx.decode b }
    match s.rx.delivered b with
    | none => progress t
    | some d =>
      if t.rx.bodyCnt.toNat = Config.pktBufCap then progress (raise .malformed .skipCurrentPacket t)
      else progress (pktWrite t.rx.bodyCnt.toNat d { t with rx := t.rx.countBody d })

/-- `STEP` in `SkipCurrentPacket` on the byte `b`, already taken from `RXQ` (R158). -/
def skipByte (b : Byte) (s : State) : StepOut :=
  if b = 0#8 then progress (toReadDestination s) else progress s

/-- The byte fetch common to the three receive states (R144), then `f` on the byte. -/
def withRxByte (f : Byte → State → StepOut) (s : State) : StepOut :=
  match s.line.rxq with
  | [] => blocked s
  | b :: q => f b { s with line := { s.line with rxq := q } }

/-! ### Transmitting -/

/-- A push of `b` if the sink has room (`f` is what else the push does); otherwise the encoder stalls
(R172, R178). -/
def pushOrStall (b : Byte) (f : State → State) (s : State) : StepOut :=
  if txRoom s = 0 then blocked { s with encStalled := true }
  else progress (f { txPush b s with encStalled := false })

/-- The drain step (R172). -/
def stepDrain (s : State) : StepOut :=
  pushOrStall s.enc.next (fun t => { t with enc := t.enc.advance }) s

/-- The next source byte, under cursor `enc_src` (R174, R176). -/
def sourceByte (s : State) (x : List Byte) : Byte :=
  x.getD s.encSrc.toNat 0#8

/-- The cursor moves on; past the fourth byte the stage ends (R174, R176). -/
def nextOfFour (stage : EncStage) (s : State) : State :=
  if s.encSrc + 1#11 = 4#11 then { s with encSrc := 0#11, encStage := stage }
  else { s with encSrc := s.encSrc + 1#11 }

/-- Stage `EncoderStart` (R173). -/
def stepEncoderStart (s : State) : State :=
  { s with
    txEn := true
    enc := { s.enc with txCrc := Config.crcInitValue, fill := 0#8 }
    encSrc := 0#11
    encStage := .writeDestination }

/-- A byte joins the transmit checksum and is fed to the stuffer (R174, R175). -/
def feedChecked (b : Byte) (s : State) : State :=
  { s with enc := { s.enc with txCrc := crcUpdate s.enc.txCrc b }.feed b }

/-- Stage `WriteDestination` (R174). -/
def stepWriteDestination (s : State) : State :=
  nextOfFour .writePayload
    (feedChecked (sourceByte s (destBytes s.params.destByteOrder s.dest)) s)

/-- Stage `WritePayload` (R175). -/
def stepWritePayload (s : State) : State :=
  if s.encSrc = s.pktLen then
    { s with
      enc := { s.enc with crcLat := crcFinal s.enc.txCrc }
      encSrc := 0#11
      encStage := .writeCrc }
  else
    let t := feedChecked (pktRead s s.encSrc.toNat) s
    { t with encSrc := s.encSrc + 1#11 }

/-- Stage `WriteCrc` (R176). -/
def stepWriteCrc (s : State) : State :=
  nextOfFour .flush
    { s with enc := s.enc.feed (sourceByte s (le32 s.enc.crcLat)) }

/-- Flush completion (R179). -/
def flushDone (s : State) : State :=
  toReadDestination
    { s with txEn := false, rxEn := true, encStage := .encoderStart, encSrc := 0#11 }

/-- Stage `Flush` (R177 to R179); phases beyond 2 do not occur (assumption 17). -/
def stepFlush (s : State) : StepOut :=
  match s.encSrc.toNat with
  | 0 => progress { s with enc := s.enc.close (s.enc.fill + 1#8), encSrc := 1#11 }
  | 1 => pushOrStall 0#8 (fun t => { t with encSrc := 2#11 }) s
  | _ => if txIdle s then progress (flushDone s) else blocked s

/-- `STEP` in `Encode` (R171): a closed block drains first, otherwise the stage moves. -/
def stepEncode (s : State) : StepOut :=
  if s.enc.dlen ≠ 0#8 then stepDrain s
  else
    match s.encStage with
    | .encoderStart => progress (stepEncoderStart s)
    | .writeDestination => progress (stepWriteDestination s)
    | .writePayload => progress (stepWritePayload s)
    | .writeCrc => progress (stepWriteCrc s)
    | .flush => stepFlush s

/-! ### STEP and PUMP -/

/-- `STEP` (R140). -/
def microStep (s : State) : StepOut :=
  match s.state with
  | .start => progress (stepStart s)
  | .stopped => blocked s
  | .readDestination => withRxByte readDestinationByte s
  | .readPayload => withRxByte readPayloadByte s
  | .skipCurrentPacket => withRxByte skipByte s
  | .encode => stepEncode s

/-- The loop of `PUMP` (R141), at most `fuel` micro-steps: the last state and the events in order. -/
def pumpLoop : Nat → State → List Event → State × List Event
  | 0, s, evs => (s, evs)
  | fuel + 1, s, evs =>
    let r := microStep s
    match r.res with
    | .blocked => (r.after, evs ++ r.event.toList)
    | .progress => pumpLoop fuel r.after (evs ++ r.event.toList)

/-- Micro-steps until `enc_src` reaches 4. -/
def stepsToFour (s : State) : Nat :=
  (3#11 - s.encSrc).toNat + 1

/-- Three times the bytes still to be fed in an encode pass, plus its remaining stage changes. -/
def feedWork (s : State) : Nat :=
  match s.encStage with
  | .encoderStart => 3 * (s.pktLen.toNat + 8) + 6
  | .writeDestination => 3 * (stepsToFour s + s.pktLen.toNat + 4) + 5
  | .writePayload => 3 * ((s.pktLen - s.encSrc).toNat + 4) + 5
  | .writeCrc => 3 * stepsToFour s + 4
  | .flush =>
    match s.encSrc.toNat with
    | 0 => 4
    | 1 => 2
    | _ => 1

/-- The bytes of the closed block still to be pushed, or the literals of the open one. -/
def blockWork (e : EncSession) : Nat :=
  if e.dlen = 0#8 then e.fill.toNat else (e.dlen - e.out - 1#8).toNat + 1

/-- A bound on the micro-steps the engine can make before it must block (R162): every `PROGRESS`
micro-step lowers it. -/
def pumpWork (s : State) : Nat :=
  s.line.rxq.length +
    match s.state with
    | .start => 1
    | .encode => blockWork s.enc + feedWork s
    | _ => 0

/-- `PUMP` (R141): `STEP` until it is blocked; the fuel always suffices (assumption 21). -/
def pump (s : State) : State × List Event :=
  pumpLoop (pumpWork s + 1) s []

/-! ### Commands

What each node-engine command does, whether it is issued as an operation of its own or through the
`CMD` register (R220). -/

/-- The outcome type of every operation. -/
abbrev Result := Host.Outcome State Fault Refusal

/-- `PUMP` (R141). -/
def cmdPump (s : State) : Result :=
  .next (answer .none (pump s).2 (pump s).1)

/-- `STOP_RX` in a receive state (R160): unread bytes are counted once and discarded. -/
def stopReceiving (s : State) : State :=
  let t := if s.line.rxq.isEmpty then { s with state := .stopped } else raise .rxInterrupted .stopped s
  { t with line := { t.line with rxq := [] }, rxEn := false }

/-- `STOP_RX` (R160). -/
def cmdStopRx (s : State) : Result :=
  match s.state with
  | .encode => .refused .stopRxInEncode
  | .stopped => .next (answer .none [] s)
  | .start | .readDestination | .readPayload | .skipCurrentPacket =>
    .next (answer .none [] (stopReceiving s))

/-- `START_RX` (R161). -/
def cmdStartRx (s : State) : Result :=
  match s.state with
  | .stopped => .next (answer .none [] { s with state := .start })
  | .start | .readDestination | .readPayload | .skipCurrentPacket | .encode => .next (answer .none [] s)

/-- The start of an encode pass (R170). -/
def beginEncode (s : State) : State :=
  { s with
    state := .encode
    encStage := .encoderStart
    encStalled := false
    enc := { s.enc with dlen := 0#8, out := 0#8, fill := 0#8 }
    encSrc := 0#11 }

/-- `START_TX` (R170). -/
def cmdStartTx (s : State) : Result :=
  if s.state ≠ .stopped then .refused .startTxNotStopped
  else if s.pktLen.toNat < 2 ∨ Config.pktBufCap - 4 < s.pktLen.toNat then .refused .startTxBadLength
  else .next (answer .none [] (beginEncode s))

/-- `RELEASE` (R226). -/
def cmdRelease (s : State) : Result :=
  .next (answer .none [] { s with pktValid := false })

/-- `RESET_PKTCNT` (R227). -/
def cmdResetPktcnt (s : State) : Result :=
  .next (answer .none [] { s with cnt := Counters.zero })

/-- The command written to `CMD` (R82, R220): its low byte, ignored when it is no command code
(assumption 15). -/
def issueCommand (v : Word) (s : State) : Result :=
  match (v.extractLsb' 0 8).toNat with
  | 0x01 => cmdPump s
  | 0x02 => cmdStopRx s
  | 0x03 => cmdStartRx s
  | 0x04 => cmdStartTx s
  | 0x05 => cmdRelease s
  | 0x06 => cmdResetPktcnt s
  | _ => .next (answer .none [] s)

end Sys2Proof.Machine
end

