-- ==== Sys2Proof/Machine/Bus.lean ====
section
/-! DEFINITION. The meanings of the bus operations `BUS_RD` and `BUS_WR` (spec/45_app_interface.md). -/

namespace Sys2Proof.Machine

/-- The value a register reads as (R83 to R86, R221). -/
def readReg (r : BusReg) (s : State) : Word :=
  match r with
  | .dest => s.dest
  | .pktLen => s.pktLen.zeroExtend 32
  | .status => statusWord s
  | .cmd => 0#32
  | .good => s.cnt.good
  | .malformed => s.cnt.malformed
  | .overrun => s.cnt.overrun
  | .badCrc => s.cnt.badCrc
  | .rxInterrupted => s.cnt.rxInterrupted
  | .nothing => 0#32
  | .mcastAddr => s.filter.mcastAddr
  | .mcastMask => s.filter.mcastMask
  | .unicast i => s.filter.unicast[i]

/-- `BUS_RD` (R221). -/
def execBusRd (addr : Addr) (n : Nat) (s : State) : Result :=
  match busTarget addr n with
  | .buf i => .next (answer (.busData n ((pktRead s i).zeroExtend 32)) [] s)
  | .reg r => .next (answer (.busData n (readReg r s)) [] s)
  | .hole => .next (answer (.busData n 0#32) [] s)
  | .bad => .refused .busBadAccess

/-- A write that only the owner of the buffer may make: in `Stopped` (R61, R222, R223). -/
def ownedWrite (f : State → State) (s : State) : Result :=
  if s.state ≠ .stopped then .refused .busWriteNotOwned
  else .next (answer .none [] (f s))

/-- A register written over the bus (R222). Read-only registers and the hole ignore the write. -/
def writeReg (r : BusReg) (v : Word) (s : State) : Result :=
  match r with
  | .dest => ownedWrite (fun t => { t with dest := v }) s
  | .pktLen => ownedWrite (fun t => { t with pktLen := v.extractLsb' 0 11 }) s
  | .cmd => issueCommand v s
  | .mcastAddr => .next (answer .none [] { s with filter := { s.filter with mcastAddr := v } })
  | .mcastMask => .next (answer .none [] { s with filter := { s.filter with mcastMask := v } })
  | .unicast i =>
    .next (answer .none [] { s with filter := { s.filter with unicast := s.filter.unicast.set i v } })
  | .status | .good | .malformed | .overrun | .badCrc | .rxInterrupted | .nothing =>
    .next (answer .none [] s)

/-- `BUS_WR` (R222). -/
def execBusWr (addr : Addr) (n : Nat) (v : Word) (s : State) : Result :=
  match busTarget addr n with
  | .buf i => ownedWrite (pktWrite i (v.extractLsb' 0 8)) s
  | .reg r => writeReg r v s
  | .hole => .next (answer .none [] s)
  | .bad => .refused .busBadAccess

end Sys2Proof.Machine
end

