-- ==== Sys2Proof/Machine/Cobs.lean ====
section
/-! DEFINITION. The meanings of the COBS operations (spec/40_cobs.md). The one-pass functions and the
streaming decoder work on their operands; the streaming encoder works on the encode session of the
state (R108; assumption 20). -/

namespace Sys2Proof.Machine

/-- `COBS_ENCODE` (R100). -/
def execCobsEncode (x : List Byte) (s : State) : Result :=
  .next (answer (.bytes (cobsEncode x)) [] s)

/-- `COBS_DECODE` (R104). -/
def execCobsDecode (w : List Byte) (s : State) : Result :=
  match cobsDecode w with
  | some x => .next (answer (.bytes x) [] s)
  | none => .next (answer (.error .malformed) [] s)

/-- `DEC_BYTE` (R105; assumption 13). -/
def execDecByte (rem : Byte) (pz : Bool) (b : Byte) (s : State) : Result :=
  let d := decByteAny rem pz b
  .next (answer (.session d.rem d.pz d.out) [] s)

/-- `DEC_END` (R106). -/
def execDecEnd (rem : Byte) (s : State) : Result :=
  .next (answer (if decEnd rem then .ok else .error .malformed) [] s)

/-- `ENC_FEED` (R108); its precondition is that no block is draining (assumption 12). -/
def execEncFeed (b : Byte) (s : State) : Result :=
  if s.enc.dlen ≠ 0#8 then .refused .encFeedWhileDraining
  else .next (answer .none [] { s with enc := s.enc.feed b })

/-- `ENC_CLOSE` (R109). -/
def execEncClose (code : Byte) (s : State) : Result :=
  .next (answer .none [] { s with enc := s.enc.close code })

end Sys2Proof.Machine
end

