-- ==== Sys2Proof/Machine/Crc.lean ====
section
/-! DEFINITION. The meanings of the CRC operations (spec/41_crc32.md): pure functions of their
operands. -/

namespace Sys2Proof.Machine

/-- `CRC_INIT` (R121). -/
def execCrcInit (s : State) : Result :=
  .next (answer (.word Config.crcInitValue) [] s)

/-- `CRC_UPDATE` (R122). -/
def execCrcUpdate (c : Word) (b : Byte) (s : State) : Result :=
  .next (answer (.word (crcUpdate c b)) [] s)

/-- `CRC_FINAL` (R123). -/
def execCrcFinal (c : Word) (s : State) : Result :=
  .next (answer (.word (crcFinal c)) [] s)

/-- `CRC32` (R124). -/
def execCrc32 (x : List Byte) (s : State) : Result :=
  .next (answer (.word (crcOf x)) [] s)

/-- `CRC_VERIFY` (R125). -/
def execCrcVerify (c : Word) (s : State) : Result :=
  .next (answer (.bool (crcVerify c)) [] s)

end Sys2Proof.Machine
end

