-- ==== Sys2Proof/Machine/Node.lean ====
section
/-! DEFINITION. The meanings of the node-engine operations: `PUMP`, `STOP_RX`, `START_RX`, `START_TX`,
`RELEASE`, `RESET_PKTCNT`, `STEP`. -/

namespace Sys2Proof.Machine

/-- `PUMP` (R141). -/
def execPump (s : State) : Result := cmdPump s

/-- `STOP_RX` (R160). -/
def execStopRx (s : State) : Result := cmdStopRx s

/-- `START_RX` (R161). -/
def execStartRx (s : State) : Result := cmdStartRx s

/-- `START_TX` (R170). -/
def execStartTx (s : State) : Result := cmdStartTx s

/-- `RELEASE` (R226). -/
def execRelease (s : State) : Result := cmdRelease s

/-- `RESET_PKTCNT` (R227). -/
def execResetPktcnt (s : State) : Result := cmdResetPktcnt s

/-- `STEP` (R140): one micro-step, its result and its event (assumption 19). -/
def execStep (s : State) : Result :=
  let r := microStep s
  .next (answer (.stepped r.res) r.event.toList r.after)

end Sys2Proof.Machine
end

