-- ==== Sys2Proof/Machine/Serializer.lean ====
section
/-! DEFINITION. The meanings of `SERIALIZE` and `DESERIALIZE` (spec/44_serializer.md). -/

namespace Sys2Proof.Machine

/-- `SERIALIZE` (R200, R201). -/
def execSerialize (dest : Word) (cmd idx : Byte) (payload : List Byte) (s : State) : Result :=
  if Config.maxPayload < payload.length then .refused .payloadTooLong
  else
    let r := serialize s.params.destByteOrder dest cmd idx payload
    .next (answer (.frame r.1 r.2) [] s)

/-- `DESERIALIZE` (R204, R205). -/
def execDeserialize (w : List Byte) (s : State) : Result :=
  match deserialize s.params.destByteOrder w with
  | .ok p => .next (answer (.packet p) [] s)
  | .error e => .next (answer (.error e) [] s)

end Sys2Proof.Machine
end

