-- ==== Sys2Proof/Machine/Dispatch.lean ====
section
/-! DEFINITION. One arm per operation: the meaning it calls. -/

namespace Sys2Proof.Machine

def exec (i : Instr) (s : State) : Host.Outcome State Fault Refusal :=
  match i with
  -- the node engine
  | .pump => Sys2Proof.Machine.execPump s
  | .stopRx => Sys2Proof.Machine.execStopRx s
  | .startRx => Sys2Proof.Machine.execStartRx s
  | .startTx => Sys2Proof.Machine.execStartTx s
  | .release => Sys2Proof.Machine.execRelease s
  | .resetPktcnt => Sys2Proof.Machine.execResetPktcnt s
  -- the application bus
  | .busRd addr n => Sys2Proof.Machine.execBusRd addr n s
  | .busWr addr n v => Sys2Proof.Machine.execBusWr addr n v s
  -- the micro-step
  | .step => Sys2Proof.Machine.execStep s
  -- the COBS codec
  | .cobsEncode x => Sys2Proof.Machine.execCobsEncode x s
  | .cobsDecode w => Sys2Proof.Machine.execCobsDecode w s
  | .decByte rem pz b => Sys2Proof.Machine.execDecByte rem pz b s
  | .decEnd rem => Sys2Proof.Machine.execDecEnd rem s
  | .encFeed b => Sys2Proof.Machine.execEncFeed b s
  | .encClose code => Sys2Proof.Machine.execEncClose code s
  -- the CRC engine
  | .crcInit => Sys2Proof.Machine.execCrcInit s
  | .crcUpdate c b => Sys2Proof.Machine.execCrcUpdate c b s
  | .crcFinal c => Sys2Proof.Machine.execCrcFinal c s
  | .crc32 x => Sys2Proof.Machine.execCrc32 x s
  | .crcVerify c => Sys2Proof.Machine.execCrcVerify c s
  -- the serializer and the deserializer
  | .serialize dest cmd idx payload => Sys2Proof.Machine.execSerialize dest cmd idx payload s
  | .deserialize w => Sys2Proof.Machine.execDeserialize w s

end Sys2Proof.Machine
end

