-- ==== Sys2Proof/Machine/Line.lean ====
section
/-! DEFINITION. What the environment does between two operations: the line (R56, R57, R88) and the
reset input (R270). -/

namespace Sys2Proof.Machine

/-- One byte arrives: it joins `RXQ` unless the receive queue is full (R56). -/
def Line.arrive (depth : Option Nat) (l : Line) (b : Byte) : Line :=
  match depth with
  | none => { l with rxq := l.rxq ++ [b] }
  | some k => if l.rxq.length < k then { l with rxq := l.rxq ++ [b] } else l

/-- The oldest `k` bytes of the sink leave on the line (R57). -/
def Line.drain (k : Nat) (l : Line) : Line :=
  { l with sent := l.sent ++ l.sink.take k, sink := l.sink.drop k }

/-- `tx_room` becomes `k`; between operations it may only stay or grow, so a smaller `k` leaves it (R57). -/
def Line.setRoom (k : Nat) (l : Line) : Line :=
  { l with room := max l.room k }

/-- `tx_idle` changes; it is true only once every pushed byte has left (R57). -/
def Line.setIdle (t : Bool) (l : Line) : Line :=
  if t then { l.drain l.sink.length with idle := true } else { l with idle := false }

/-- A line action (R56, R57, R88). Bytes that arrive while `rx_en = 0` are lost (R56). -/
def lineAct (a : LineAction) (s : State) : State :=
  match a with
  | .receive x => if s.rxEn then { s with line := x.foldl (Line.arrive s.params.rxqDepth) s.line } else s
  | .drain k => { s with line := s.line.drain k }
  | .room k => { s with line := s.line.setRoom k }
  | .idle t => { s with line := s.line.setIdle t }

/-- The reset input (R270, R271): the core at the values of R46; the line, the agenda and the
parameters are not the core's (R21; assumption 5). -/
def resetCore (s : State) : State :=
  State.afterReset (s.epoch + 1) s.line s.agenda s.params

end Sys2Proof.Machine
end

