-- ==== Sys2Proof/Machine/Step.lean ====
section
/-! DEFINITION. One step of the machine: the next entry of the agenda happens (R5, R6, R63). Where the
next operation comes from, and how the table's words are placed there (assumption 1). -/

namespace Sys2Proof.Machine

/-- One step: the application's next operation, or what the line does next, or a reset. With nothing
on the agenda the engine does nothing (R6, R257, R271; assumption 10); bytes that are no operation are
ignored: they issue none and change no state (R82; assumption 23). -/
def step (s : State) : Host.Outcome State Fault Refusal :=
  match s.agenda with
  | [] => .next s
  | .issue bytes :: rest =>
    match decode bytes with
    | .ok i => exec i { s with agenda := rest }
    | .error _ => .next { s with agenda := rest }
  | .line a :: rest => .next (lineAct a { s with agenda := rest })
  | .reset :: rest => .next (resetCore { s with agenda := rest })

/-- The state whose next operation is the one the table word `w` of `nbits` bits stands for. -/
def State.withFetchWord (s : State) (nbits w : Nat) : State :=
  { s with agenda := .issue (tableBytes nbits w) :: s.agenda }

end Sys2Proof.Machine
end

