-- ==== Sys2Proof/Safety.lean ====
section
/-! DEFINITION. What counts as a safe run, in the terms the statements use: the invariant of every
state a run reaches, the runs of micro-steps and of an encode pass. -/

namespace Sys2Proof.Machine

/-- The receive states, in which the engine consumes bytes (R144). -/
def EngineState.receiving : EngineState → Bool
  | .readDestination | .readPayload | .skipCurrentPacket => true
  | .start | .stopped | .encode => false

/-- A fresh decode session (R35). -/
abbrev RxSession.isFresh (r : RxSession) : Prop :=
  r.rem = 0#8 ∧ r.pz = false ∧ r.crc = 0xFFFFFFFF#32 ∧ r.destCnt = 0#3 ∧ r.bodyCnt = 0#11

/-- The range of the encoder's source cursor in each stage (R25). -/
def cursorInRange (stage : EncStage) (src len : Nat) : Prop :=
  match stage with
  | .encoderStart => src = 0
  | .writeDestination => src < 4
  | .writePayload => src ≤ len
  | .writeCrc => src < 4
  | .flush => src ≤ 2

/-- An open block holds at most 253 literals (R108); a closed one has a code byte and its literals, and
is not yet pushed to its end (R36, R109, R172). -/
def EncSession.cursorsInRange (e : EncSession) : Prop :=
  if e.dlen = 0#8 then e.fill.toNat ≤ 253
  else e.dlen.toNat = e.fill.toNat + 1 ∧ e.out.toNat < e.dlen.toNat

/-- What holds of every state a run from reset reaches. -/
structure State.Inv (s : State) : Prop where
  /-- The packet buffer is in canonical form (assumption 4). -/
  mem_wf : Memory.wf s.mem
  /-- The receiver is enabled exactly in the receive states (R44, R142, R160, R179). -/
  rx_enabled : s.rxEn = s.state.receiving
  /-- The transmitter is enabled exactly in an encode pass that has begun (R44, R173, R179). -/
  tx_enabled : s.txEn = true ↔ s.state = .encode ∧ s.encStage ≠ .encoderStart
  /-- `ReadPayload` implies `pkt_valid = 0` (R31, R61). -/
  payload_free : s.state = .readPayload → s.pktValid = false
  /-- While the receiver was stopped nothing entered `RXQ` (R56, R160). -/
  queue_empty : s.state = .stopped ∨ s.state = .encode → s.line.rxq = []
  /-- `rx_rem` is at most 254 (R32). -/
  rem_range : s.rx.rem.toNat ≤ 254
  /-- `dest_cnt` is at most 4 (R34), and below 4 while the destination is being read. -/
  dest_range : s.rx.destCnt.toNat ≤ 4 ∧ (s.state = .readDestination → s.rx.destCnt.toNat < 4)
  /-- `body_cnt` is at most 1020 (R34). -/
  body_range : s.rx.bodyCnt.toNat ≤ 1020
  /-- The block's cursors are in range (R36, R108, R109, R172). -/
  block_range : s.enc.cursorsInRange
  /-- The packet being sent has a legal length (R170) and the cursor is in its stage's range (R25). -/
  encode_range :
    s.state = .encode →
      2 ≤ s.pktLen.toNat ∧ s.pktLen.toNat ≤ 1016 ∧ cursorInRange s.encStage s.encSrc.toNat s.pktLen.toNat
  /-- Outside `Encode` the encoder is at its first stage (R23, R179). -/
  encoder_at_rest : s.state ≠ .encode → s.encStage = .encoderStart ∧ s.encSrc = 0#11
  /-- A stalled encoder waits for room to push a byte (R24). -/
  stalled_waits :
    s.encStalled = true →
      s.state = .encode ∧ (s.enc.dlen ≠ 0#8 ∨ (s.encStage = .flush ∧ s.encSrc = 1#11))
  /-- `tx_idle` is true only when every pushed byte has left (R57). -/
  idle_drained : s.line.idle = true → s.line.sink = []
  /-- A finite receive queue is never over its depth (R56). -/
  queue_depth : ∀ k, s.params.rxqDepth = some k → s.line.rxq.length ≤ k

/-- The core's state is at the values R46 states for reset; the fields it leaves unspecified are free. -/
abbrev State.atResetValues (s : State) : Prop :=
  s.state = .start ∧ s.encStage = .encoderStart ∧ s.encStalled = false ∧ s.encSrc = 0#11 ∧
  s.pktLen = 0#11 ∧ s.pktValid = false ∧ s.rx.isFresh ∧
  s.enc.fill = 0#8 ∧ s.enc.dlen = 0#8 ∧ s.enc.out = 0#8 ∧
  s.cnt = { good := 0#32, malformed := 0#32, overrun := 0#32, badCrc := 0#32, rxInterrupted := 0#32 } ∧
  s.rxEn = false ∧ s.txEn = false

/-- The engine makes micro-steps from one state to another, emitting these events in order, each with
the result `PROGRESS`. -/
inductive Progresses : State → List Event → State → Prop where
  | refl (s : State) : Progresses s [] s
  | step {s : State} {evs : List Event} {t : State} (h : (microStep s).res = .progress)
      (rest : Progresses (microStep s).after evs t) :
      Progresses s ((microStep s).event.toList ++ evs) t

/-- An encode pass goes on: from a state in `Encode` the application issues `PUMP` and `STEP`, in any order
and number, and between them the line does anything (R56, R57, R180). It ends where `Encode` is left. -/
inductive EncodeRun : State → State → Prop where
  | refl (s : State) : EncodeRun s s
  | issue {s t u : State} (i : Instr) (hs : s.state = .encode) (hi : i = .pump ∨ i = .step) (h : exec i s = .next t)
      (rest : EncodeRun t u) : EncodeRun s u
  | line {s u : State} (a : LineAction) (hs : s.state = .encode) (rest : EncodeRun (lineAct a s) u) : EncodeRun s u

/-- The next byte of `RXQ` is no delimiter, and decoding it delivers the data byte `x` (R144, R145, R151). -/
abbrev State.delivers (s : State) (x : Byte) : Prop :=
  ∃ b q, s.line.rxq = b :: q ∧ b ≠ 0#8 ∧ (decByte s.rx.rem s.rx.pz b).out = some x

/-- Whether the destination that `x` completes, as its fourth byte, matches (R145, R147). -/
def State.fourthMatches (s : State) (x : Byte) : Bool :=
  matchDest s.params s.filter
    (destOfBytes s.params.destByteOrder s.rx.destBuf[0] s.rx.destBuf[1] s.rx.destBuf[2] x)

/-- The operation is the command `op`, or a write of its `code` to `CMD` (R82, R220). -/
abbrev issues (i op : Instr) (code : Nat) : Prop :=
  i = op ∨ ∃ n v, i = .busWr 0x40C#12 n v ∧ v.toNat % 256 = code

/-- The streaming decoder run over stuffed bytes from a session (R105, R111): the data bytes delivered,
in order, and the session at the end. -/
def streamDecode (rem : Byte) (pz : Bool) : List Byte → List Byte × Byte × Bool
  | [] => ([], rem, pz)
  | b :: w =>
    let d := decByte rem pz b
    let r := streamDecode d.rem d.pz w
    (d.out.toList ++ r.1, r.2)

/-- The literals of the open block, in order (R36). -/
def EncSession.literals (e : EncSession) : List Byte :=
  (e.blk.toList.drop 1).take e.fill.toNat

/-- The bytes of the closed block, code byte first (R36). -/
def EncSession.closedBlock (e : EncSession) : List Byte :=
  e.blk.toList.take e.dlen.toNat

/-- The first `n` bytes of the packet buffer. -/
def pktBytes (s : State) (n : Nat) : List Byte :=
  (List.range n).map (pktRead s)

/-- An operation that is a bus write. -/
def isBusWrite : Instr → Bool
  | .busWr _ _ _ => true
  | _ => false

end Sys2Proof.Machine
end

