-- ==== Sys2Proof/Certificates/Slice0/Obligations.lean ====
section
/-! DEFINITION. The statements for the provers: what the spec's numbered rules say the operations and
the machine do. `exec i s = .next t` with a `t` the rules give is at once the result, the frame and the
completion of an operation: a field that the record update does not name is unchanged. -/

open Sys2Proof Sys2Proof.Machine

/-! ### Encoding -/

/-- R80, R81, with the operand blocks of assumption 2: no operand is lost in the bytes an operation is
issued as. -/
def Obligations.EncodeThenDecode : Prop :=
  ∀ i : Instr, i.wellFormed = true → decode (encode i) = .ok i

/-- The other direction (assumption 2): the decoder yields only well-formed operations, and every
operation has one spelling. -/
def Obligations.DecodedBytesAreTheEncoding : Prop :=
  ∀ (bytes : List Byte) (i : Instr), decode bytes = .ok i → i.wellFormed = true ∧ encode i = bytes

/-- R81: the operation codes, each written out with an operand block (assumption 2). -/
def Obligations.OperationCodeWords : Prop :=
  decode [0x01#8] = .ok .pump ∧ decode [0x02#8] = .ok .stopRx ∧ decode [0x03#8] = .ok .startRx ∧
  decode [0x04#8] = .ok .startTx ∧ decode [0x05#8] = .ok .release ∧ decode [0x06#8] = .ok .resetPktcnt ∧
  decode [0x10#8, 0x04#8, 0x04#8, 0x03#8] = .ok (.busRd 0x404#12 4) ∧
  decode [0x11#8, 0x0C#8, 0x04#8, 0x03#8, 0x01#8, 0x00#8, 0x00#8, 0x00#8] = .ok (.busWr 0x40C#12 4 0x00000001#32) ∧
  decode [0x18#8] = .ok .step ∧
  decode [0x20#8, 0x11#8, 0x00#8] = .ok (.cobsEncode [0x11#8, 0x00#8]) ∧
  decode [0x21#8, 0x02#8, 0x11#8] = .ok (.cobsDecode [0x02#8, 0x11#8]) ∧
  decode [0x22#8, 0x00#8, 0x01#8, 0x02#8] = .ok (.decByte 0x00#8 true 0x03#8) ∧
  decode [0x23#8, 0x01#8] = .ok (.decEnd 0x01#8) ∧ decode [0x24#8, 0x11#8] = .ok (.encFeed 0x11#8) ∧
  decode [0x25#8, 0xFE#8] = .ok (.encClose 0xFF#8) ∧ decode [0x28#8] = .ok .crcInit ∧
  decode [0x29#8, 0xFF#8, 0xFF#8, 0xFF#8, 0x7F#8, 0x31#8] = .ok (.crcUpdate 0x7FFFFFFF#32 0x31#8) ∧
  decode [0x2A#8, 0x48#8, 0x10#8, 0x23#8, 0x7C#8] = .ok (.crcFinal 0x7C231048#32) ∧
  decode [0x2B#8, 0x61#8] = .ok (.crc32 [0x61#8]) ∧
  decode [0x2C#8, 0xE3#8, 0x20#8, 0xBB#8, 0xDE#8] = .ok (.crcVerify 0xDEBB20E3#32) ∧
  decode [0x30#8, 0x01#8, 0x00#8, 0x00#8, 0x00#8, 0x0C#8, 0x00#8, 0x55#8] =
    .ok (.serialize 0x00000001#32 0x0C#8 0x00#8 [0x55#8]) ∧
  decode [0x31#8, 0x01#8] = .ok (.deserialize [0x01#8])

/-- R81: a code outside the table is rejected by name with any operands, and every code of the table
decodes with some operands. -/
def Obligations.CodesOutsideTheTableAreRejected : Prop :=
  ∀ code : Byte,
    let table := [0x01, 0x02, 0x03, 0x04, 0x05, 0x06, 0x10, 0x11, 0x18, 0x20, 0x21, 0x22, 0x23, 0x24, 0x25,
      0x28, 0x29, 0x2A, 0x2B, 0x2C, 0x30, 0x31]
    (code.toNat ∉ table → ∀ ops, decode (code :: ops) = .error (.unknownCode code)) ∧
    (code.toNat ∈ table → ∃ ops i, decode (code :: ops) = .ok i)

/-! ### The step -/

/-- R5, R6, with the agenda of assumption 1: a step whose next entry is an issued operation runs that
operation, with the entry taken off; every well-formed operation can be issued so. -/
def Obligations.StepRunsTheIssuedOperation : Prop :=
  ∀ (s : State) (rest : List Entry) (i : Instr),
    (∀ bytes, s.agenda = .issue bytes :: rest → decode bytes = .ok i →
      step s = exec i { s with agenda := rest }) ∧
    (s.agenda = .issue (encode i) :: rest → i.wellFormed = true → step s = exec i { s with agenda := rest })

/-- Assumptions 1, 5, 10 and 23: with an empty agenda the engine does nothing; bytes that are no operation
issue none and change no state (as R82 says of a reserved code); a line entry is what the line does; a reset
entry resets the core. -/
def Obligations.StepFollowsTheAgenda : Prop :=
  ∀ s : State,
    (s.agenda = [] → step s = .next s) ∧
    (∀ bytes rest e, s.agenda = .issue bytes :: rest → decode bytes = .error e →
      step s = .next { s with agenda := rest }) ∧
    (∀ a rest, s.agenda = .line a :: rest → step s = .next (lineAct a { s with agenda := rest })) ∧
    (∀ rest, s.agenda = .reset :: rest →
      ∃ t, step s = .next t ∧ t.atResetValues ∧ t.agenda = rest ∧ t.line = s.line ∧ t.params = s.params)

/-- R56: bytes that arrive while `rx_en = 0` are lost; otherwise they join the tail of `RXQ` in order, and
those that find a queue of finite depth full are lost. Nothing else changes. -/
def Obligations.ReceivedBytesJoinTheQueue : Prop :=
  ∀ (s : State) (x : List Byte),
    (s.rxEn = false → lineAct (.receive x) s = s) ∧
    (s.rxEn = true → s.params.rxqDepth = none →
      lineAct (.receive x) s = { s with line := { s.line with rxq := s.line.rxq ++ x } }) ∧
    (∀ k, s.rxEn = true → s.params.rxqDepth = some k →
      lineAct (.receive x) s =
        { s with line := { s.line with rxq := s.line.rxq ++ x.take (k - s.line.rxq.length) } })

/-- R57, with the sink of assumption 7: whatever the line does, the bytes pushed so far stay as they are and
in order, nothing but the line side changes, and `tx_room` stays or grows; `tx_idle` becomes true only with
every byte gone. An operation adds the bytes it pushes at the end, and each lowers `tx_room` by exactly 1. -/
def Obligations.LineKeepsTheTransmittedStream : Prop :=
  (∀ (a : LineAction) (s : State),
    (lineAct a s).line.txs = s.line.txs ∧
    lineAct a s = { s with line := (lineAct a s).line } ∧
    s.line.room ≤ (lineAct a s).line.room ∧
    (∀ k, s.line.room ≤ k → (lineAct (.room k) s).line.room = k) ∧
    (∀ k, (lineAct (.drain k) s).line.sent = s.line.sent ++ s.line.sink.take k) ∧
    ((lineAct (.idle true) s).line.idle = true ∧ (lineAct (.idle true) s).line.sink = []) ∧
    (lineAct (.idle false) s).line.idle = false) ∧
  (∀ (i : Instr) (s t : State), exec i s = .next t →
    ∃ pushed, t.line.txs = s.line.txs ++ pushed ∧ t.line.room + pushed.length = s.line.room)

/-! ### Reset and the invariant -/

/-- R46, R271: after reset every field with a stated value has it; the receiver and the transmitter are
disabled, no packet is pending, all counters are 0, the decode session is fresh. -/
def Obligations.ResetValues : Prop :=
  State.reset.atResetValues ∧ State.reset.mem = [] ∧ State.reset.agenda = []

/-- The invariant `State.Inv` holds after reset (the values of assumptions 3 to 8 included). -/
def Obligations.InvariantAtReset : Prop :=
  State.reset.Inv

/-- Every step keeps `State.Inv`: the buffer's canonical form, the enables, the ranges of every cursor,
the emptiness of `RXQ` while the receiver is stopped, the law of `tx_idle`. -/
def Obligations.EveryStepKeepsTheInvariant : Prop :=
  ∀ s t : State, s.Inv → step s = .next t → t.Inv

/-! ### CRC-32 -/

/-- R122: `CRC_UPDATE` is the eight shifts of the rule; a zero byte still changes a non-zero accumulator;
for a fixed byte it is a bijection of the accumulator; the worked example, shift by
shift. The polynomial is the spec's "from general knowledge" (R122; assumption 16). -/
def Obligations.CrcUpdateRule : Prop :=
  (∀ (c : Word) (b : Byte) (s : State),
    exec (.crcUpdate c b) s =
      .next { s with
        out :=
          { value := .word ((fun x : Word => if x.getLsbD 0 then (x >>> 1) ^^^ 0xEDB88320#32 else x >>> 1)^[8]
              (c ^^^ b.zeroExtend 32))
            events := [] } }) ∧
  (∀ c : Word, c ≠ 0#32 → crcUpdate c 0#8 ≠ c) ∧
  (∀ b : Byte, Function.Bijective fun c => crcUpdate c b) ∧
  crcUpdate 0xFFFFFFFF#32 0x31#8 = 0x7C231048#32 ∧
  (List.range 9).map (fun k => crcShifts k 0xFFFFFFCE#32) =
    [0xFFFFFFCE#32, 0x7FFFFFE7#32, 0xD2477CD3#32, 0x849B3D49#32, 0xAFF51D84#32, 0x57FA8EC2#32, 0x2BFD4761#32,
      0xF8462090#32, 0x7C231048#32]

/-- R121, R123 to R125: the initial accumulator, the final XOR, the checksum of a sequence and the residue
test, each with its worked example; the residue test holds of exactly one accumulator. The numbers
0xFFFFFFFF are the spec's "from general knowledge" (R121, R123; assumption 16). -/
def Obligations.CrcInitFinalVerify : Prop :=
  (∀ (c : Word) (x : List Byte) (s : State),
    exec .crcInit s = .next { s with out := { value := .word 0xFFFFFFFF#32, events := [] } } ∧
    exec (.crcFinal c) s = .next { s with out := { value := .word (c ^^^ 0xFFFFFFFF#32), events := [] } } ∧
    exec (.crc32 x) s =
      .next { s with
        out := { value := .word ((x.foldl crcUpdate 0xFFFFFFFF#32) ^^^ 0xFFFFFFFF#32), events := [] } } ∧
    exec (.crcVerify c) s =
      .next { s with out := { value := .bool (decide (c ^^^ 0xFFFFFFFF#32 = 0x2144DF1C#32)), events := [] } } ∧
    (c ^^^ 0xFFFFFFFF#32 = 0x2144DF1C#32 ↔ c = 0xDEBB20E3#32)) ∧
  0x7C231048#32 ^^^ 0xFFFFFFFF#32 = 0x83DCEFB7#32 ∧
  crcOf [] = 0#32 ∧ crcOf [0x00#8] = 0xD202EF8D#32 ∧ crcOf [0x61#8] = 0xE8B7BE43#32 ∧
  crcOf [0x61#8, 0x62#8, 0x63#8] = 0x352441C2#32 ∧
  crcOf [0x31#8, 0x32#8, 0x33#8, 0x34#8, 0x35#8, 0x36#8, 0x37#8, 0x38#8, 0x39#8] = 0xCBF43926#32 ∧
  crcOf [0x01#8, 0x00#8, 0x00#8, 0x00#8, 0x0C#8, 0x00#8] = 0xD62B3D0A#32 ∧
  [0x01#8, 0x00#8, 0x00#8, 0x00#8, 0x0C#8, 0x00#8, 0x0A#8, 0x3D#8, 0x2B#8, 0xD6#8].foldl crcUpdate
    0xFFFFFFFF#32 = 0xDEBB20E3#32

/-- R128: the finalized checksum of any bytes followed by their own checksum, least significant byte
first, is the residue, the empty sequence included; most significant byte first it is not, by the rule's
example. -/
def Obligations.CrcResidue : Prop :=
  let digits := [0x31#8, 0x32#8, 0x33#8, 0x34#8, 0x35#8, 0x36#8, 0x37#8, 0x38#8, 0x39#8]
  (∀ p : List Byte, crcOf (p ++ le32 (crcOf p)) = 0x2144DF1C#32) ∧
  crcOf [] = 0#32 ∧ crcOf [0#8, 0#8, 0#8, 0#8] = 0x2144DF1C#32 ∧
  crcOf (digits ++ (le32 (crcOf digits)).reverse) = 0x3CC9742C#32

/-- R129, of one changed byte anywhere (a single flipped bit among them): the checksum changes. -/
def Obligations.OneByteErrorChangesTheCrc : Prop :=
  ∀ (front back : List Byte) (b b' : Byte), b ≠ b' → crcOf (front ++ b :: back) ≠ crcOf (front ++ b' :: back)

/-! ### COBS -/

/-- R103 (a) to (e), of the bytes `COBS_ENCODE` returns. -/
def Obligations.CobsEncodeProperties : Prop :=
  ∀ (x : List Byte) (s : State), ∃ e : List Byte,
    exec (.cobsEncode x) s = .next { s with out := { value := .bytes e, events := [] } } ∧
    0#8 ∉ e ∧ x.length + 1 ≤ e.length ∧ e.length ≤ x.length + x.length / 254 + 1 ∧ e ≠ [] ∧
    exec (.cobsDecode e) s = .next { s with out := { value := .bytes x, events := [] } }

/-- R100: `COBS_ENCODE` completes on every sequence and changes no state; it closes a block at a zero, at
the 254th literal, and at the end; the worked example. -/
def Obligations.CobsEncodeByBlocks : Prop :=
  (∀ (x : List Byte) (s : State),
    exec (.cobsEncode x) s = .next { s with out := { value := .bytes (cobsEncode x), events := [] } }) ∧
  (∀ l x : List Byte, 0#8 ∉ l →
    (l.length < 254 →
      cobsEncode l = BitVec.ofNat 8 (l.length + 1) :: l ∧
      cobsEncode (l ++ 0#8 :: x) = BitVec.ofNat 8 (l.length + 1) :: l ++ cobsEncode x) ∧
    (l.length = 254 → cobsEncode (l ++ x) = 255#8 :: l ++ cobsEncode x)) ∧
  cobsEncode [0x11#8, 0x22#8, 0x00#8, 0x33#8] = [0x03#8, 0x11#8, 0x22#8, 0x02#8, 0x33#8]

/-- R73, R104: the decoder undoes a block with its implied zero when another byte follows, drops the
phantom zero, takes a full block without one, and answers `Malformed` to an incomplete block and to an
embedded zero. It completes on every operand. -/
def Obligations.CobsDecodeByBlocks : Prop :=
  (∀ (w : List Byte) (s : State),
    exec (.cobsDecode w) s =
      .next { s with
        out := { value := (match cobsDecode w with | some x => .bytes x | none => .error .malformed), events := [] } }) ∧
  cobsDecode [] = some [] ∧
  (∀ l w : List Byte, 0#8 ∉ l →
    (l.length < 254 →
      cobsDecode (BitVec.ofNat 8 (l.length + 1) :: l) = some l ∧
      (w ≠ [] →
        cobsDecode (BitVec.ofNat 8 (l.length + 1) :: l ++ w) = (cobsDecode w).map fun x => l ++ 0#8 :: x)) ∧
    (l.length = 254 → cobsDecode (255#8 :: l ++ w) = (cobsDecode w).map fun x => l ++ x)) ∧
  (∀ (c : Byte) (l : List Byte), l.length + 1 < c.toNat → cobsDecode (c :: l) = none) ∧
  (∀ u v : List Byte, cobsDecode (u ++ 0#8 :: v) = none)

/-- R105, R106: one step of the streaming decoder on a code byte and on a literal; the check at the
delimiter. `DEC_BYTE` completes on every operand with a session in R32's range; on a zero byte, or a `rem` of
255, what it answers is otherwise free (assumption 13). -/
def Obligations.StreamingDecoderSteps : Prop :=
  ∀ (rem : Byte) (pz : Bool) (b : Byte) (s : State),
    (b ≠ 0#8 → rem = 0#8 →
      exec (.decByte rem pz b) s =
        .next { s with
          out :=
            { value := .session (b - 1#8) (decide (b.toNat < 255)) (if pz then some 0#8 else none), events := [] } }) ∧
    (b ≠ 0#8 → rem ≠ 0#8 → rem ≠ 255#8 →
      exec (.decByte rem pz b) s =
        .next { s with out := { value := .session (rem - 1#8) pz (some b), events := [] } }) ∧
    (∃ r p o, exec (.decByte rem pz b) s = .next { s with out := { value := .session r p o, events := [] } } ∧
      r.toNat ≤ 254) ∧
    (rem = 0#8 → exec (.decEnd rem) s = .next { s with out := { value := .ok, events := [] } }) ∧
    (rem ≠ 0#8 → exec (.decEnd rem) s = .next { s with out := { value := .error .malformed, events := [] } })

/-- R111 and R104: the streaming decoder run over an encoding delivers the data and ends at a block's
end; on bytes with no zero it agrees with the one-pass decoder. -/
def Obligations.StreamingDecoderMatchesOnePass : Prop :=
  (∀ x : List Byte,
    (streamDecode 0#8 false (cobsEncode x)).1 = x ∧ (streamDecode 0#8 false (cobsEncode x)).2.1 = 0#8) ∧
  (∀ w : List Byte, 0#8 ∉ w →
    cobsDecode w =
      if (streamDecode 0#8 false w).2.1 = 0#8 then some (streamDecode 0#8 false w).1 else none)

/-- R108, R109: with no block draining, a non-zero byte joins the open block and the 254th closes it with
code 255; a zero byte closes it with its length plus one; `ENC_CLOSE` closes the block with the given code,
draining or not. The checksums and everything outside the encode session are unchanged. While a block is
draining `ENC_FEED` stops by name (assumption 12). -/
def Obligations.EncFeedAndClose : Prop :=
  (∀ (b : Byte) (s : State), exec (.encFeed b) s = .refused .encFeedWhileDraining ↔ s.enc.dlen ≠ 0#8) ∧
  (∀ (b : Byte) (s : State), s.enc.dlen = 0#8 → s.enc.fill.toNat ≤ 253 →
    ∃ t, exec (.encFeed b) s = .next t ∧
      t = { s with enc := t.enc, out := { value := .none, events := [] } } ∧
      t.enc.txCrc = s.enc.txCrc ∧ t.enc.crcLat = s.enc.crcLat ∧
      (b ≠ 0#8 → s.enc.fill.toNat < 253 →
        t.enc.literals = s.enc.literals ++ [b] ∧ t.enc.fill = s.enc.fill + 1#8 ∧ t.enc.dlen = 0#8) ∧
      (b ≠ 0#8 → s.enc.fill.toNat = 253 →
        t.enc.closedBlock = 255#8 :: (s.enc.literals ++ [b]) ∧ t.enc.fill = 254#8 ∧ t.enc.dlen = 255#8 ∧
        t.enc.out = 0#8) ∧
      (b = 0#8 →
        t.enc.closedBlock = (s.enc.fill + 1#8) :: s.enc.literals ∧ t.enc.fill = s.enc.fill ∧
        t.enc.dlen = s.enc.fill + 1#8 ∧ t.enc.out = 0#8)) ∧
  (∀ (code : Byte) (s : State), s.enc.fill.toNat ≤ 254 →
    ∃ t, exec (.encClose code) s = .next t ∧
      t = { s with enc := t.enc, out := { value := .none, events := [] } } ∧
      t.enc.txCrc = s.enc.txCrc ∧ t.enc.crcLat = s.enc.crcLat ∧
      t.enc.closedBlock = code :: s.enc.literals ∧ t.enc.fill = s.enc.fill ∧
      t.enc.dlen = s.enc.fill + 1#8 ∧ t.enc.out = 0#8)

/-! ### Serializer and deserializer -/

/-- R200: the wire bytes of a legal packet and its checksum, under either byte order of the destination;
one `0x00`, at the end; the decoded frame's length; the worked example. -/
def Obligations.SerializeRule : Prop :=
  (∀ (dest : Word) (cmd idx : Byte) (payload : List Byte) (s : State), payload.length ≤ 1014 →
    let head := destBytes s.params.destByteOrder dest ++ [cmd, idx] ++ payload
    let raw := head ++ le32 (crcOf head)
    let w := cobsEncode raw ++ [0#8]
    exec (.serialize dest cmd idx payload) s =
      .next { s with out := { value := .frame w (crcOf head), events := [] } } ∧
    raw.length = payload.length + 10 ∧ 0#8 ∉ w.dropLast) ∧
  (∀ s : State, s.params.destByteOrder = .little →
    exec (.serialize 1#32 0x0C#8 0x00#8 []) s =
      .next { s with
        out :=
          { value :=
              .frame
                [0x02#8, 0x01#8, 0x01#8, 0x01#8, 0x02#8, 0x0C#8, 0x05#8, 0x0A#8, 0x3D#8, 0x2B#8, 0xD6#8, 0x00#8]
                0xD62B3D0A#32
            events := [] } })

/-- R201: `SERIALIZE` has no behaviour on a payload longer than 1014 bytes; it stops by name. -/
def Obligations.SerializeStopsOnLongPayload : Prop :=
  ∀ (dest : Word) (cmd idx : Byte) (payload : List Byte) (s : State),
    exec (.serialize dest cmd idx payload) s = .refused .payloadTooLong ↔ 1014 < payload.length

/-- R203, R207: the wire bytes of a packet are at most 1030, and what `SERIALIZE` returns, less the
delimiter, `DESERIALIZE` takes apart again, under either byte order of the destination. -/
def Obligations.SerializeDeserializeRoundTrip : Prop :=
  ∀ (dest : Word) (cmd idx : Byte) (payload : List Byte) (s : State), payload.length ≤ 1014 →
    ∃ w crc, exec (.serialize dest cmd idx payload) s =
        .next { s with out := { value := .frame w crc, events := [] } } ∧
      w.length ≤ payload.length + 16 ∧ w.length ≤ 1030 ∧
      exec (.deserialize w.dropLast) s =
        .next { s with
          out :=
            { value := .packet { dest := dest, cmd := cmd, idx := idx, payload := payload, crc := crc }
              events := [] } }

/-- R204, R205: `DESERIALIZE` completes on every operand; COBS first, then the length, then the checksum;
a packet's fields, in wire order, are the decoded bytes. -/
def Obligations.DeserializeOutcomes : Prop :=
  ∀ (w : List Byte) (s : State), ∃ v : Value,
    exec (.deserialize w) s = .next { s with out := { value := v, events := [] } } ∧
    (cobsDecode w = none → v = .error .malformed) ∧
    (∀ raw, cobsDecode w = some raw →
      (raw.length < 10 ∨ 1024 < raw.length → v = .error .malformed) ∧
      (10 ≤ raw.length → raw.length ≤ 1024 → crcOf raw ≠ 0x2144DF1C#32 → v = .error .badChecksum) ∧
      (10 ≤ raw.length → raw.length ≤ 1024 → crcOf raw = 0x2144DF1C#32 →
        ∃ p : Packet, v = .packet p ∧
          raw = destBytes s.params.destByteOrder p.dest ++ [p.cmd, p.idx] ++ p.payload ++ le32 p.crc))

/-! ### The application bus -/

/-- R83 to R85, R221: what every readable place of the bus reads as; a read changes nothing (R60). -/
def Obligations.BusReadValues : Prop :=
  ∀ s : State,
    let reads := fun (a : Addr) (n : Nat) (v : Word) =>
      exec (.busRd a n) s = .next { s with out := { value := .busData n v, events := [] } }
    (∀ a : Addr, a.toNat ≤ 0x3FB → reads a 1 ((pktRead s a.toNat).zeroExtend 32)) ∧
    (∀ (a : Addr) (n : Nat), 0x3FC ≤ a.toNat ∧ a.toNat ≤ 0x3FF ∨ 0x488 ≤ a.toNat → reads a n 0#32) ∧
    reads 0x400#12 4 s.dest ∧ reads 0x404#12 4 (s.pktLen.zeroExtend 32) ∧ reads 0x408#12 4 (statusWord s) ∧
    reads 0x40C#12 4 0#32 ∧ reads 0x410#12 4 s.cnt.good ∧ reads 0x414#12 4 s.cnt.malformed ∧
    reads 0x418#12 4 s.cnt.overrun ∧ reads 0x41C#12 4 s.cnt.badCrc ∧ reads 0x420#12 4 s.cnt.rxInterrupted ∧
    (∀ a : Addr, 0x424 ≤ a.toNat → a.toNat ≤ 0x43C → a.toNat % 4 = 0 → reads a 4 0#32) ∧
    reads 0x440#12 4 s.filter.mcastAddr ∧ reads 0x444#12 4 s.filter.mcastMask ∧
    (∀ i : Fin 16, reads (BitVec.ofNat 12 (0x448 + 4 * i.val)) 4 s.filter.unicast[i])

/-- R58, R59: a bus access stops by name exactly when its width is not one the space has or it is a
misaligned `REG` access. -/
def Obligations.BusAccessStops : Prop :=
  ∀ (a : Addr) (n : Nat) (v : Word) (s : State),
    let bad := a.toNat ≤ 0x3FB ∧ n ≠ 1 ∨ 0x400 ≤ a.toNat ∧ a.toNat ≤ 0x487 ∧ (n ≠ 4 ∨ a.toNat % 4 ≠ 0)
    (exec (.busRd a n) s = .refused .busBadAccess ↔ bad) ∧ (exec (.busWr a n v) s = .refused .busBadAccess ↔ bad)

/-- R222, R223: in `Stopped` the application writes a byte of the buffer, `DEST` and the low 11 bits of
`PKT_LEN`, and every other byte of the buffer reads as before; outside `Stopped` each of these writes
stops by name. -/
def Obligations.BusWritesToThePacket : Prop :=
  ∀ (v : Word) (s : State),
  (s.state = .stopped →
    (∀ a : Addr, a.toNat ≤ 0x3FB →
      ∃ t, exec (.busWr a 1 v) s = .next t ∧
        t = { s with mem := t.mem, out := { value := .none, events := [] } } ∧
        pktRead t a.toNat = v.extractLsb' 0 8 ∧ ∀ k, k ≠ a.toNat → pktRead t k = pktRead s k) ∧
    exec (.busWr 0x400#12 4 v) s = .next { s with dest := v, out := { value := .none, events := [] } } ∧
    exec (.busWr 0x404#12 4 v) s =
      .next { s with pktLen := v.extractLsb' 0 11, out := { value := .none, events := [] } }) ∧
  (s.state ≠ .stopped →
    (∀ a : Addr, a.toNat ≤ 0x3FB → exec (.busWr a 1 v) s = .refused .busWriteNotOwned) ∧
    exec (.busWr 0x400#12 4 v) s = .refused .busWriteNotOwned ∧
    exec (.busWr 0x404#12 4 v) s = .refused .busWriteNotOwned)

/-- R41, R222: in every state a filter register is written whole; writes to read-only registers and to
the holes are ignored. -/
def Obligations.BusWritesInEveryState : Prop :=
  ∀ (v : Word) (s : State),
    let done : Output := { value := .none, events := [] }
    exec (.busWr 0x440#12 4 v) s = .next { s with filter := { s.filter with mcastAddr := v }, out := done } ∧
    exec (.busWr 0x444#12 4 v) s = .next { s with filter := { s.filter with mcastMask := v }, out := done } ∧
    (∀ i : Fin 16,
      exec (.busWr (BitVec.ofNat 12 (0x448 + 4 * i.val)) 4 v) s =
        .next { s with filter := { s.filter with unicast := s.filter.unicast.set i.val v }, out := done }) ∧
    (∀ a : Addr, a.toNat = 0x408 ∨ 0x410 ≤ a.toNat ∧ a.toNat ≤ 0x43C ∧ a.toNat % 4 = 0 →
      exec (.busWr a 4 v) s = .next { s with out := done }) ∧
    (∀ (a : Addr) (n : Nat), 0x3FC ≤ a.toNat ∧ a.toNat ≤ 0x3FF ∨ 0x488 ≤ a.toNat →
      exec (.busWr a n v) s = .next { s with out := done })

/-- R82, R220: a write to `CMD` issues the command of its low byte, exactly as the operation of that code
does, and any other value issues none and changes no state. -/
def Obligations.CommandRegister : Prop :=
  ∀ (v : Word) (s : State),
    let code := v.toNat % 256
    (code = 0x01 → exec (.busWr 0x40C#12 4 v) s = exec .pump s) ∧
    (code = 0x02 → exec (.busWr 0x40C#12 4 v) s = exec .stopRx s) ∧
    (code = 0x03 → exec (.busWr 0x40C#12 4 v) s = exec .startRx s) ∧
    (code = 0x04 → exec (.busWr 0x40C#12 4 v) s = exec .startTx s) ∧
    (code = 0x05 → exec (.busWr 0x40C#12 4 v) s = exec .release s) ∧
    (code = 0x06 → exec (.busWr 0x40C#12 4 v) s = exec .resetPktcnt s) ∧
    (code = 0 ∨ 6 < code →
      exec (.busWr 0x40C#12 4 v) s = .next { s with out := { value := .none, events := [] } })

/-- R86: the fields of `STATUS`. -/
def Obligations.StatusWordFields : Prop :=
  ∀ s : State,
    let w := statusWord s
    w.toNat % 8 =
      (match s.state with
        | .start => 0 | .readDestination => 1 | .readPayload => 2 | .skipCurrentPacket => 3
        | .stopped => 4 | .encode => 5) ∧
    w.toNat / 8 % 8 =
      (match s.encStage with
        | .encoderStart => 0 | .writeDestination => 1 | .writePayload => 2 | .writeCrc => 3 | .flush => 4) ∧
    w.getLsbD 6 = s.encStalled ∧ w.getLsbD 7 = s.pktValid ∧ w.getLsbD 8 = s.rxEn ∧ w.getLsbD 9 = s.txEn ∧
    w.toNat < 1024

/-! ### Commands of the node engine -/

/-- R39: what increments each counter, once, and that nothing else does. `PUMP` counts what its
micro-steps up to the blocked one count; a command counts the same whether issued as an operation or
through `CMD`. -/
def Obligations.CounterCauses : Prop :=
  ∀ (i : Instr) (s t : State), exec i s = .next t →
    let o := s.params.cntOverflow
    let cut := s.line.rxq.head? = some 0#8 ∧ s.rx.rem ≠ 0#8
    let whole := s.line.rxq.head? = some 0#8 ∧ s.rx.rem = 0#8
    let good := s.state = .readPayload ∧ whole ∧ 6 ≤ s.rx.bodyCnt.toNat ∧ s.rx.crc = 0xDEBB20E3#32
    let malformed :=
      s.state = .readDestination ∧ cut ∨ s.state = .readPayload ∧ cut ∨
      s.state = .readPayload ∧ whole ∧ s.rx.bodyCnt.toNat < 6 ∨
      s.state = .readPayload ∧ s.rx.bodyCnt.toNat = 1020 ∧ ∃ x, s.delivers x
    let overrun :=
      s.state = .readDestination ∧ s.rx.destCnt = 3#3 ∧ s.pktValid = true ∧
      ∃ x, s.delivers x ∧ s.fourthMatches x = true
    let badCrc := s.state = .readPayload ∧ whole ∧ 6 ≤ s.rx.bodyCnt.toNat ∧ s.rx.crc ≠ 0xDEBB20E3#32
    (i = .step →
      (good → t.cnt = { s.cnt with good := inc o s.cnt.good }) ∧
      (malformed → t.cnt = { s.cnt with malformed := inc o s.cnt.malformed }) ∧
      (overrun → t.cnt = { s.cnt with overrun := inc o s.cnt.overrun }) ∧
      (badCrc → t.cnt = { s.cnt with badCrc := inc o s.cnt.badCrc }) ∧
      (¬ good → ¬ malformed → ¬ overrun → ¬ badCrc → t.cnt = s.cnt)) ∧
    (issues i .stopRx 2 →
      (s.state ≠ .stopped ∧ s.line.rxq ≠ [] →
        t.cnt = { s.cnt with rxInterrupted := inc o s.cnt.rxInterrupted }) ∧
      (s.state = .stopped ∨ s.line.rxq = [] → t.cnt = s.cnt)) ∧
    (issues i .pump 1 → ∃ evs u, Progresses s evs u ∧ (microStep u).res = .blocked ∧ t.cnt = u.cnt) ∧
    (issues i .resetPktcnt 6 →
      t.cnt = { good := 0#32, malformed := 0#32, overrun := 0#32, badCrc := 0#32, rxInterrupted := 0#32 }) ∧
    (i ≠ .step → ¬ issues i .stopRx 2 → ¬ issues i .pump 1 → ¬ issues i .resetPktcnt 6 → t.cnt = s.cnt)

/-- R226, R227: in every state `RELEASE` clears `pkt_valid` and changes nothing else, and `RESET_PKTCNT`
zeroes the five counters and changes nothing else. -/
def Obligations.ReleaseAndResetPktcnt : Prop :=
  ∀ s : State,
    exec .release s = .next { s with pktValid := false, out := { value := .none, events := [] } } ∧
    exec .resetPktcnt s =
      .next { s with
        cnt := { good := 0#32, malformed := 0#32, overrun := 0#32, badCrc := 0#32, rxInterrupted := 0#32 }
        out := { value := .none, events := [] } }

/-- R160: `STOP_RX` counts unread bytes once, discards them, disables the receiver and stops; it does
nothing in `Stopped` and stops by name in `Encode`. -/
def Obligations.StopRxRule : Prop :=
  ∀ s : State,
    (s.state = .encode → exec .stopRx s = .refused .stopRxInEncode) ∧
    (s.state = .stopped → exec .stopRx s = .next { s with out := { value := .none, events := [] } }) ∧
    (s.state ≠ .encode → s.state ≠ .stopped →
      exec .stopRx s =
        .next { s with
          state := .stopped
          rxEn := false
          line := { s.line with rxq := [] }
          cnt :=
            if s.line.rxq = [] then s.cnt
            else { s.cnt with rxInterrupted := inc s.params.cntOverflow s.cnt.rxInterrupted }
          out := { value := .none, events := [] } })

/-- R161: `START_RX` in `Stopped` goes to `Start`; in any other state it has no effect. -/
def Obligations.StartRxRule : Prop :=
  ∀ s : State,
    (s.state = .stopped →
      exec .startRx s = .next { s with state := .start, out := { value := .none, events := [] } }) ∧
    (s.state ≠ .stopped → exec .startRx s = .next { s with out := { value := .none, events := [] } })

/-- R170: `START_TX` in `Stopped` with a legal length begins an encode pass and moves no byte; otherwise
it stops by name. -/
def Obligations.StartTxRule : Prop :=
  ∀ s : State,
    (s.state = .stopped → 2 ≤ s.pktLen.toNat → s.pktLen.toNat ≤ 1016 →
      exec .startTx s =
        .next { s with
          state := .encode
          encStage := .encoderStart
          encStalled := false
          enc := { s.enc with dlen := 0#8, out := 0#8, fill := 0#8 }
          encSrc := 0#11
          out := { value := .none, events := [] } }) ∧
    (s.state ≠ .stopped → exec .startTx s = .refused .startTxNotStopped) ∧
    (s.state = .stopped → s.pktLen.toNat < 2 ∨ 1016 < s.pktLen.toNat →
      exec .startTx s = .refused .startTxBadLength)

/-! ### The micro-step -/

/-- R142, R143: `STEP` in `Start` enables the receiver, resets the session and goes to `ReadDestination`,
consuming no byte; in `Stopped` it is blocked and changes nothing. -/
def Obligations.StepInStartAndStopped : Prop :=
  ∀ s : State,
    (s.state = .start →
      exec .step s =
        .next { s with
          txEn := false
          rxEn := true
          rx :=
            { s.rx with rem := 0#8, pz := false, crc := 0xFFFFFFFF#32, destCnt := 0#3, bodyCnt := 0#11 }
          state := .readDestination
          out := { value := .stepped .progress, events := [] } }) ∧
    (s.state = .stopped →
      exec .step s = .next { s with out := { value := .stepped .blocked, events := [] } })

/-- R144 to R149: `STEP` in `ReadDestination`. Without a byte it is blocked. A delimiter starts a new
frame, counted as malformed inside a block. Another byte goes through the decoder; a data byte joins the
destination and the checksum, and the fourth decides: no match is silent, a match with a packet pending
is an overrun, a match without one confirms the address. -/
def Obligations.StepReadsTheDestination : Prop :=
  ∀ s : State, s.state = .readDestination →
    (s.line.rxq = [] → exec .step s = .next { s with out := { value := .stepped .blocked, events := [] } }) ∧
    (∀ b q, s.line.rxq = b :: q →
      let fresh := { s.rx with rem := 0#8, pz := false, crc := 0xFFFFFFFF#32, destCnt := 0#3, bodyCnt := 0#11 }
      let d := decByte s.rx.rem s.rx.pz b
      let base :=
        { s with line := { s.line with rxq := q }, out := { value := .stepped .progress, events := [] } }
      (b = 0#8 → s.rx.rem = 0#8 → exec .step s = .next { base with rx := fresh }) ∧
      (b = 0#8 → s.rx.rem ≠ 0#8 →
        exec .step s =
          .next { base with
            rx := fresh
            cnt := { s.cnt with malformed := inc s.params.cntOverflow s.cnt.malformed } }) ∧
      (b ≠ 0#8 → d.out = none →
        exec .step s = .next { base with rx := { s.rx with rem := d.rem, pz := d.pz } }) ∧
      (∀ x, b ≠ 0#8 → d.out = some x →
        let rx :=
          { s.rx with
            rem := d.rem
            pz := d.pz
            destBuf := s.rx.destBuf.setIfInBounds s.rx.destCnt.toNat x
            destCnt := s.rx.destCnt + 1#3
            crc := crcUpdate s.rx.crc x }
        let dest := destOfBytes s.params.destByteOrder rx.destBuf[0] rx.destBuf[1] rx.destBuf[2] rx.destBuf[3]
        (s.rx.destCnt ≠ 3#3 → exec .step s = .next { base with rx := rx }) ∧
        (s.rx.destCnt = 3#3 → matchDest s.params s.filter dest = false →
          exec .step s = .next { base with rx := rx, state := .skipCurrentPacket }) ∧
        (s.rx.destCnt = 3#3 → matchDest s.params s.filter dest = true → s.pktValid = true →
          exec .step s =
            .next { base with
              rx := rx
              state := .skipCurrentPacket
              cnt := { s.cnt with overrun := inc s.params.cntOverflow s.cnt.overrun } }) ∧
        (s.rx.destCnt = 3#3 → matchDest s.params s.filter dest = true → s.pktValid = false →
          exec .step s =
            .next { base with rx := { rx with bodyCnt := 0#11 }, state := .readPayload, dest := dest })))

/-- R150: the default address match. -/
def Obligations.DefaultAddressMatch : Prop :=
  ∀ (p : Params) (f : Filter) (d : Word), p.matchFn = .standard →
    (matchDest p f d = true ↔
      d &&& f.mcastMask = f.mcastAddr &&& f.mcastMask ∨ ∃ i : Fin 16, f.unicast[i] = d)

/-- R144, R151 to R157: `STEP` in `ReadPayload`. Without a byte it is blocked. A data byte is stored at
`body_cnt` and joins the checksum, and every other byte of the buffer stays; with a full buffer it is dropped
and the frame is malformed. A delimiter is checked for the block, the length and the residue, in that order;
a good frame is counted, its length latched, the packet marked, the event raised. -/
def Obligations.StepReadsThePayload : Prop :=
  ∀ s : State, s.state = .readPayload →
    (s.line.rxq = [] → exec .step s = .next { s with out := { value := .stepped .blocked, events := [] } }) ∧
    (∀ b q, s.line.rxq = b :: q →
      let fresh := { s.rx with rem := 0#8, pz := false, crc := 0xFFFFFFFF#32, destCnt := 0#3, bodyCnt := 0#11 }
      let d := decByte s.rx.rem s.rx.pz b
      let base :=
        { s with line := { s.line with rxq := q }, out := { value := .stepped .progress, events := [] } }
      (b = 0#8 → s.rx.rem ≠ 0#8 ∨ s.rx.bodyCnt.toNat < 6 →
        exec .step s =
          .next { base with
            rx := fresh
            state := .readDestination
            cnt := { s.cnt with malformed := inc s.params.cntOverflow s.cnt.malformed } }) ∧
      (b = 0#8 → s.rx.rem = 0#8 → 6 ≤ s.rx.bodyCnt.toNat → s.rx.crc ≠ 0xDEBB20E3#32 →
        exec .step s =
          .next { base with
            rx := fresh
            state := .readDestination
            cnt := { s.cnt with badCrc := inc s.params.cntOverflow s.cnt.badCrc } }) ∧
      (b = 0#8 → s.rx.rem = 0#8 → 6 ≤ s.rx.bodyCnt.toNat → s.rx.crc = 0xDEBB20E3#32 →
        exec .step s =
          .next { base with
            rx := fresh
            state := .readDestination
            cnt := { s.cnt with good := inc s.params.cntOverflow s.cnt.good }
            pktLen := s.rx.bodyCnt - 4#11
            pktValid := true
            out := { value := .stepped .progress, events := [.evRx] } }) ∧
      (b ≠ 0#8 → d.out = none →
        exec .step s = .next { base with rx := { s.rx with rem := d.rem, pz := d.pz } }) ∧
      (∀ x, b ≠ 0#8 → d.out = some x → s.rx.bodyCnt.toNat = 1020 →
        exec .step s =
          .next { base with
            rx := { s.rx with rem := d.rem, pz := d.pz }
            state := .skipCurrentPacket
            cnt := { s.cnt with malformed := inc s.params.cntOverflow s.cnt.malformed } }) ∧
      (∀ x, b ≠ 0#8 → d.out = some x → s.rx.bodyCnt.toNat ≠ 1020 →
        ∃ t, exec .step s = .next t ∧
          t =
            { base with
              mem := t.mem
              rx :=
                { s.rx with
                  rem := d.rem, pz := d.pz, bodyCnt := s.rx.bodyCnt + 1#11, crc := crcUpdate s.rx.crc x } } ∧
          pktRead t s.rx.bodyCnt.toNat = x ∧ ∀ k, k ≠ s.rx.bodyCnt.toNat → pktRead t k = pktRead s k))

/-- R158: `STEP` in `SkipCurrentPacket` drops a non-zero byte without decoding it and leaves at the
delimiter with a fresh session; nothing is counted; without a byte it is blocked; the worked example. -/
def Obligations.SkipDiscardsToTheDelimiter : Prop :=
  ∀ s : State, s.state = .skipCurrentPacket →
    let moved : Output := { value := .stepped .progress, events := [] }
    (s.line.rxq = [] → exec .step s = .next { s with out := { value := .stepped .blocked, events := [] } }) ∧
    (∀ b q, s.line.rxq = b :: q → b ≠ 0#8 →
      exec .step s = .next { s with line := { s.line with rxq := q }, out := moved }) ∧
    (∀ q, s.line.rxq = 0#8 :: q →
      exec .step s =
        .next { s with
          line := { s.line with rxq := q }
          rx :=
            { s.rx with rem := 0#8, pz := false, crc := 0xFFFFFFFF#32, destCnt := 0#3, bodyCnt := 0#11 }
          state := .readDestination
          out := moved }) ∧
    (s.line.rxq = [0x11#8, 0x22#8, 0x00#8, 0x02#8] →
      ∃ a b c, exec .step s = .next a ∧ exec .step a = .next b ∧ exec .step b = .next c ∧
        a.state = .skipCurrentPacket ∧ b.state = .skipCurrentPacket ∧ c.state = .readDestination ∧
        c.line.rxq = [0x02#8] ∧ c.rx.isFresh ∧ c.cnt = s.cnt)

/-- R164: in every receive state the micro-step that consumes a `0x00` completes and leaves the engine at
a frame start, whatever it had decoded. -/
def Obligations.DelimiterResynchronises : Prop :=
  ∀ (s : State) (q : List Byte), s.state.receiving = true → s.line.rxq = 0#8 :: q →
    ∃ t, exec .step s = .next t ∧ t.state = .readDestination ∧ t.rx.isFresh ∧ t.line.rxq = q

/-- R172: with a closed block draining, `STEP` in `Encode` pushes its next byte, or stalls without room;
the last byte ends the drain. A micro-step pushes nowhere else but at the delimiter of `Flush`, and there
alone the encoder can stall: no operation but a `STEP` without room there sets `enc_stalled` (`PUMP`, alone
or through `CMD`, is a run of `STEP`s). That a push leaves `tx_idle` as it was is assumption 7's. -/
def Obligations.StepDrains : Prop :=
  (∀ s : State, s.state = .encode → s.enc.dlen ≠ 0#8 →
    (s.line.room = 0 →
      exec .step s = .next { s with encStalled := true, out := { value := .stepped .blocked, events := [] } }) ∧
    (s.line.room ≠ 0 →
      ∃ t, exec .step s = .next t ∧
        t = { s with
          line := t.line, enc := t.enc, encStalled := false, out := { value := .stepped .progress, events := [] } } ∧
        t.line.txs = s.line.txs ++ [s.enc.blk[s.enc.out.toNat]?.getD 0#8] ∧ t.line.room + 1 = s.line.room ∧
        t.line.rxq = s.line.rxq ∧ t.line.idle = s.line.idle ∧
        (s.enc.out + 1#8 ≠ s.enc.dlen → t.enc = { s.enc with out := s.enc.out + 1#8 }) ∧
        (s.enc.out + 1#8 = s.enc.dlen → t.enc = { s.enc with dlen := 0#8, out := 0#8, fill := 0#8 }))) ∧
  (∀ s t : State, exec .step s = .next t → t.line.txs ≠ s.line.txs →
    s.state = .encode ∧ s.line.room ≠ 0 ∧ (s.enc.dlen ≠ 0#8 ∨ s.encStage = .flush ∧ s.encSrc = 1#11)) ∧
  (∀ (i : Instr) (s t : State), ¬ issues i .pump 1 → exec i s = .next t → s.encStalled = false →
    t.encStalled = true →
    i = .step ∧ t.out.value = .stepped .blocked ∧ s.state = .encode ∧ s.line.room = 0 ∧
      (s.enc.dlen ≠ 0#8 ∨ s.encStage = .flush ∧ s.encSrc = 1#11))

/-- R171, R173 to R179: `STEP` in `Encode` with no block draining. Each stage feeds its bytes in order;
`Flush` closes the final block, pushes the delimiter and, once the line is idle, turns it around. That a
push leaves `tx_idle` as it was is assumption 7's. -/
def Obligations.StepEncodes : Prop :=
  ∀ s : State, s.state = .encode →
    let moved : Output := { value := .stepped .progress, events := [] }
    let held : Output := { value := .stepped .blocked, events := [] }
    (s.enc.dlen = 0#8 → s.encStage = .encoderStart →
      exec .step s =
        .next { s with
          txEn := true
          enc := { s.enc with txCrc := 0xFFFFFFFF#32, fill := 0#8 }
          encSrc := 0#11
          encStage := .writeDestination
          out := moved }) ∧
    (∀ b, s.enc.dlen = 0#8 → s.encStage = .writeDestination →
      (destBytes s.params.destByteOrder s.dest)[s.encSrc.toNat]? = some b →
      exec .step s =
        .next { s with
          enc := EncSession.feed b { s.enc with txCrc := crcUpdate s.enc.txCrc b }
          encSrc := if s.encSrc = 3#11 then 0#11 else s.encSrc + 1#11
          encStage := if s.encSrc = 3#11 then .writePayload else .writeDestination
          out := moved }) ∧
    (s.enc.dlen = 0#8 → s.encStage = .writePayload → s.encSrc ≠ s.pktLen →
      exec .step s =
        .next { s with
          enc :=
            EncSession.feed (pktRead s s.encSrc.toNat)
              { s.enc with txCrc := crcUpdate s.enc.txCrc (pktRead s s.encSrc.toNat) }
          encSrc := s.encSrc + 1#11
          out := moved }) ∧
    (s.enc.dlen = 0#8 → s.encStage = .writePayload → s.encSrc = s.pktLen →
      exec .step s =
        .next { s with
          enc := { s.enc with crcLat := s.enc.txCrc ^^^ 0xFFFFFFFF#32 }
          encSrc := 0#11
          encStage := .writeCrc
          out := moved }) ∧
    (∀ b, s.enc.dlen = 0#8 → s.encStage = .writeCrc → (le32 s.enc.crcLat)[s.encSrc.toNat]? = some b →
      exec .step s =
        .next { s with
          enc := EncSession.feed b s.enc
          encSrc := if s.encSrc = 3#11 then 0#11 else s.encSrc + 1#11
          encStage := if s.encSrc = 3#11 then .flush else .writeCrc
          out := moved }) ∧
    (s.enc.dlen = 0#8 → s.encStage = .flush → s.encSrc = 0#11 →
      exec .step s =
        .next { s with enc := EncSession.close (s.enc.fill + 1#8) s.enc, encSrc := 1#11, out := moved }) ∧
    (s.enc.dlen = 0#8 → s.encStage = .flush → s.encSrc = 1#11 → s.line.room = 0 →
      exec .step s = .next { s with encStalled := true, out := held }) ∧
    (s.enc.dlen = 0#8 → s.encStage = .flush → s.encSrc = 1#11 → s.line.room ≠ 0 →
      ∃ t, exec .step s = .next t ∧
        t = { s with line := t.line, encStalled := false, encSrc := 2#11, out := moved } ∧
        t.line.txs = s.line.txs ++ [0#8] ∧ t.line.room + 1 = s.line.room ∧ t.line.rxq = s.line.rxq ∧
        t.line.idle = s.line.idle) ∧
    (s.enc.dlen = 0#8 → s.encStage = .flush → s.encSrc = 2#11 → s.line.idle = false →
      exec .step s = .next { s with out := held }) ∧
    (s.enc.dlen = 0#8 → s.encStage = .flush → s.encSrc = 2#11 → s.line.idle = true →
      exec .step s =
        .next { s with
          txEn := false
          rxEn := true
          rx :=
            { s.rx with rem := 0#8, pz := false, crc := 0xFFFFFFFF#32, destCnt := 0#3, bodyCnt := 0#11 }
          encStage := .encoderStart
          encSrc := 0#11
          state := .readDestination
          out := moved })

/-- R44: what sets and clears `rx_en` and `tx_en`, that nothing else moves them (`PUMP`, alone or through
`CMD`, moves them through the micro-steps it is made of), that they are never both 1, and that both are 0
after reset. The premise `s.Inv` is kept by every step. -/
def Obligations.EnableBits : Prop :=
  (State.reset.rxEn = false ∧ State.reset.txEn = false) ∧
  ∀ (i : Instr) (s t : State), s.Inv → exec i s = .next t →
    let begins := s.state = .encode ∧ s.enc.dlen = 0#8 ∧ s.encStage = .encoderStart
    let flushed := s.state = .encode ∧ s.enc.dlen = 0#8 ∧ s.encStage = .flush ∧ s.encSrc = 2#11 ∧ s.line.idle = true
    ¬ (t.rxEn = true ∧ t.txEn = true) ∧
    (i = .step → s.state = .start ∨ flushed → t.rxEn = true ∧ t.txEn = false) ∧
    (i = .step → begins → t.txEn = true) ∧
    (issues i .stopRx 2 → t.rxEn = false) ∧
    (¬ issues i .pump 1 →
      (t.rxEn ≠ s.rxEn → issues i .stopRx 2 ∨ i = .step ∧ (s.state = .start ∨ flushed)) ∧
      (t.txEn ≠ s.txEn → i = .step ∧ (s.state = .start ∨ begins ∨ flushed)))

/-- The frame of `STEP`, in every state (R27 to R31, R39, R42): it completes; the filter, the parameters,
the agenda are unchanged; `DEST` changes only where a destination completes; `PKT_LEN` and `pkt_valid`
only at the end of a frame; a byte of the buffer only in `ReadPayload`, at `body_cnt`; the counters only
in the two states that read a frame; the encode session and the transmitted stream only in `Encode`. -/
def Obligations.StepFrame : Prop :=
  ∀ s : State, ∃ t, exec .step s = .next t ∧
    t.filter = s.filter ∧ t.params = s.params ∧ t.agenda = s.agenda ∧ t.epoch = s.epoch ∧
    (s.state ≠ .readDestination → t.dest = s.dest) ∧
    (s.state ≠ .readPayload → t.pktLen = s.pktLen ∧ t.pktValid = s.pktValid) ∧
    (∀ a, ¬ (s.state = .readPayload ∧ a = s.rx.bodyCnt.toNat) → pktRead t a = pktRead s a) ∧
    (s.state ≠ .readDestination → s.state ≠ .readPayload → t.cnt = s.cnt) ∧
    (s.state ≠ .encode → t.enc = s.enc ∧ t.encStage = s.encStage ∧ t.encSrc = s.encSrc ∧
      t.encStalled = s.encStalled ∧ t.line.txs = s.line.txs) ∧
    (s.state = .encode → t.cnt = s.cnt ∧ t.line.rxq = s.line.rxq) ∧
    (s.state.receiving = true → t.rxEn = s.rxEn ∧ t.txEn = s.txEn)

/-- R12: a micro-step that answers `BLOCKED` changes nothing except possibly setting `enc_stalled`, and
emits no event. -/
def Obligations.BlockedStepChangesNothing : Prop :=
  ∀ s t : State, exec .step s = .next t → t.out.value = .stepped .blocked →
    t = { s with encStalled := t.encStalled, out := { value := .stepped .blocked, events := [] } } ∧
    (s.encStalled = true → t.encStalled = true)

/-! ### Whole-machine rules -/

/-- R250: the transitions of the main state, each with its trigger and its condition, and those of
`enc_stage` within `Encode`, which only moves forward. `PUMP`, alone or through `CMD`, makes the transitions
of `STEP`. The phase of `Flush` needs `s.Inv` (assumption 17). -/
def Obligations.StateTransitions : Prop :=
  ∀ (i : Instr) (s t : State), exec i s = .next t → ¬ issues i .pump 1 →
    (t.state = s.state ∨
      (issues i .stopRx 2 ∧ s.state ≠ .encode ∧ t.state = .stopped) ∨
      (issues i .startRx 3 ∧ s.state = .stopped ∧ t.state = .start) ∨
      (issues i .startTx 4 ∧ s.state = .stopped ∧ 2 ≤ s.pktLen.toNat ∧ s.pktLen.toNat ≤ 1016 ∧
        t.state = .encode ∧ t.encStage = .encoderStart) ∨
      (i = .step ∧
        (s.state = .start ∧ t.state = .readDestination ∨
         s.state = .readDestination ∧ t.state = .skipCurrentPacket ∧ s.rx.destCnt = 3#3 ∧
           (∃ x, s.delivers x ∧ (s.fourthMatches x = false ∨ s.fourthMatches x = true ∧ s.pktValid = true)) ∨
         s.state = .readDestination ∧ t.state = .readPayload ∧ s.rx.destCnt = 3#3 ∧ s.pktValid = false ∧
           (∃ x, s.delivers x ∧ s.fourthMatches x = true) ∨
         s.state = .readPayload ∧ t.state = .skipCurrentPacket ∧ s.rx.bodyCnt.toNat = 1020 ∧ (∃ x, s.delivers x) ∨
         s.state = .readPayload ∧ t.state = .readDestination ∧ s.line.rxq.head? = some 0#8 ∨
         s.state = .skipCurrentPacket ∧ t.state = .readDestination ∧ s.line.rxq.head? = some 0#8 ∨
         s.state = .encode ∧ t.state = .readDestination ∧ s.enc.dlen = 0#8 ∧ s.encStage = .flush ∧
           (s.Inv → s.encSrc = 2#11) ∧ s.line.idle = true))) ∧
    (s.state = .encode → t.state = .encode → t.encStage ≠ s.encStage →
      i = .step ∧ s.enc.dlen = 0#8 ∧
      (s.encStage = .encoderStart ∧ t.encStage = .writeDestination ∨
       s.encStage = .writeDestination ∧ t.encStage = .writePayload ∨
       s.encStage = .writePayload ∧ t.encStage = .writeCrc ∨ s.encStage = .writeCrc ∧ t.encStage = .flush))

/-- R37, R38: the increment under both settings of `CNT_OVERFLOW`; with `saturate`, the default, no
operation but a counter reset lowers a counter. -/
def Obligations.CountersNeverDecrease : Prop :=
  Config.defaultParams.cntOverflow = .saturate ∧
  (∀ c : Word,
    (c ≠ 0xFFFFFFFF#32 → (inc .saturate c).toNat = c.toNat + 1) ∧
    inc .saturate 0xFFFFFFFF#32 = 0xFFFFFFFF#32 ∧
    (inc .wrap c).toNat = (c.toNat + 1) % 2 ^ 32) ∧
  (∀ (i : Instr) (s t : State), s.params.cntOverflow = .saturate → exec i s = .next t → i ≠ .resetPktcnt →
    (∀ n v, i = .busWr 0x40C#12 n v → v.toNat % 256 ≠ 6) →
    s.cnt.good.toNat ≤ t.cnt.good.toNat ∧ s.cnt.malformed.toNat ≤ t.cnt.malformed.toNat ∧
    s.cnt.overrun.toNat ≤ t.cnt.overrun.toNat ∧ s.cnt.badCrc.toNat ≤ t.cnt.badCrc.toNat ∧
    s.cnt.rxInterrupted.toNat ≤ t.cnt.rxInterrupted.toNat)

/-- R31, R224: while a packet is pending, no operation but a bus write touches the buffer, `DEST` or
`PKT_LEN`, whatever has arrived, and only `RELEASE` clears `pkt_valid`. The premise `s.state ≠ .readPayload`
is part of `State.Inv`. -/
def Obligations.HeldPacketIsKept : Prop :=
  ∀ (i : Instr) (s t : State), s.pktValid = true → s.state ≠ .readPayload → exec i s = .next t →
    (isBusWrite i = false →
      (∀ a, pktRead t a = pktRead s a) ∧ t.dest = s.dest ∧ t.pktLen = s.pktLen) ∧
    (i ≠ .release → (∀ n v, i = .busWr 0x40C#12 n v → v.toNat % 256 ≠ 5) → t.pktValid = true)

/-- R42, R8: the filter changes by bus writes alone, and no operation touches the parameters, the rest of
the agenda or the reset count. -/
def Obligations.FilterChangesByBusWritesAlone : Prop :=
  ∀ (i : Instr) (s t : State), exec i s = .next t →
    t.params = s.params ∧ t.agenda = s.agenda ∧ t.epoch = s.epoch ∧
    ((∀ a n v, i = .busWr a n v → a.toNat < 0x440 ∨ 0x488 ≤ a.toNat) → t.filter = s.filter)

/-- R27 to R29, R50: no operation other than `PUMP`, `STEP` and a bus write stores to the packet buffer;
of `BUS_WR`, only the byte its address reaches can change, unless it issues `PUMP`. -/
def Obligations.BufferFrame : Prop :=
  ∀ (i : Instr) (s t : State), exec i s = .next t → i ≠ .pump → i ≠ .step →
    (∀ a n v, i = .busWr a n v → a = 0x40C#12 → v.toNat % 256 ≠ 1) →
    ∀ k, (∀ a n v, i = .busWr a n v → busTarget a n ≠ .buf k) → pktRead t k = pktRead s k

/-- R182: once begun, an encode pass can only go on or finish: no operation but `STEP` and `PUMP` (alone or
through `CMD`) leaves `Encode`, and none goes to `Stopped` or `Start`. -/
def Obligations.EncodePassIsNotAborted : Prop :=
  ∀ (i : Instr) (s t : State), s.state = .encode → exec i s = .next t →
    t.state = .encode ∨
    (t.state.receiving = true ∧
      (i = .step ∨ i = .pump ∨ ∃ n v, i = .busWr 0x40C#12 n v ∧ v.toNat % 256 = 1))

/-- R141, R162: `PUMP` completes in every state; it is a run of `PROGRESS` micro-steps, their events in
order, ended by a blocked one; a `STEP` after it is blocked. -/
def Obligations.PumpRunsStepsUntilBlocked : Prop :=
  ∀ s : State, ∃ evs u t,
    Progresses s evs u ∧ (microStep u).res = .blocked ∧
    t = { (microStep u).after with out := { value := .none, events := evs } } ∧
    exec .pump s = .next t ∧
    exec .step t = .next { t with out := { value := .stepped .blocked, events := [] } }

/-! ### Whole frames -/

/-- R180: an encode pass pushes exactly the frame that `SERIALIZE` returns for `DEST` and the buffer, and
leaves the packet, the flag and the counters as they were.
One `PUMP` with room for the whole frame and an idle line does all of it and turns the line around.
However the pushes are spread, over any `PUMP`s and `STEP`s with any line actions between them, what has been
pushed is a part of that frame from its start; a pass that has left `Encode` has pushed it all; and one that
stalled or waits goes on where it was and ends at the next `PUMP` that finds room for the rest and an idle
line. The premise `s.rxEn = false` is part of `State.Inv` in `Stopped`. That `tx_idle` stays true through the
pushes of one `PUMP` is assumption 7's. -/
def Obligations.EncodePassSendsTheFrame : Prop :=
  ∀ s : State, s.state = .stopped → s.line.rxq = [] → 2 ≤ s.pktLen.toNat → s.pktLen.toNat ≤ 1016 →
    ∃ s' w crc,
      exec .startTx s = .next s' ∧
      exec (.serialize s.dest (pktRead s 0) (pktRead s 1) ((pktBytes s s.pktLen.toNat).drop 2)) s =
        .next { s with out := { value := .frame w crc, events := [] } } ∧
      (1030 ≤ s.line.room → s.line.idle = true →
        ∃ t, exec .pump s' = .next t ∧ t.line.txs = s.line.txs ++ w ∧
          t.state = .readDestination ∧ t.rxEn = true ∧ t.txEn = false ∧ t.rx.isFresh ∧
          t.dest = s.dest ∧ t.pktLen = s.pktLen ∧ t.mem = s.mem ∧ t.pktValid = s.pktValid ∧ t.cnt = s.cnt ∧
          t.out.events = []) ∧
      (s.rxEn = false → ∀ u, EncodeRun s' u →
        u.dest = s.dest ∧ u.pktLen = s.pktLen ∧ u.mem = s.mem ∧ u.pktValid = s.pktValid ∧ u.cnt = s.cnt ∧
        (u.state = .encode →
          ∃ rest, s.line.txs ++ w = u.line.txs ++ rest ∧
            (rest.length ≤ u.line.room → u.line.idle = true →
              ∃ t, exec .pump u = .next t ∧ t.state = .readDestination ∧ t.line.txs = s.line.txs ++ w)) ∧
        (u.state ≠ .encode →
          u.line.txs = s.line.txs ++ w ∧ u.state = .readDestination ∧ u.rxEn = true ∧ u.txEn = false ∧
          u.rx.isFresh))

/-- R146 to R148, R163 (b), R206: a frame that is too short to have a destination, does not match, or
matches while a packet is pending leaves the packet alone and emits nothing; only the cut block and the
overrun are counted. -/
def Obligations.FrameNotTaken : Prop :=
  ∀ (s : State) (w : List Byte), s.state = .readDestination → s.rx.isFresh → 0#8 ∉ w →
    s.line.rxq = w ++ [0#8] →
    let raw := (streamDecode 0#8 false w).1
    let dest := destOfBytes s.params.destByteOrder (raw.getD 0 0#8) (raw.getD 1 0#8) (raw.getD 2 0#8) (raw.getD 3 0#8)
    raw.length < 4 ∨ matchDest s.params s.filter dest = false ∨ s.pktValid = true →
    ∃ t, exec .pump s = .next t ∧
      t.state = .readDestination ∧ t.rx.isFresh ∧ t.line.rxq = [] ∧ t.out.events = [] ∧
      t.dest = s.dest ∧ t.pktLen = s.pktLen ∧ t.mem = s.mem ∧ t.pktValid = s.pktValid ∧
      (raw.length < 4 → (streamDecode 0#8 false w).2.1 = 0#8 → t.cnt = s.cnt) ∧
      (raw.length < 4 → (streamDecode 0#8 false w).2.1 ≠ 0#8 →
        t.cnt = { s.cnt with malformed := inc s.params.cntOverflow s.cnt.malformed }) ∧
      (4 ≤ raw.length → matchDest s.params s.filter dest = false → t.cnt = s.cnt) ∧
      (4 ≤ raw.length → matchDest s.params s.filter dest = true →
        t.cnt = { s.cnt with overrun := inc s.params.cntOverflow s.cnt.overrun })

/-- R152 to R154, R157, R206: a matching frame that `DESERIALIZE` rejects is counted once, as malformed or
as a bad checksum, and no packet is marked. -/
def Obligations.FrameRejected : Prop :=
  ∀ (s : State) (w : List Byte) (e : CoreError), s.state = .readDestination → s.rx.isFresh → s.pktValid = false →
    0#8 ∉ w → s.line.rxq = w ++ [0#8] →
    let raw := (streamDecode 0#8 false w).1
    let dest := destOfBytes s.params.destByteOrder (raw.getD 0 0#8) (raw.getD 1 0#8) (raw.getD 2 0#8) (raw.getD 3 0#8)
    4 ≤ raw.length → matchDest s.params s.filter dest = true →
    exec (.deserialize w) s = .next { s with out := { value := .error e, events := [] } } →
    ∃ t, exec .pump s = .next t ∧
      t.state = .readDestination ∧ t.rx.isFresh ∧ t.line.rxq = [] ∧ t.out.events = [] ∧
      t.pktValid = false ∧ t.pktLen = s.pktLen ∧
      (e = .malformed → t.cnt = { s.cnt with malformed := inc s.params.cntOverflow s.cnt.malformed }) ∧
      (e ≠ .malformed → t.cnt = { s.cnt with badCrc := inc s.params.cntOverflow s.cnt.badCrc })

/-- R155, R206: a frame that `DESERIALIZE` takes apart into a packet for this node is received: one
`EV_RX`, `good` counted, the packet in `DEST`, `PKT_LEN` and the buffer, the trailer behind it. -/
def Obligations.FrameAccepted : Prop :=
  ∀ (s : State) (w : List Byte) (p : Packet), s.state = .readDestination → s.rx.isFresh → s.pktValid = false →
    s.line.rxq = w ++ [0#8] →
    exec (.deserialize w) s = .next { s with out := { value := .packet p, events := [] } } →
    matchDest s.params s.filter p.dest = true →
    ∃ t, exec .pump s = .next t ∧
      t.state = .readDestination ∧ t.rx.isFresh ∧ t.line.rxq = [] ∧ t.out.events = [.evRx] ∧
      t.pktValid = true ∧ t.dest = p.dest ∧ t.pktLen.toNat = p.payload.length + 2 ∧
      pktBytes t (p.payload.length + 6) = [p.cmd, p.idx] ++ p.payload ++ le32 p.crc ∧
      (∀ a, p.payload.length + 6 ≤ a → pktRead t a = pktRead s a) ∧
      t.cnt = { s.cnt with good := inc s.params.cntOverflow s.cnt.good }

/-- R163 (a): two packets for this node back to back, with no `RELEASE` between: one `EV_RX`, one overrun,
and the first packet in memory. -/
def Obligations.BackToBackFramesOverrun : Prop :=
  ∀ (s : State) (d₁ d₂ : Word) (c₁ i₁ c₂ i₂ : Byte) (p₁ p₂ w₁ w₂ : List Byte),
    s.state = .readDestination → s.rx.isFresh → s.pktValid = false →
    p₁.length ≤ 1014 → p₂.length ≤ 1014 →
    matchDest s.params s.filter d₁ = true → matchDest s.params s.filter d₂ = true →
    w₁ = (serialize s.params.destByteOrder d₁ c₁ i₁ p₁).1 → w₂ = (serialize s.params.destByteOrder d₂ c₂ i₂ p₂).1 →
    s.line.rxq = w₁ ++ w₂ →
    ∃ t, exec .pump s = .next t ∧ t.out.events = [.evRx] ∧ t.pktValid = true ∧ t.dest = d₁ ∧
      t.pktLen.toNat = p₁.length + 2 ∧ pktBytes t (p₁.length + 2) = [c₁, i₁] ++ p₁ ∧
      t.cnt = { s.cnt with
        good := inc s.params.cntOverflow s.cnt.good, overrun := inc s.params.cntOverflow s.cnt.overrun }

/-- R141, R163 (c): what the engine makes of received bytes does not depend on how they are spread over
pumps: pumping a first part and then the rest gives the state, and the events, of pumping all at once. -/
def Obligations.PumpIgnoresArrivalGrouping : Prop :=
  ∀ (s : State) (x y : List Byte), s.state.receiving = true → s.rxEn = true → s.params.rxqDepth = none →
    s.line.rxq = [] →
    ∃ a b c,
      exec .pump (lineAct (.receive x) s) = .next a ∧
      exec .pump (lineAct (.receive y) a) = .next b ∧
      exec .pump (lineAct (.receive (x ++ y)) s) = .next c ∧
      c = { b with out := { value := .none, events := a.out.events ++ b.out.events } }
end

