-- ==== Sys2Proof/Laws/Codec.lean ====
section
/-! SUPPORT. What the shared operations of the codec, the sink and the micro-step can do, said once, so
that proofs cite it and do not unfold them. -/

namespace Sys2Proof.Machine

/-! ### The streaming decoder (R105, R106) -/

theorem decByte_code (pz : Bool) (b : Byte) :
    decByte 0#8 pz b =
      { rem := b - 1#8, pz := decide (b.toNat < 255), out := if pz then some 0#8 else none } := rfl

theorem decByte_literal {rem : Byte} (pz : Bool) (b : Byte) (h : rem ≠ 0#8) :
    decByte rem pz b = { rem := rem - 1#8, pz := pz, out := some b } := by
  simp [decByte, h]

/-- On the operands of R105 `DEC_BYTE` is `decByte`. -/
theorem decByteAny_inRange {rem b : Byte} (pz : Bool) (hr : rem ≠ 255#8) (hb : b ≠ 0#8) :
    decByteAny rem pz b = decByte rem pz b := by
  simp [decByteAny, hr, hb]

/-- Whatever its operands, `DEC_BYTE` answers a session in R32's range. -/
theorem decByteAny_rem_le (rem : Byte) (pz : Bool) (b : Byte) : (decByteAny rem pz b).rem.toNat ≤ 254 := by
  unfold decByteAny
  split
  · have := (Config.decRemOutside rem pz b).isLt
    simp only [BitVec.toNat_ofNat]
    omega
  · unfold decByte
    split <;> simp only <;> bv_omega

@[simp] theorem decEnd_eq_true (rem : Byte) : decEnd rem = true ↔ rem = 0#8 := by
  simp [decEnd]

theorem streamDecode_nil (rem : Byte) (pz : Bool) : streamDecode rem pz [] = ([], rem, pz) := rfl

theorem streamDecode_cons (rem : Byte) (pz : Bool) (b : Byte) (w : List Byte) :
    streamDecode rem pz (b :: w) =
      ((decByte rem pz b).out.toList ++ (streamDecode (decByte rem pz b).rem (decByte rem pz b).pz w).1,
        (streamDecode (decByte rem pz b).rem (decByte rem pz b).pz w).2) := rfl

/-- The streaming decoder over a sequence cut in two. -/
theorem streamDecode_append (u v : List Byte) (rem : Byte) (pz : Bool) :
    streamDecode rem pz (u ++ v) =
      ((streamDecode rem pz u).1 ++
          (streamDecode (streamDecode rem pz u).2.1 (streamDecode rem pz u).2.2 v).1,
        (streamDecode (streamDecode rem pz u).2.1 (streamDecode rem pz u).2.2 v).2) := by
  induction u generalizing rem pz with
  | nil => rfl
  | cons b u ih => simp [streamDecode_cons, ih]

/-- `COBS_DECODE` inside a block: the literals are data. -/
theorem cobsDecodeFrom_literals (l w : List Byte) (rem : Byte) (pz : Bool) (h0 : 0#8 ∉ l)
    (hr : l.length ≤ rem.toNat) :
    cobsDecodeFrom rem pz (l ++ w) =
      (cobsDecodeFrom (rem - BitVec.ofNat 8 l.length) pz w).map (l ++ ·) := by
  induction l generalizing rem with
  | nil => simp
  | cons b l ih =>
    have hb : ¬ b = 0#8 := fun h => h0 (h ▸ List.mem_cons_self)
    have hrem : rem ≠ 0#8 := by
      rintro rfl
      simp at hr
    have hlt := rem.isLt
    simp only [List.length_cons] at hr
    have hl : l.length ≤ (rem - 1#8).toNat := by bv_omega
    have hsub : rem - 1#8 - BitVec.ofNat 8 l.length = rem - BitVec.ofNat 8 (l.length + 1) := by
      apply BitVec.eq_of_toNat_eq
      simp only [BitVec.toNat_sub, BitVec.toNat_ofNat]
      omega
    simp only [List.cons_append, cobsDecodeFrom, hb, if_false, decByte_literal pz b hrem, List.length_cons]
    rw [ih (rem - 1#8) (fun h => h0 (List.mem_cons_of_mem _ h)) hl, hsub]
    simp [Option.map_map, Function.comp_def]

/-- `COBS_DECODE` takes a full block without an implied zero. -/
theorem cobsDecode_full (l w : List Byte) (h0 : 0#8 ∉ l) (h : l.length = 254) :
    cobsDecode (255#8 :: (l ++ w)) = (cobsDecode w).map (l ++ ·) := by
  have h1 := cobsDecodeFrom_literals l w 254#8 false h0 (by rw [h]; decide)
  rw [h] at h1
  simpa [cobsDecode, cobsDecodeFrom, decByte] using h1

/-! ### The residue test (R125) -/

theorem crcVerify_iff (c : Word) : crcVerify c = true ↔ c = 0xDEBB20E3#32 := by
  unfold crcVerify crcFinal
  rw [beq_iff_eq]
  constructor
  · intro h
    have hc : c = (c ^^^ Config.crcXorOut) ^^^ Config.crcXorOut := by simp
    rw [hc, h]
    decide
  · rintro rfl
    decide

/-! ### The streaming encoder (R108, R109, R172) -/

/-- What `ENC_FEED` does: a literal joins the block, the 254th closes it, a zero closes it. -/
theorem EncSession.feed_cases (b : Byte) (e : EncSession) :
    (b ≠ 0#8 ∧ e.fill + 1#8 ≠ 254#8 ∧ e.feed b = e.literal b) ∨
    (b ≠ 0#8 ∧ e.fill + 1#8 = 254#8 ∧ e.feed b = (e.literal b).close 255#8) ∨
    (b = 0#8 ∧ e.feed b = e.close (e.fill + 1#8)) := by
  unfold EncSession.feed
  split
  · split
    · exact .inr (.inl ⟨‹_›, ‹_›, rfl⟩)
    · exact .inl ⟨‹_›, ‹_›, rfl⟩
  · exact .inr (.inr ⟨not_not.1 ‹_›, rfl⟩)

@[simp] theorem EncSession.feed_txCrc (b : Byte) (e : EncSession) : (e.feed b).txCrc = e.txCrc := by
  obtain ⟨_, _, h⟩ | ⟨_, _, h⟩ | ⟨_, h⟩ := e.feed_cases b <;> rw [h] <;> rfl

@[simp] theorem EncSession.feed_crcLat (b : Byte) (e : EncSession) : (e.feed b).crcLat = e.crcLat := by
  obtain ⟨_, _, h⟩ | ⟨_, _, h⟩ | ⟨_, h⟩ := e.feed_cases b <;> rw [h] <;> rfl

/-! ### The sink (R57) -/

/-- A push appends the byte to `TXS` and leaves `RXQ` and `tx_idle`. -/
theorem Line.push_txs (b : Byte) (l : Line) :
    (l.push b).txs = l.txs ++ [b] ∧ (l.push b).rxq = l.rxq ∧ (l.push b).idle = l.idle ∧
    (l.push b).room = l.room - 1 := by
  unfold Line.push Line.txs
  split <;> simp_all

/-! ### STEP as an operation (R140) -/

/-- `STEP` completes in every state, with the result and the event of the micro-step. -/
theorem exec_step (s : State) :
    exec .step s =
      .next (answer (.stepped (microStep s).res) (microStep s).event.toList (microStep s).after) := rfl

/-- `PUMP` completes in every state. -/
theorem exec_pump (s : State) : exec .pump s = .next (answer .none (pump s).2 (pump s).1) := rfl

/-- What an operation that completes through `ownedWrite` did. -/
theorem ownedWrite_cases (f : State → State) (s : State) :
    (s.state ≠ .stopped ∧ ownedWrite f s = .refused .busWriteNotOwned) ∨
    (s.state = .stopped ∧ ownedWrite f s = .next (answer .none [] (f s))) := by
  unfold ownedWrite
  split
  · exact .inl ⟨‹_›, rfl⟩
  · exact .inr ⟨not_not.1 ‹_›, rfl⟩

/-- A bus access reaches the buffer only below 0x3FC, with width 1. -/
theorem busTarget_buf {a : Addr} {n k : Nat} (h : busTarget a n = .buf k) : k = a.toNat ∧ n = 1 ∧ k ≤ 0x3FB := by
  unfold busTarget at h
  dsimp only at h
  split at h
  · split at h
    · cases h
      exact ⟨rfl, ‹_›, ‹_›⟩
    · cases h
  · split at h
    · cases h
    · split at h <;> cases h

end Sys2Proof.Machine
end

