-- ==== Sys2Proof/Laws/State.lean ====
section
/-! SUPPORT. One lemma per field per named update of the state, each true by computation, so that no
proof unfolds a record update. -/

namespace Sys2Proof.Machine

/-! ### `answer` -/

@[simp] theorem answer_state (v : Value) (evs : List Event) (s : State) : (answer v evs s).state = s.state := rfl
@[simp] theorem answer_encStage (v : Value) (evs : List Event) (s : State) : (answer v evs s).encStage = s.encStage := rfl
@[simp] theorem answer_encStalled (v : Value) (evs : List Event) (s : State) : (answer v evs s).encStalled = s.encStalled := rfl
@[simp] theorem answer_encSrc (v : Value) (evs : List Event) (s : State) : (answer v evs s).encSrc = s.encSrc := rfl
@[simp] theorem answer_dest (v : Value) (evs : List Event) (s : State) : (answer v evs s).dest = s.dest := rfl
@[simp] theorem answer_pktLen (v : Value) (evs : List Event) (s : State) : (answer v evs s).pktLen = s.pktLen := rfl
@[simp] theorem answer_mem (v : Value) (evs : List Event) (s : State) : (answer v evs s).mem = s.mem := rfl
@[simp] theorem answer_pktValid (v : Value) (evs : List Event) (s : State) : (answer v evs s).pktValid = s.pktValid := rfl
@[simp] theorem answer_rx (v : Value) (evs : List Event) (s : State) : (answer v evs s).rx = s.rx := rfl
@[simp] theorem answer_enc (v : Value) (evs : List Event) (s : State) : (answer v evs s).enc = s.enc := rfl
@[simp] theorem answer_cnt (v : Value) (evs : List Event) (s : State) : (answer v evs s).cnt = s.cnt := rfl
@[simp] theorem answer_filter (v : Value) (evs : List Event) (s : State) : (answer v evs s).filter = s.filter := rfl
@[simp] theorem answer_rxEn (v : Value) (evs : List Event) (s : State) : (answer v evs s).rxEn = s.rxEn := rfl
@[simp] theorem answer_txEn (v : Value) (evs : List Event) (s : State) : (answer v evs s).txEn = s.txEn := rfl
@[simp] theorem answer_line (v : Value) (evs : List Event) (s : State) : (answer v evs s).line = s.line := rfl
@[simp] theorem answer_out (v : Value) (evs : List Event) (s : State) : (answer v evs s).out = { value := v, events := evs } := rfl
@[simp] theorem answer_agenda (v : Value) (evs : List Event) (s : State) : (answer v evs s).agenda = s.agenda := rfl
@[simp] theorem answer_params (v : Value) (evs : List Event) (s : State) : (answer v evs s).params = s.params := rfl
@[simp] theorem answer_epoch (v : Value) (evs : List Event) (s : State) : (answer v evs s).epoch = s.epoch := rfl

/-! ### `pktWrite` -/

@[simp] theorem pktWrite_state (a : Nat) (b : Byte) (s : State) : (pktWrite a b s).state = s.state := rfl
@[simp] theorem pktWrite_encStage (a : Nat) (b : Byte) (s : State) : (pktWrite a b s).encStage = s.encStage := rfl
@[simp] theorem pktWrite_encStalled (a : Nat) (b : Byte) (s : State) : (pktWrite a b s).encStalled = s.encStalled := rfl
@[simp] theorem pktWrite_encSrc (a : Nat) (b : Byte) (s : State) : (pktWrite a b s).encSrc = s.encSrc := rfl
@[simp] theorem pktWrite_dest (a : Nat) (b : Byte) (s : State) : (pktWrite a b s).dest = s.dest := rfl
@[simp] theorem pktWrite_pktLen (a : Nat) (b : Byte) (s : State) : (pktWrite a b s).pktLen = s.pktLen := rfl
@[simp] theorem pktWrite_mem (a : Nat) (b : Byte) (s : State) : (pktWrite a b s).mem = Memory.write s.mem a b := rfl
@[simp] theorem pktWrite_pktValid (a : Nat) (b : Byte) (s : State) : (pktWrite a b s).pktValid = s.pktValid := rfl
@[simp] theorem pktWrite_rx (a : Nat) (b : Byte) (s : State) : (pktWrite a b s).rx = s.rx := rfl
@[simp] theorem pktWrite_enc (a : Nat) (b : Byte) (s : State) : (pktWrite a b s).enc = s.enc := rfl
@[simp] theorem pktWrite_cnt (a : Nat) (b : Byte) (s : State) : (pktWrite a b s).cnt = s.cnt := rfl
@[simp] theorem pktWrite_filter (a : Nat) (b : Byte) (s : State) : (pktWrite a b s).filter = s.filter := rfl
@[simp] theorem pktWrite_rxEn (a : Nat) (b : Byte) (s : State) : (pktWrite a b s).rxEn = s.rxEn := rfl
@[simp] theorem pktWrite_txEn (a : Nat) (b : Byte) (s : State) : (pktWrite a b s).txEn = s.txEn := rfl
@[simp] theorem pktWrite_line (a : Nat) (b : Byte) (s : State) : (pktWrite a b s).line = s.line := rfl
@[simp] theorem pktWrite_out (a : Nat) (b : Byte) (s : State) : (pktWrite a b s).out = s.out := rfl
@[simp] theorem pktWrite_agenda (a : Nat) (b : Byte) (s : State) : (pktWrite a b s).agenda = s.agenda := rfl
@[simp] theorem pktWrite_params (a : Nat) (b : Byte) (s : State) : (pktWrite a b s).params = s.params := rfl
@[simp] theorem pktWrite_epoch (a : Nat) (b : Byte) (s : State) : (pktWrite a b s).epoch = s.epoch := rfl

/-! ### `rxSessionReset` -/

@[simp] theorem rxSessionReset_state (s : State) : (rxSessionReset s).state = s.state := rfl
@[simp] theorem rxSessionReset_encStage (s : State) : (rxSessionReset s).encStage = s.encStage := rfl
@[simp] theorem rxSessionReset_encStalled (s : State) : (rxSessionReset s).encStalled = s.encStalled := rfl
@[simp] theorem rxSessionReset_encSrc (s : State) : (rxSessionReset s).encSrc = s.encSrc := rfl
@[simp] theorem rxSessionReset_dest (s : State) : (rxSessionReset s).dest = s.dest := rfl
@[simp] theorem rxSessionReset_pktLen (s : State) : (rxSessionReset s).pktLen = s.pktLen := rfl
@[simp] theorem rxSessionReset_mem (s : State) : (rxSessionReset s).mem = s.mem := rfl
@[simp] theorem rxSessionReset_pktValid (s : State) : (rxSessionReset s).pktValid = s.pktValid := rfl
@[simp] theorem rxSessionReset_rx (s : State) : (rxSessionReset s).rx = s.rx.fresh := rfl
@[simp] theorem rxSessionReset_enc (s : State) : (rxSessionReset s).enc = s.enc := rfl
@[simp] theorem rxSessionReset_cnt (s : State) : (rxSessionReset s).cnt = s.cnt := rfl
@[simp] theorem rxSessionReset_filter (s : State) : (rxSessionReset s).filter = s.filter := rfl
@[simp] theorem rxSessionReset_rxEn (s : State) : (rxSessionReset s).rxEn = s.rxEn := rfl
@[simp] theorem rxSessionReset_txEn (s : State) : (rxSessionReset s).txEn = s.txEn := rfl
@[simp] theorem rxSessionReset_line (s : State) : (rxSessionReset s).line = s.line := rfl
@[simp] theorem rxSessionReset_out (s : State) : (rxSessionReset s).out = s.out := rfl
@[simp] theorem rxSessionReset_agenda (s : State) : (rxSessionReset s).agenda = s.agenda := rfl
@[simp] theorem rxSessionReset_params (s : State) : (rxSessionReset s).params = s.params := rfl
@[simp] theorem rxSessionReset_epoch (s : State) : (rxSessionReset s).epoch = s.epoch := rfl

/-! ### `toReadDestination` -/

@[simp] theorem toReadDestination_state (s : State) : (toReadDestination s).state = .readDestination := rfl
@[simp] theorem toReadDestination_encStage (s : State) : (toReadDestination s).encStage = s.encStage := rfl
@[simp] theorem toReadDestination_encStalled (s : State) : (toReadDestination s).encStalled = s.encStalled := rfl
@[simp] theorem toReadDestination_encSrc (s : State) : (toReadDestination s).encSrc = s.encSrc := rfl
@[simp] theorem toReadDestination_dest (s : State) : (toReadDestination s).dest = s.dest := rfl
@[simp] theorem toReadDestination_pktLen (s : State) : (toReadDestination s).pktLen = s.pktLen := rfl
@[simp] theorem toReadDestination_mem (s : State) : (toReadDestination s).mem = s.mem := rfl
@[simp] theorem toReadDestination_pktValid (s : State) : (toReadDestination s).pktValid = s.pktValid := rfl
@[simp] theorem toReadDestination_rx (s : State) : (toReadDestination s).rx = s.rx.fresh := rfl
@[simp] theorem toReadDestination_enc (s : State) : (toReadDestination s).enc = s.enc := rfl
@[simp] theorem toReadDestination_cnt (s : State) : (toReadDestination s).cnt = s.cnt := rfl
@[simp] theorem toReadDestination_filter (s : State) : (toReadDestination s).filter = s.filter := rfl
@[simp] theorem toReadDestination_rxEn (s : State) : (toReadDestination s).rxEn = s.rxEn := rfl
@[simp] theorem toReadDestination_txEn (s : State) : (toReadDestination s).txEn = s.txEn := rfl
@[simp] theorem toReadDestination_line (s : State) : (toReadDestination s).line = s.line := rfl
@[simp] theorem toReadDestination_out (s : State) : (toReadDestination s).out = s.out := rfl
@[simp] theorem toReadDestination_agenda (s : State) : (toReadDestination s).agenda = s.agenda := rfl
@[simp] theorem toReadDestination_params (s : State) : (toReadDestination s).params = s.params := rfl
@[simp] theorem toReadDestination_epoch (s : State) : (toReadDestination s).epoch = s.epoch := rfl

/-! ### `txPush` -/

@[simp] theorem txPush_state (b : Byte) (s : State) : (txPush b s).state = s.state := rfl
@[simp] theorem txPush_encStage (b : Byte) (s : State) : (txPush b s).encStage = s.encStage := rfl
@[simp] theorem txPush_encStalled (b : Byte) (s : State) : (txPush b s).encStalled = s.encStalled := rfl
@[simp] theorem txPush_encSrc (b : Byte) (s : State) : (txPush b s).encSrc = s.encSrc := rfl
@[simp] theorem txPush_dest (b : Byte) (s : State) : (txPush b s).dest = s.dest := rfl
@[simp] theorem txPush_pktLen (b : Byte) (s : State) : (txPush b s).pktLen = s.pktLen := rfl
@[simp] theorem txPush_mem (b : Byte) (s : State) : (txPush b s).mem = s.mem := rfl
@[simp] theorem txPush_pktValid (b : Byte) (s : State) : (txPush b s).pktValid = s.pktValid := rfl
@[simp] theorem txPush_rx (b : Byte) (s : State) : (txPush b s).rx = s.rx := rfl
@[simp] theorem txPush_enc (b : Byte) (s : State) : (txPush b s).enc = s.enc := rfl
@[simp] theorem txPush_cnt (b : Byte) (s : State) : (txPush b s).cnt = s.cnt := rfl
@[simp] theorem txPush_filter (b : Byte) (s : State) : (txPush b s).filter = s.filter := rfl
@[simp] theorem txPush_rxEn (b : Byte) (s : State) : (txPush b s).rxEn = s.rxEn := rfl
@[simp] theorem txPush_txEn (b : Byte) (s : State) : (txPush b s).txEn = s.txEn := rfl
@[simp] theorem txPush_line (b : Byte) (s : State) : (txPush b s).line = s.line.push b := rfl
@[simp] theorem txPush_out (b : Byte) (s : State) : (txPush b s).out = s.out := rfl
@[simp] theorem txPush_agenda (b : Byte) (s : State) : (txPush b s).agenda = s.agenda := rfl
@[simp] theorem txPush_params (b : Byte) (s : State) : (txPush b s).params = s.params := rfl
@[simp] theorem txPush_epoch (b : Byte) (s : State) : (txPush b s).epoch = s.epoch := rfl

/-! ### `raise` -/

@[simp] theorem raise_state (e : CoreError) (next : EngineState) (s : State) :
    (raise e next s).state = next := by
  cases next <;> rfl
@[simp] theorem raise_encStage (e : CoreError) (next : EngineState) (s : State) :
    (raise e next s).encStage = s.encStage := by
  cases next <;> rfl
@[simp] theorem raise_encStalled (e : CoreError) (next : EngineState) (s : State) :
    (raise e next s).encStalled = s.encStalled := by
  cases next <;> rfl
@[simp] theorem raise_encSrc (e : CoreError) (next : EngineState) (s : State) :
    (raise e next s).encSrc = s.encSrc := by
  cases next <;> rfl
@[simp] theorem raise_dest (e : CoreError) (next : EngineState) (s : State) :
    (raise e next s).dest = s.dest := by
  cases next <;> rfl
@[simp] theorem raise_pktLen (e : CoreError) (next : EngineState) (s : State) :
    (raise e next s).pktLen = s.pktLen := by
  cases next <;> rfl
@[simp] theorem raise_mem (e : CoreError) (next : EngineState) (s : State) :
    (raise e next s).mem = s.mem := by
  cases next <;> rfl
@[simp] theorem raise_pktValid (e : CoreError) (next : EngineState) (s : State) :
    (raise e next s).pktValid = s.pktValid := by
  cases next <;> rfl
@[simp] theorem raise_rx (e : CoreError) (next : EngineState) (s : State) :
    (raise e next s).rx = if next = .readDestination then s.rx.fresh else s.rx := by
  cases next <;> rfl
@[simp] theorem raise_enc (e : CoreError) (next : EngineState) (s : State) :
    (raise e next s).enc = s.enc := by
  cases next <;> rfl
@[simp] theorem raise_cnt (e : CoreError) (next : EngineState) (s : State) :
    (raise e next s).cnt = s.cnt.incError s.params.cntOverflow e := by
  cases next <;> rfl
@[simp] theorem raise_filter (e : CoreError) (next : EngineState) (s : State) :
    (raise e next s).filter = s.filter := by
  cases next <;> rfl
@[simp] theorem raise_rxEn (e : CoreError) (next : EngineState) (s : State) :
    (raise e next s).rxEn = s.rxEn := by
  cases next <;> rfl
@[simp] theorem raise_txEn (e : CoreError) (next : EngineState) (s : State) :
    (raise e next s).txEn = s.txEn := by
  cases next <;> rfl
@[simp] theorem raise_line (e : CoreError) (next : EngineState) (s : State) :
    (raise e next s).line = s.line := by
  cases next <;> rfl
@[simp] theorem raise_out (e : CoreError) (next : EngineState) (s : State) :
    (raise e next s).out = s.out := by
  cases next <;> rfl
@[simp] theorem raise_agenda (e : CoreError) (next : EngineState) (s : State) :
    (raise e next s).agenda = s.agenda := by
  cases next <;> rfl
@[simp] theorem raise_params (e : CoreError) (next : EngineState) (s : State) :
    (raise e next s).params = s.params := by
  cases next <;> rfl
@[simp] theorem raise_epoch (e : CoreError) (next : EngineState) (s : State) :
    (raise e next s).epoch = s.epoch := by
  cases next <;> rfl

end Sys2Proof.Machine
end

