-- ==== Sys2Proof/Laws/Memory.lean ====
section
/-! SUPPORT. The packet buffer as a memory: a read after a write, and the canonical form every
operation keeps. -/

namespace Sys2Proof.Machine

theorem Memory.read_write_same (m : Memory) (a : Nat) (b : Byte) :
    Memory.read (Memory.write m a b) a = some b := by
  induction m with
  | nil => simp [Memory.write, Memory.read]
  | cons c m ih =>
    obtain ⟨k, v⟩ := c
    simp only [Memory.write]
    split
    · simp [Memory.read]
    · split
      · simp [Memory.read]
      · rename_i h
        simp [Memory.read, h, ih]

theorem Memory.read_write_other (m : Memory) {a a' : Nat} (b : Byte) (h : a' ≠ a) :
    Memory.read (Memory.write m a b) a' = Memory.read m a' := by
  induction m with
  | nil => simp [Memory.write, Memory.read, h]
  | cons c m ih =>
    obtain ⟨k, v⟩ := c
    simp only [Memory.write]
    split
    · simp [Memory.read, h]
    · split
      · rename_i hk
        simp [Memory.read, h, ← hk]
      · simp [Memory.read, ih]

/-- An entry of the written memory is the new byte or an old entry. -/
theorem Memory.mem_write {m : Memory} {a : Nat} {b : Byte} {x : Host.Cell}
    (h : x ∈ Memory.write m a b) : x = (a, b) ∨ x ∈ m := by
  induction m with
  | nil => simpa [Memory.write] using h
  | cons c m ih =>
    obtain ⟨k, v⟩ := c
    simp only [Memory.write] at h
    split at h
    · simpa using h
    · split at h
      · rcases List.mem_cons.1 h with h | h
        · exact .inl h
        · exact .inr (List.mem_cons_of_mem _ h)
      · rcases List.mem_cons.1 h with h | h
        · exact .inr (h ▸ List.mem_cons_self)
        · exact (ih h).imp id (List.mem_cons_of_mem _)

/-- A write inside the buffer keeps the canonical form. -/
theorem Memory.write_wf {m : Memory} {a : Nat} (b : Byte) (hm : Memory.wf m) (ha : a < Config.pktBufCap) :
    Memory.wf (Memory.write m a b) := by
  refine ⟨?_, fun x hx => ?_⟩
  · have hp := hm.1
    clear hm
    induction m with
    | nil => simp [Memory.write]
    | cons c m ih =>
      obtain ⟨k, v⟩ := c
      obtain ⟨hk, hp'⟩ := List.pairwise_cons.1 hp
      simp only [Memory.write]
      split
      · rename_i hak
        refine List.pairwise_cons.2 ⟨fun x hx => ?_, hp⟩
        rcases List.mem_cons.1 hx with rfl | hx
        · exact hak
        · exact lt_trans hak (hk x hx)
      · split
        · rename_i hak
          subst hak
          exact List.pairwise_cons.2 ⟨hk, hp'⟩
        · rename_i h1 h2
          refine List.pairwise_cons.2 ⟨fun x hx => ?_, ih hp'⟩
          rcases Memory.mem_write hx with rfl | hx
          · show k < a
            omega
          · exact hk x hx
  · rcases Memory.mem_write hx with rfl | hx
    · exact ha
    · exact hm.2 x hx

theorem Memory.wf_nil : Memory.wf [] :=
  ⟨List.Pairwise.nil, by simp⟩

theorem pktRead_pktWrite_same (s : State) (a : Nat) (b : Byte) : pktRead (pktWrite a b s) a = b := by
  simp [pktRead, Memory.read_write_same]

theorem pktRead_pktWrite_other (s : State) {a a' : Nat} (b : Byte) (h : a' ≠ a) :
    pktRead (pktWrite a b s) a' = pktRead s a' := by
  simp [pktRead, Memory.read_write_other _ _ h]

/-- A read depends on the memory and the epoch alone. -/
theorem pktRead_congr {s t : State} (hm : t.mem = s.mem) (he : t.epoch = s.epoch) (a : Nat) :
    pktRead t a = pktRead s a := by
  simp [pktRead, hm, he]

end Sys2Proof.Machine
end

