-- ==== Sys2Proof/Laws/Engine.lean ====
section
/-! SUPPORT. What a micro-step can do, said once: its two building blocks, its frame, the work it uses
up; and what the loop of `PUMP` therefore does. -/

namespace Sys2Proof.Machine

/-! ### Building blocks -/

/-- A receive micro-step is blocked on an empty queue, or runs on the oldest byte. -/
theorem withRxByte_cases (f : Byte → State → StepOut) (s : State) :
    (s.line.rxq = [] ∧ withRxByte f s = blocked s) ∨
    ∃ b q, s.line.rxq = b :: q ∧ withRxByte f s = f b { s with line := { s.line with rxq := q } } := by
  unfold withRxByte
  split
  · exact .inl ⟨‹_›, rfl⟩
  · exact .inr ⟨_, _, ‹_›, rfl⟩

/-- A push stalls without room, or pushes. -/
theorem pushOrStall_cases (b : Byte) (f : State → State) (s : State) :
    (s.line.room = 0 ∧ pushOrStall b f s = blocked { s with encStalled := true }) ∨
    (s.line.room ≠ 0 ∧ pushOrStall b f s = progress (f { txPush b s with encStalled := false })) := by
  unfold pushOrStall txRoom
  split
  · exact .inl ⟨‹_›, rfl⟩
  · exact .inr ⟨‹_›, rfl⟩

@[simp] theorem progress_res (s : State) : (progress s).res = .progress := rfl
@[simp] theorem progress_event (s : State) : (progress s).event = none := rfl
@[simp] theorem progress_after (s : State) : (progress s).after = s := rfl
@[simp] theorem blocked_res (s : State) : (blocked s).res = .blocked := rfl
@[simp] theorem blocked_event (s : State) : (blocked s).event = none := rfl
@[simp] theorem blocked_after (s : State) : (blocked s).after = s := rfl

/-! ### The frame of a micro-step -/

/-- What no micro-step touches: the filter, the parameters, the agenda, the reset count, the outputs. -/
structure KeepsHost (s t : State) : Prop where
  filter : t.filter = s.filter
  params : t.params = s.params
  agenda : t.agenda = s.agenda
  epoch : t.epoch = s.epoch
  out : t.out = s.out

theorem KeepsHost.refl (s : State) : KeepsHost s s := ⟨rfl, rfl, rfl, rfl, rfl⟩

theorem KeepsHost.trans {s t u : State} (h : KeepsHost s t) (k : KeepsHost t u) : KeepsHost s u :=
  ⟨k.filter.trans h.filter, k.params.trans h.params, k.agenda.trans h.agenda, k.epoch.trans h.epoch,
    k.out.trans h.out⟩

theorem destinationComplete_keepsHost (s : State) : KeepsHost s (destinationComplete s) := by
  unfold destinationComplete
  split
  · exact ⟨rfl, rfl, rfl, rfl, rfl⟩
  · split
    · exact ⟨by simp, by simp, by simp, by simp, by simp⟩
    · exact ⟨rfl, rfl, rfl, rfl, rfl⟩

theorem readDestinationByte_keepsHost (b : Byte) (s : State) :
    KeepsHost s (readDestinationByte b s).after := by
  unfold readDestinationByte
  split
  · split <;> exact ⟨by simp, by simp, by simp, by simp, by simp⟩
  · split
    · exact ⟨rfl, rfl, rfl, rfl, rfl⟩
    · dsimp only
      split
      · refine KeepsHost.trans ?_ (destinationComplete_keepsHost _)
        exact ⟨rfl, rfl, rfl, rfl, rfl⟩
      · exact ⟨rfl, rfl, rfl, rfl, rfl⟩

theorem readPayloadByte_keepsHost (b : Byte) (s : State) : KeepsHost s (readPayloadByte b s).after := by
  unfold readPayloadByte
  split
  · unfold frameEnd acceptFrame
    split
    · exact ⟨by simp, by simp, by simp, by simp, by simp⟩
    · split
      · exact ⟨by simp, by simp, by simp, by simp, by simp⟩
      · split <;> exact ⟨by simp, by simp, by simp, by simp, by simp⟩
  · dsimp only
    split
    · exact ⟨rfl, rfl, rfl, rfl, rfl⟩
    · split <;> exact ⟨by simp, by simp, by simp, by simp, by simp⟩

theorem skipByte_keepsHost (b : Byte) (s : State) : KeepsHost s (skipByte b s).after := by
  unfold skipByte
  split <;> exact ⟨by simp, by simp, by simp, by simp, by simp⟩

theorem withRxByte_keepsHost {f : Byte → State → StepOut} (hf : ∀ b s, KeepsHost s (f b s).after) (s : State) :
    KeepsHost s (withRxByte f s).after := by
  obtain ⟨_, h⟩ | ⟨b, q, _, h⟩ := withRxByte_cases f s <;> rw [h]
  · exact .refl s
  · refine KeepsHost.trans ?_ (hf b _)
    exact ⟨rfl, rfl, rfl, rfl, rfl⟩

theorem pushOrStall_keepsHost (b : Byte) {f : State → State} (hf : ∀ s, KeepsHost s (f s)) (s : State) :
    KeepsHost s (pushOrStall b f s).after := by
  obtain ⟨_, h⟩ | ⟨_, h⟩ := pushOrStall_cases b f s <;> rw [h]
  · exact ⟨rfl, rfl, rfl, rfl, rfl⟩
  · refine KeepsHost.trans ?_ (hf _)
    exact ⟨rfl, rfl, rfl, rfl, rfl⟩

theorem stepEncode_keepsHost (s : State) : KeepsHost s (stepEncode s).after := by
  unfold stepEncode
  split
  · refine pushOrStall_keepsHost _ (fun t => ?_) s
    exact ⟨rfl, rfl, rfl, rfl, rfl⟩
  · split
    · exact ⟨rfl, rfl, rfl, rfl, rfl⟩
    · unfold stepWriteDestination nextOfFour
      split <;> exact ⟨rfl, rfl, rfl, rfl, rfl⟩
    · unfold stepWritePayload
      split <;> exact ⟨rfl, rfl, rfl, rfl, rfl⟩
    · unfold stepWriteCrc nextOfFour
      split <;> exact ⟨rfl, rfl, rfl, rfl, rfl⟩
    · unfold stepFlush
      split
      · exact ⟨rfl, rfl, rfl, rfl, rfl⟩
      · refine pushOrStall_keepsHost _ (fun t => ?_) s
        exact ⟨rfl, rfl, rfl, rfl, rfl⟩
      · split <;> exact ⟨rfl, rfl, rfl, rfl, rfl⟩

/-- A micro-step touches neither the filter, the parameters, the agenda, the reset count nor the outputs. -/
theorem microStep_keepsHost (s : State) : KeepsHost s (microStep s).after := by
  unfold microStep
  split
  · exact ⟨rfl, rfl, rfl, rfl, rfl⟩
  · exact .refl s
  · exact withRxByte_keepsHost readDestinationByte_keepsHost s
  · exact withRxByte_keepsHost readPayloadByte_keepsHost s
  · exact withRxByte_keepsHost skipByte_keepsHost s
  · exact stepEncode_keepsHost s

/-! ### The work a micro-step uses up -/

/-- What consuming a received byte leaves: the line as it is, the engine in a receive state. -/
structure StaysReceiving (s t : State) : Prop where
  line : t.line = s.line
  receiving : t.state.receiving = true

theorem readDestinationByte_receiving (b : Byte) {s : State} (h : s.state.receiving = true) :
    StaysReceiving s (readDestinationByte b s).after := by
  unfold readDestinationByte
  split
  · split <;> exact ⟨by simp, by simp [EngineState.receiving]⟩
  · split
    · exact ⟨rfl, h⟩
    · dsimp only
      split
      · unfold destinationComplete
        split
        · exact ⟨rfl, rfl⟩
        · split
          · exact ⟨by simp, by simp [EngineState.receiving]⟩
          · exact ⟨rfl, rfl⟩
      · exact ⟨rfl, h⟩

theorem readPayloadByte_receiving (b : Byte) {s : State} (h : s.state.receiving = true) :
    StaysReceiving s (readPayloadByte b s).after := by
  unfold readPayloadByte
  split
  · unfold frameEnd acceptFrame
    split
    · exact ⟨by simp, by simp [EngineState.receiving]⟩
    · split
      · exact ⟨by simp, by simp [EngineState.receiving]⟩
      · split <;> exact ⟨by simp, by simp [EngineState.receiving]⟩
  · dsimp only
    split
    · exact ⟨rfl, h⟩
    · split
      · exact ⟨by simp, by simp [EngineState.receiving]⟩
      · exact ⟨rfl, h⟩

theorem skipByte_receiving (b : Byte) {s : State} (h : s.state.receiving = true) :
    StaysReceiving s (skipByte b s).after := by
  unfold skipByte
  split
  · exact ⟨by simp, by simp [EngineState.receiving]⟩
  · exact ⟨rfl, h⟩

theorem pumpWork_receiving {s : State} (h : s.state.receiving = true) : pumpWork s = s.line.rxq.length := by
  unfold pumpWork
  cases hs : s.state <;> simp_all [EngineState.receiving]

theorem pumpWork_encode {s : State} (h : s.state = .encode) :
    pumpWork s = s.line.rxq.length + (blockWork s.enc + feedWork s) := by
  simp [pumpWork, h]

theorem withRxByte_work {f : Byte → State → StepOut} {s : State} (h : s.state.receiving = true)
    (hf : ∀ b t, t.state.receiving = true → StaysReceiving t (f b t).after)
    (hp : (withRxByte f s).res = .progress) : pumpWork (withRxByte f s).after < pumpWork s := by
  obtain ⟨_, hw⟩ | ⟨b, q, hq, hw⟩ := withRxByte_cases f s
  · simp [hw] at hp
  · rw [hw]
    obtain ⟨hl, hr⟩ := hf b { s with line := { s.line with rxq := q } } h
    rw [pumpWork_receiving hr, hl, pumpWork_receiving h, hq]
    simp

/-- Feeding a byte adds at most 2 to the block's work, when no block is draining. -/
theorem blockWork_feed (b : Byte) {e : EncSession} (h : e.dlen = 0#8) :
    blockWork (e.feed b) ≤ blockWork e + 2 := by
  unfold EncSession.feed
  split
  · split
    · rename_i hb hf
      have : e.fill = 253#8 := by
        simp only [EncSession.literal] at hf
        bv_omega
      simp [blockWork, EncSession.close, EncSession.literal, this, h]
    · simp only [blockWork, EncSession.literal, h, if_true]
      bv_omega
  · simp only [blockWork, EncSession.close, h, if_true]
    by_cases hz : e.fill + 1#8 = 0#8
    · simp [hz]
    · simp only [hz, if_false]
      bv_omega

theorem blockWork_close {e : EncSession} (code : Byte) (h : e.dlen = 0#8) :
    blockWork (e.close code) ≤ blockWork e + 1 := by
  simp only [blockWork, EncSession.close, h, if_true]
  by_cases hz : e.fill + 1#8 = 0#8
  · simp [hz]
  · simp only [hz, if_false]
    bv_omega

theorem blockWork_advance {e : EncSession} (h : e.dlen ≠ 0#8) : blockWork e.advance < blockWork e := by
  unfold EncSession.advance
  split
  · simp only [blockWork, h, if_true, if_false]
    simp
  · simp only [blockWork, h, if_false]
    bv_omega

theorem push_rxq (b : Byte) (l : Line) : (l.push b).rxq = l.rxq := by
  unfold Line.push
  split <;> rfl

/-- The stage after a byte of four has been fed has three units of work less, whatever the stage. -/
theorem feedWork_nextOfFour_dest {s : State} (e : EncSession) (h : s.encStage = .writeDestination) :
    feedWork (nextOfFour .writePayload { s with enc := e }) + 3 ≤ feedWork s := by
  unfold nextOfFour feedWork stepsToFour
  by_cases hz : s.encSrc + 1#11 = 4#11
  · have : s.encSrc = 3#11 := by bv_omega
    simp [h, this]
    omega
  · simp only [hz, if_false, h]
    bv_omega

theorem feedWork_nextOfFour_crc {s : State} (e : EncSession) (h : s.encStage = .writeCrc) :
    feedWork (nextOfFour .flush { s with enc := e }) + 3 ≤ feedWork s := by
  unfold nextOfFour feedWork stepsToFour
  by_cases hz : s.encSrc + 1#11 = 4#11
  · have : s.encSrc = 3#11 := by bv_omega
    simp [h, this]
  · simp only [hz, if_false, h]
    bv_omega

theorem nextOfFour_line (stage : EncStage) (s : State) : (nextOfFour stage s).line = s.line := by
  unfold nextOfFour
  split <;> rfl

theorem nextOfFour_enc (stage : EncStage) (s : State) : (nextOfFour stage s).enc = s.enc := by
  unfold nextOfFour
  split <;> rfl

theorem nextOfFour_state (stage : EncStage) (s : State) : (nextOfFour stage s).state = s.state := by
  unfold nextOfFour
  split <;> rfl

theorem stepDrain_work {s : State} (h : s.state = .encode) (hd : s.enc.dlen ≠ 0#8)
    (hp : (stepDrain s).res = .progress) : pumpWork (stepDrain s).after < pumpWork s := by
  unfold stepDrain at hp ⊢
  obtain ⟨_, hw⟩ | ⟨_, hw⟩ := pushOrStall_cases s.enc.next (fun t => { t with enc := t.enc.advance }) s
  · simp [hw] at hp
  · rw [hw, progress_after, pumpWork_encode h, pumpWork_encode (by exact h)]
    have hb := blockWork_advance hd
    simp only [txPush_line, txPush_enc, push_rxq]
    show _ + (_ + feedWork s) < _
    omega

theorem stepFlush_work {s : State} (h : s.state = .encode) (hd : s.enc.dlen = 0#8) (hf : s.encStage = .flush)
    (hp : (stepFlush s).res = .progress) : pumpWork (stepFlush s).after < pumpWork s := by
  rw [pumpWork_encode h]
  have hw : feedWork s = match s.encSrc.toNat with | 0 => 4 | 1 => 2 | _ => 1 := by
    unfold feedWork
    rewrite [hf]
    exact rfl
  unfold stepFlush at hp ⊢
  split at hp <;> rename_i hs <;> simp only [hs] at hw ⊢
  · have hb := blockWork_close (s.enc.fill + 1#8) hd
    rw [progress_after, pumpWork_encode (by exact h)]
    have : feedWork { s with enc := s.enc.close (s.enc.fill + 1#8), encSrc := 1#11 } = 2 := by
      simp [feedWork, hf]
    rw [this]
    dsimp only
    omega
  · obtain ⟨_, hw'⟩ | ⟨_, hw'⟩ := pushOrStall_cases 0#8 (fun t => { t with encSrc := 2#11 }) s
    · simp [hw'] at hp
    · rw [hw', progress_after, pumpWork_encode (by exact h)]
      have : feedWork { { txPush 0#8 s with encStalled := false } with encSrc := 2#11 } = 1 := by
        simp [feedWork, hf]
      rw [this]
      simp only [txPush_line, txPush_enc, push_rxq]
      omega
  · split at hp
    · rename_i hi
      simp only [hi, if_true, progress_after]
      rw [pumpWork_receiving rfl]
      have hl : (flushDone s).line = s.line := rfl
      rw [hl]
      omega
    · simp at hp

theorem stepEncode_work {s : State} (h : s.state = .encode) (hp : (stepEncode s).res = .progress) :
    pumpWork (stepEncode s).after < pumpWork s := by
  unfold stepEncode at hp ⊢
  by_cases hd : s.enc.dlen = 0#8
  · simp only [hd, ne_eq, not_true_eq_false, if_false] at hp ⊢
    rw [pumpWork_encode h]
    cases hs : s.encStage <;> simp only [hs] at hp ⊢
    · rw [progress_after, pumpWork_encode (by exact h)]
      have hw : feedWork s = 3 * (s.pktLen.toNat + 8) + 6 := by simp only [feedWork, hs]
      have hw' : feedWork (stepEncoderStart s) = 3 * (4 + s.pktLen.toNat + 4) + 5 := by
        simp [feedWork, stepEncoderStart, stepsToFour]
      have hb : blockWork (stepEncoderStart s).enc = 0 := by
        simp [blockWork, stepEncoderStart, hd]
      have hl : (stepEncoderStart s).line = s.line := rfl
      rw [hw, hw', hb, hl]
      omega
    · rw [progress_after, pumpWork_encode (by
        unfold stepWriteDestination
        rw [nextOfFour_state]
        exact h)]
      unfold stepWriteDestination feedChecked
      rw [nextOfFour_line, nextOfFour_enc]
      have := feedWork_nextOfFour_dest
        (EncSession.feed (sourceByte s (destBytes s.params.destByteOrder s.dest))
          { s.enc with txCrc := crcUpdate s.enc.txCrc (sourceByte s (destBytes s.params.destByteOrder s.dest)) }) hs
      have hb := blockWork_feed (sourceByte s (destBytes s.params.destByteOrder s.dest))
        (e := { s.enc with txCrc := crcUpdate s.enc.txCrc (sourceByte s (destBytes s.params.destByteOrder s.dest)) }) hd
      have hb' : blockWork
        { s.enc with txCrc := crcUpdate s.enc.txCrc (sourceByte s (destBytes s.params.destByteOrder s.dest)) } =
          blockWork s.enc := rfl
      dsimp only at hb hb' this ⊢
      omega
    · have hw : feedWork s = 3 * ((s.pktLen - s.encSrc).toNat + 4) + 5 := by simp only [feedWork, hs]
      rw [progress_after, pumpWork_encode (by
        unfold stepWritePayload feedChecked
        split <;> exact h)]
      unfold stepWritePayload
      by_cases he : s.encSrc = s.pktLen
      · simp only [he, if_true]
        have hw' : feedWork { s with
            enc := { s.enc with crcLat := crcFinal s.enc.txCrc }, encSrc := 0#11, encStage := .writeCrc } = 16 := by
          simp [feedWork, stepsToFour]
        have hb : blockWork { s.enc with crcLat := crcFinal s.enc.txCrc } = blockWork s.enc := rfl
        rw [hw']
        dsimp only at hb ⊢
        rw [hb, hw]
        omega
      · simp only [he, if_false]
        unfold feedChecked
        have hb := blockWork_feed (pktRead s s.encSrc.toNat)
          (e := { s.enc with txCrc := crcUpdate s.enc.txCrc (pktRead s s.encSrc.toNat) }) hd
        have hb' : blockWork { s.enc with txCrc := crcUpdate s.enc.txCrc (pktRead s s.encSrc.toNat) } =
          blockWork s.enc := rfl
        have hw' : ∀ e, feedWork { s with enc := e, encSrc := s.encSrc + 1#11 } =
            3 * ((s.pktLen - (s.encSrc + 1#11)).toNat + 4) + 5 := by
          intro e
          simp [feedWork, hs]
        dsimp only at hb hb' ⊢
        rw [hw', hw]
        have : (s.pktLen - (s.encSrc + 1#11)).toNat + 1 = (s.pktLen - s.encSrc).toNat := by bv_omega
        omega
    · rw [progress_after, pumpWork_encode (by
        unfold stepWriteCrc
        rw [nextOfFour_state]
        exact h)]
      unfold stepWriteCrc
      rw [nextOfFour_line, nextOfFour_enc]
      have := feedWork_nextOfFour_crc (s.enc.feed (sourceByte s (le32 s.enc.crcLat))) hs
      have hb := blockWork_feed (sourceByte s (le32 s.enc.crcLat)) hd
      dsimp only at hb this ⊢
      omega
    · rw [← pumpWork_encode h]
      exact stepFlush_work h hd hs hp
  · simp only [hd, ne_eq, not_false_eq_true, if_true] at hp ⊢
    exact stepDrain_work h hd hp

/-- Every `PROGRESS` micro-step uses up work (R162). -/
theorem microStep_work {s : State} (hp : (microStep s).res = .progress) :
    pumpWork (microStep s).after < pumpWork s := by
  unfold microStep at hp ⊢
  cases hs : s.state <;> simp only [hs] at hp ⊢
  · rw [progress_after, pumpWork_receiving rfl]
    simp [pumpWork, hs, stepStart]
  · exact withRxByte_work (by simp [hs, EngineState.receiving]) (fun b _ h => readDestinationByte_receiving b h) hp
  · exact withRxByte_work (by simp [hs, EngineState.receiving]) (fun b _ h => readPayloadByte_receiving b h) hp
  · exact withRxByte_work (by simp [hs, EngineState.receiving]) (fun b _ h => skipByte_receiving b h) hp
  · simp at hp
  · exact stepEncode_work hs hp

/-! ### The loop of PUMP -/

/-- What every micro-step keeps, `PUMP` keeps. -/
theorem pumpLoop_induct {P : State → Prop} (hstep : ∀ s, P s → P (microStep s).after) :
    ∀ fuel s evs, P s → P (pumpLoop fuel s evs).1 := by
  intro fuel
  induction fuel with
  | zero => exact fun s evs h => h
  | succ n ih =>
    intro s evs h
    simp only [pumpLoop]
    split
    · exact hstep s h
    · exact ih _ _ (hstep s h)

theorem pump_induct {P : State → Prop} (hstep : ∀ s, P s → P (microStep s).after) {s : State} (h : P s) :
    P (pump s).1 :=
  pumpLoop_induct hstep _ s [] h

theorem pump_keepsHost (s : State) : KeepsHost s (pump s).1 :=
  pump_induct (P := KeepsHost s) (fun t h => h.trans (microStep_keepsHost t)) (.refl s)

/-- With more fuel than work the loop ends at a blocked micro-step. -/
theorem pumpLoop_ends_blocked :
    ∀ fuel s evs, pumpWork s < fuel → ∃ new u, Progresses s new u ∧ (microStep u).res = .blocked ∧
      pumpLoop fuel s evs = ((microStep u).after, evs ++ new ++ (microStep u).event.toList) := by
  intro fuel
  induction fuel with
  | zero => exact fun s evs h => absurd h (Nat.not_lt_zero _)
  | succ n ih =>
    intro s evs hf
    cases hr : (microStep s).res with
    | blocked => exact ⟨[], s, .refl s, hr, by simp [pumpLoop, hr]⟩
    | progress =>
      have hw := microStep_work hr
      obtain ⟨new, u, hp, hb, h⟩ := ih (microStep s).after (evs ++ (microStep s).event.toList) (by omega)
      refine ⟨_, u, .step hr hp, hb, ?_⟩
      simpa [pumpLoop, hr, List.append_assoc] using h

end Sys2Proof.Machine
end

