-- ==== Sys2Proof/Laws/Control.lean ====
section
/-! SUPPORT. What moves the main state, the encoder's stage and stall, and the enables, said once: by an
operation that is neither `PUMP` nor `STEP`, by a micro-step in `Encode`, by one in a receive state. -/

namespace Sys2Proof.Machine

/-! ### Operations -/

theorem busReg_cmd {k : Nat} (h : busReg k = .cmd) : k = 0x40C := by
  unfold busReg at h
  by_cases h1 : k = 0x400
  · rw [if_pos h1] at h; cases h
  rw [if_neg h1] at h
  by_cases h1 : k = 0x404
  · rw [if_pos h1] at h; cases h
  rw [if_neg h1] at h
  by_cases h1 : k = 0x408
  · rw [if_pos h1] at h; cases h
  rw [if_neg h1] at h
  by_cases h1 : k = 0x40C
  · exact h1
  rw [if_neg h1] at h
  iterate 8
    split at h
    · cases h
  cases h

theorem busTarget_cmd {a : Addr} {n : Nat} (h : busTarget a n = .reg .cmd) : a = 0x40C#12 := by
  unfold busTarget at h
  dsimp only at h
  split at h
  · split at h <;> cases h
  · split at h
    · cases h
    · split at h
      · injection h with h
        exact BitVec.eq_of_toNat_eq (busReg_cmd h)
      · cases h

/-- The main state, the encoder's stage and stall, the enables, the counters and the line are as they were. -/
structure SameControl (s t : State) : Prop where
  state : t.state = s.state
  encStage : t.encStage = s.encStage
  encStalled : t.encStalled = s.encStalled
  rxEn : t.rxEn = s.rxEn
  txEn : t.txEn = s.txEn
  cnt : t.cnt = s.cnt
  line : t.line = s.line

/-- An operation that is neither `STEP` nor a `PUMP`, alone or through `CMD`, leaves all of these as they
were, or is one of four commands and does what that command does. -/
theorem exec_cases {i : Instr} {s t : State} (hn : exec i s = .next t) (h1 : ¬ issues i .pump 1) (h2 : i ≠ .step) :
    SameControl s t ∨
    (issues i .stopRx 2 ∧ exec .stopRx s = .next t) ∨
    (issues i .startRx 3 ∧ exec .startRx s = .next t) ∨
    (issues i .startTx 4 ∧ exec .startTx s = .next t) ∨
    (issues i .resetPktcnt 6 ∧ exec .resetPktcnt s = .next t) := by
  have same : ∀ v e, SameControl s (answer v e s) := fun v e => ⟨rfl, rfl, rfl, rfl, rfl, rfl, rfl⟩
  cases i with
  | pump => exact absurd (.inl rfl) h1
  | step => exact absurd rfl h2
  | stopRx => exact .inr (.inl ⟨.inl rfl, hn⟩)
  | startRx => exact .inr (.inr (.inl ⟨.inl rfl, hn⟩))
  | startTx => exact .inr (.inr (.inr (.inl ⟨.inl rfl, hn⟩)))
  | resetPktcnt => exact .inr (.inr (.inr (.inr ⟨.inl rfl, hn⟩)))
  | release =>
    cases hn
    exact .inl ⟨rfl, rfl, rfl, rfl, rfl, rfl, rfl⟩
  | busRd a n =>
    simp only [exec, execBusRd] at hn
    split at hn <;> cases hn <;> exact .inl (same _ _)
  | busWr a n v =>
    simp only [exec, execBusWr] at hn
    split at hn
    · unfold ownedWrite at hn
      split at hn <;> cases hn
      exact .inl ⟨rfl, rfl, rfl, rfl, rfl, rfl, rfl⟩
    · rename_i r hr
      cases r <;> simp only [writeReg] at hn
      case cmd =>
        have ha : a = 0x40C#12 := busTarget_cmd hr
        subst ha
        have hv : (BitVec.extractLsb' 0 8 v).toNat = v.toNat % 256 := by simp
        unfold issueCommand at hn
        rw [hv] at hn
        split at hn <;> rename_i hc
        · exact absurd (.inr ⟨n, v, rfl, hc⟩) h1
        · exact .inr (.inl ⟨.inr ⟨n, v, rfl, hc⟩, hn⟩)
        · exact .inr (.inr (.inl ⟨.inr ⟨n, v, rfl, hc⟩, hn⟩))
        · exact .inr (.inr (.inr (.inl ⟨.inr ⟨n, v, rfl, hc⟩, hn⟩)))
        · cases hn
          exact .inl ⟨rfl, rfl, rfl, rfl, rfl, rfl, rfl⟩
        · exact .inr (.inr (.inr (.inr ⟨.inr ⟨n, v, rfl, hc⟩, hn⟩)))
        · cases hn
          exact .inl (same _ _)
      case dest =>
        unfold ownedWrite at hn
        split at hn <;> cases hn
        exact .inl ⟨rfl, rfl, rfl, rfl, rfl, rfl, rfl⟩
      case pktLen =>
        unfold ownedWrite at hn
        split at hn <;> cases hn
        exact .inl ⟨rfl, rfl, rfl, rfl, rfl, rfl, rfl⟩
      all_goals
        cases hn
        exact .inl ⟨rfl, rfl, rfl, rfl, rfl, rfl, rfl⟩
    · cases hn
      exact .inl (same _ _)
    · cases hn
  | encFeed b =>
    simp only [exec, execEncFeed] at hn
    split at hn <;> cases hn
    exact .inl ⟨rfl, rfl, rfl, rfl, rfl, rfl, rfl⟩
  | encClose b =>
    cases hn
    exact .inl ⟨rfl, rfl, rfl, rfl, rfl, rfl, rfl⟩
  | cobsDecode w =>
    simp only [exec, execCobsDecode] at hn
    (try split at hn) <;> cases hn <;> exact .inl (same _ _)
  | decEnd w =>
    simp only [exec, execDecEnd] at hn
    (try split at hn) <;> cases hn <;> exact .inl (same _ _)
  | serialize a b c d =>
    simp only [exec, execSerialize] at hn
    split at hn <;> cases hn
    exact .inl (same _ _)
  | deserialize w =>
    simp only [exec, execDeserialize] at hn
    (try split at hn) <;> cases hn <;> exact .inl (same _ _)
  | _ =>
    cases hn
    exact .inl (same _ _)

/-! ### A micro-step in Encode -/

/-- What a micro-step in `Encode` does to the main state, the stage, the enables and the stall. -/
structure EncodeControl (s t : State) : Prop where
  state :
    t.state = s.state ∨
    (t.state = .readDestination ∧ s.enc.dlen = 0#8 ∧ s.encStage = .flush ∧ 2 ≤ s.encSrc.toNat ∧
      s.line.idle = true ∧ t.rxEn = true ∧ t.txEn = false)
  encStage :
    t.state = s.state → t.encStage ≠ s.encStage →
      s.enc.dlen = 0#8 ∧
      (s.encStage = .encoderStart ∧ t.encStage = .writeDestination ∨
       s.encStage = .writeDestination ∧ t.encStage = .writePayload ∨
       s.encStage = .writePayload ∧ t.encStage = .writeCrc ∨ s.encStage = .writeCrc ∧ t.encStage = .flush)
  rxEn : t.state = s.state → t.rxEn = s.rxEn
  txEn : t.state = s.state → t.txEn ≠ s.txEn → s.enc.dlen = 0#8 ∧ s.encStage = .encoderStart
  encStalled :
    s.encStalled = false → t.encStalled = true →
      s.line.room = 0 ∧ (s.enc.dlen ≠ 0#8 ∨ s.encStage = .flush ∧ s.encSrc = 1#11) ∧
      (stepEncode s).res = .blocked

theorem stepEncode_control {s : State} (hs : s.state = .encode) : EncodeControl s (stepEncode s).after := by
  by_cases hd : s.enc.dlen = 0#8
  · cases hg : s.encStage
    · have e : stepEncode s = progress (stepEncoderStart s) := by simp [stepEncode, hd, hg]
      rw [e]
      constructor <;> simp [stepEncoderStart, hd, hg, hs]
    · have e : stepEncode s = progress (stepWriteDestination s) := by simp [stepEncode, hd, hg]
      rw [e]
      unfold stepWriteDestination nextOfFour feedChecked
      constructor <;> simp [hd, hg, hs] <;> split <;> simp_all
    · have e : stepEncode s = progress (stepWritePayload s) := by simp [stepEncode, hd, hg]
      rw [e]
      unfold stepWritePayload feedChecked
      constructor <;> simp [hd, hg, hs] <;> split <;> simp_all
    · have e : stepEncode s = progress (stepWriteCrc s) := by simp [stepEncode, hd, hg]
      rw [e]
      unfold stepWriteCrc nextOfFour
      constructor <;> simp [hd, hg, hs] <;> split <;> simp_all
    · have e : stepEncode s = stepFlush s := by simp [stepEncode, hd, hg]
      rcases h0 : s.encSrc.toNat with _ | _ | k
      · have e2 : stepFlush s = progress { s with enc := s.enc.close (s.enc.fill + 1#8), encSrc := 1#11 } := by
          simp [stepFlush, h0]
        rw [e2] at e
        constructor <;> rw [e] <;> simp [hd, hg, hs]
      · have h1 : s.encSrc = 1#11 := by bv_omega
        obtain ⟨hr, e2⟩ | ⟨hr, e2⟩ := pushOrStall_cases 0#8 (fun t => { t with encSrc := 2#11 }) s
        · have e3 : stepFlush s = _ := (by simp [stepFlush, h1] :
            stepFlush s = pushOrStall 0#8 (fun t => { t with encSrc := 2#11 }) s).trans e2
          rw [e3] at e
          constructor <;> rw [e] <;> simp [hd, hg, hs, h1, hr]
        · have e3 : stepFlush s = _ := (by simp [stepFlush, h1] :
            stepFlush s = pushOrStall 0#8 (fun t => { t with encSrc := 2#11 }) s).trans e2
          rw [e3] at e
          constructor <;> rw [e] <;> simp [hd, hg, hs, txPush]
      · have h2 : 2 ≤ s.encSrc.toNat := by omega
        cases hi : s.line.idle
        · have e2 : stepFlush s = blocked s := by simp [stepFlush, h0, txIdle, hi]
          rw [e2] at e
          constructor <;> rw [e] <;> simp_all
        · have e2 : stepFlush s = progress (flushDone s) := by simp [stepFlush, h0, txIdle, hi]
          rw [e2] at e
          constructor <;> rw [e] <;> simp [hd, hg, hs, h2, hi, flushDone]
  · have e : stepEncode s = stepDrain s := by simp [stepEncode, hd]
    unfold stepDrain at e
    obtain ⟨hr, e2⟩ | ⟨hr, e2⟩ := pushOrStall_cases s.enc.next (fun t => { t with enc := t.enc.advance }) s <;>
      rw [e2] at e
    · constructor <;> rw [e] <;> simp [hd, hs, hr]
    · constructor <;> rw [e] <;> simp [hs, txPush]

/-! ### A micro-step in a receive state -/

/-- What a micro-step in a receive state does to the same. -/
structure ReceiveControl (s t : State) : Prop where
  encStage : t.encStage = s.encStage
  encStalled : t.encStalled = s.encStalled
  rxEn : t.rxEn = s.rxEn
  txEn : t.txEn = s.txEn
  state :
    t.state = s.state ∨
    s.state = .readDestination ∧ t.state = .skipCurrentPacket ∧ s.rx.destCnt = 3#3 ∧
      (∃ x, s.delivers x ∧ (s.fourthMatches x = false ∨ s.fourthMatches x = true ∧ s.pktValid = true)) ∨
    s.state = .readDestination ∧ t.state = .readPayload ∧ s.rx.destCnt = 3#3 ∧ s.pktValid = false ∧
      (∃ x, s.delivers x ∧ s.fourthMatches x = true) ∨
    s.state = .readPayload ∧ t.state = .skipCurrentPacket ∧ s.rx.bodyCnt.toNat = 1020 ∧ (∃ x, s.delivers x) ∨
    s.state = .readPayload ∧ t.state = .readDestination ∧ s.line.rxq.head? = some 0#8 ∨
    s.state = .skipCurrentPacket ∧ t.state = .readDestination ∧ s.line.rxq.head? = some 0#8

theorem microStep_receiving_control {s : State} (hrec : s.state.receiving = true) :
    ReceiveControl s (microStep s).after := by
  have hcap : Config.pktBufCap = 1020 := rfl
  cases hs : s.state <;> first | (simp [hs, EngineState.receiving] at hrec; done) | skip
  · -- readDestination
    rcases hq : s.line.rxq with _ | ⟨b, q⟩
    · simp [microStep, hs, withRxByte, hq]
      constructor <;> simp
    · by_cases hb0 : b = 0#8
      · subst hb0
        by_cases hr : s.rx.rem = 0#8
        · simp [microStep, hs, withRxByte, hq, readDestinationByte, hr, decEnd]
          constructor <;> simp [toReadDestination, rxSessionReset, hs]
        · simp [microStep, hs, withRxByte, hq, readDestinationByte, hr, decEnd, raise, Counters.incError,
            toReadDestination, rxSessionReset]
          constructor <;> simp [hs]
      · rcases hd : (decByte s.rx.rem s.rx.pz b).out with _ | x
        · simp [microStep, hs, withRxByte, hq, readDestinationByte, hb0, RxSession.delivered, hd]
          constructor <;> simp [hs]
        · have h4 : s.rx.destCnt + 1#3 = 4#3 ↔ s.rx.destCnt = 3#3 := by bv_omega
          have hdel : s.delivers x := ⟨b, q, hq, hb0, hd⟩
          by_cases h3 : s.rx.destCnt = 3#3
          · simp [microStep, hs, withRxByte, hq, readDestinationByte, hb0, RxSession.delivered, hd,
              RxSession.storeDest, RxSession.decode, h3, destinationComplete, bufferedDest]
            have hf : s.fourthMatches x =
                matchDest s.params s.filter
                  (destOfBytes s.params.destByteOrder s.rx.destBuf[0] s.rx.destBuf[1] s.rx.destBuf[2] x) := rfl
            rw [← hf]
            cases hm : s.fourthMatches x
            · simp
              constructor <;> simp [hs, h3]
              exact ⟨x, hdel, .inl hm⟩
            · cases hv : s.pktValid <;> simp [raise, Counters.incError]
              · constructor <;> simp [hs, h3, hv]
                exact ⟨x, hdel, hm⟩
              · exact ⟨rfl, rfl, rfl, rfl, .inr (.inl ⟨hs, rfl, h3, x, hdel, .inr ⟨hm, hv⟩⟩)⟩
          · simp [microStep, hs, withRxByte, hq, readDestinationByte, hb0, RxSession.delivered, hd,
              RxSession.storeDest, RxSession.decode, h3, h4]
            constructor <;> simp [hs]
  · -- readPayload
    rcases hq : s.line.rxq with _ | ⟨b, q⟩
    · simp [microStep, hs, withRxByte, hq]
      constructor <;> simp
    · by_cases hb0 : b = 0#8
      · subst hb0
        have : (microStep s) = frameEnd { s with line := { s.line with rxq := q } } := by
          simp [microStep, hs, withRxByte, hq, readPayloadByte]
        rw [this]
        unfold frameEnd acceptFrame raise
        split_ifs <;> constructor <;> simp [toReadDestination, rxSessionReset, hs, hq]
      · rcases hd : (decByte s.rx.rem s.rx.pz b).out with _ | x
        · simp [microStep, hs, withRxByte, hq, readPayloadByte, hb0, RxSession.delivered, hd]
          constructor <;> simp [hs]
        · have hdel : s.delivers x := ⟨b, q, hq, hb0, hd⟩
          by_cases hf : s.rx.bodyCnt.toNat = 1020
          · simp [microStep, hs, withRxByte, hq, readPayloadByte, hb0, RxSession.delivered, hd,
              RxSession.decode, hf, hcap, raise, Counters.incError]
            constructor <;> simp [hs, hf]
            exact ⟨x, hdel⟩
          · simp [microStep, hs, withRxByte, hq, readPayloadByte, hb0, RxSession.delivered, hd,
              RxSession.decode, hf, hcap]
            constructor <;> simp [pktWrite, hs]
  · rcases hq : s.line.rxq with _ | ⟨b, q⟩
    · simp [microStep, hs, withRxByte, hq]
      constructor <;> simp
    · simp [microStep, hs, withRxByte, hq, skipByte]
      split <;> constructor <;> simp [toReadDestination, rxSessionReset, hs, hq]
      assumption

end Sys2Proof.Machine
end

