-- ==== Sys2Proof/Laws/Encoding.lean ====
section
/-! SUPPORT. Round trips of the operand forms: a 32-bit word as four bytes, a bus offset as two. -/

namespace Sys2Proof.Machine

/-- R10: `UNLE32(LE32(v)) = v`. -/
theorem unle32_le32 (v : Word) :
    unle32 (v.extractLsb' 0 8) (v.extractLsb' 8 8) (v.extractLsb' 16 8) (v.extractLsb' 24 8) = v := by
  apply BitVec.eq_of_toNat_eq
  have := v.isLt
  simp only [unle32, BitVec.extractLsb'_toNat, Nat.shiftRight_eq_div_pow, BitVec.toNat_ofNat]
  omega

/-- R10: `LE32(UNLE32(s)) = s`. -/
theorem le32_unle32 (a b c d : Byte) : le32 (unle32 a b c d) = [a, b, c, d] := by
  have := a.isLt
  have := b.isLt
  have := c.isLt
  have := d.isLt
  simp only [le32, unle32, List.cons.injEq, and_true]
  refine ⟨?_, ?_, ?_, ?_⟩ <;> apply BitVec.eq_of_toNat_eq <;>
    simp only [BitVec.extractLsb'_toNat, Nat.shiftRight_eq_div_pow, BitVec.toNat_ofNat] <;> omega

@[simp] theorem le32_length (v : Word) : (le32 v).length = 4 := rfl

/-- R53: a destination read back from its wire bytes, under either byte order. -/
theorem destOfBytes_destBytes (o : ByteOrder) (d : Word) :
    ∃ b0 b1 b2 b3, destBytes o d = [b0, b1, b2, b3] ∧ destOfBytes o b0 b1 b2 b3 = d := by
  cases o
  · exact ⟨_, _, _, _, rfl, unle32_le32 d⟩
  · exact ⟨_, _, _, _, rfl, unle32_le32 d⟩

end Sys2Proof.Machine

namespace Sys2Proof

theorem parseAddr_addrBytes (a : Addr) :
    parseAddr (a.extractLsb' 0 8) (BitVec.ofNat 8 (a.toNat / 256)) = some a := by
  have := a.isLt
  unfold parseAddr
  rw [if_pos (by simp only [BitVec.toNat_ofNat]; omega)]
  congr 1
  apply BitVec.eq_of_toNat_eq
  simp only [BitVec.extractLsb'_toNat, Nat.shiftRight_eq_div_pow, BitVec.toNat_ofNat]
  omega

theorem addrBytes_parseAddr {lo hi : Byte} {a : Addr} (h : parseAddr lo hi = some a) : addrBytes a = [lo, hi] := by
  have := lo.isLt
  have := hi.isLt
  unfold parseAddr at h
  split at h
  · cases h
    simp only [addrBytes, List.cons.injEq, and_true]
    constructor <;> apply BitVec.eq_of_toNat_eq <;>
      simp only [BitVec.extractLsb'_toNat, Nat.shiftRight_eq_div_pow, BitVec.toNat_ofNat] <;> omega
  · cases h

/-- A width from 1 to 256, stored less one and read back. -/
theorem width_stored {n : Nat} (h : 1 ≤ n ∧ n ≤ 256) : (BitVec.ofNat 8 (n - 1)).toNat + 1 = n := by
  simp only [BitVec.toNat_ofNat]
  omega

end Sys2Proof
end

