-- ==== Sys2Proof/Laws/Invariant.lean ====
section
/-! SUPPORT. Every micro-step keeps `State.Inv`: one lemma per building block, and `microStep_inv`. -/

namespace Sys2Proof.Machine

/-! ### Small facts -/

theorem decByte_rem_le {rem b : Byte} (pz : Bool) (h : rem.toNat ≤ 254) (hb : b ≠ 0#8) :
    (decByte rem pz b).rem.toNat ≤ 254 := by
  unfold decByte
  split <;> simp only <;> bv_omega

theorem EncSession.cursorsInRange_open {e : EncSession} (hd : e.dlen = 0#8) :
    e.cursorsInRange ↔ e.fill.toNat ≤ 253 := by
  simp [EncSession.cursorsInRange, hd]

theorem EncSession.cursorsInRange_closed {e : EncSession} (hd : e.dlen ≠ 0#8) :
    e.cursorsInRange ↔ e.dlen.toNat = e.fill.toNat + 1 ∧ e.out.toNat < e.dlen.toNat := by
  simp [EncSession.cursorsInRange, hd]

/-- Closing a block of at most 254 literals leaves its cursors in range. -/
theorem EncSession.close_cursorsInRange {e : EncSession} (code : Byte) (hf : e.fill.toNat ≤ 254) :
    (e.close code).cursorsInRange := by
  have hd : (e.close code).dlen ≠ 0#8 := by
    simp only [EncSession.close]
    bv_omega
  rw [EncSession.cursorsInRange_closed hd]
  simp only [EncSession.close]
  bv_omega

theorem EncSession.feed_cursorsInRange {e : EncSession} (b : Byte) (hd : e.dlen = 0#8)
    (hf : e.fill.toNat ≤ 253) : (e.feed b).cursorsInRange := by
  unfold EncSession.feed
  split
  · split
    · refine EncSession.close_cursorsInRange _ ?_
      simp only [EncSession.literal]
      bv_omega
    · rename_i h
      rw [EncSession.cursorsInRange_open (by exact hd)]
      simp only [EncSession.literal] at h ⊢
      bv_omega
  · exact EncSession.close_cursorsInRange _ (by omega)

theorem EncSession.advance_cursorsInRange {e : EncSession} (hd : e.dlen ≠ 0#8) (h : e.cursorsInRange) :
    e.advance.cursorsInRange := by
  rw [EncSession.cursorsInRange_closed hd] at h
  unfold EncSession.advance
  split
  · simp [EncSession.cursorsInRange]
  · rw [EncSession.cursorsInRange_closed (by exact hd)]
    simp only
    bv_omega

theorem push_idle (b : Byte) (l : Line) : (l.push b).idle = true → (l.push b).sink = [] := by
  unfold Line.push
  split <;> simp_all

/-! ### Receiving -/

/-- What the invariant says of a receive state. -/
theorem State.Inv.receiving_facts {s : State} (h : s.Inv) (hr : s.state.receiving = true) :
    s.rxEn = true ∧ s.txEn = false ∧ s.encStage = .encoderStart ∧ s.encSrc = 0#11 ∧ s.encStalled = false := by
  have hne : s.state ≠ .encode := by
    intro he
    simp [he, EngineState.receiving] at hr
  refine ⟨by rw [h.rx_enabled, hr], ?_, (h.encoder_at_rest hne).1, (h.encoder_at_rest hne).2, ?_⟩
  · cases ht : s.txEn
    · rfl
    · exact absurd (h.tx_enabled.1 ht).1 hne
  · cases ht : s.encStalled
    · rfl
    · exact absurd (h.stalled_waits ht).1 hne

/-- The entry to `ReadDestination`, with the line turned to receiving and the encoder at rest. -/
theorem toReadDestination_inv {s : State} (hm : Memory.wf s.mem) (hrx : s.rxEn = true) (htx : s.txEn = false)
    (hb : s.enc.cursorsInRange) (hr : s.encStage = .encoderStart ∧ s.encSrc = 0#11) (hs : s.encStalled = false)
    (hi : s.line.idle = true → s.line.sink = [])
    (hd : ∀ k, s.params.rxqDepth = some k → s.line.rxq.length ≤ k) : (toReadDestination s).Inv where
  mem_wf := hm
  rx_enabled := hrx
  tx_enabled := by simp [htx]
  payload_free := by simp
  queue_empty := by simp
  rem_range := by simp [RxSession.fresh]
  dest_range := by simp [RxSession.fresh]
  body_range := by simp [RxSession.fresh]
  block_range := hb
  encode_range := by simp
  encoder_at_rest := fun _ => hr
  stalled_waits := by simp [hs]
  idle_drained := hi
  queue_depth := hd

/-- A state that differs from a receive state only in what a received byte can change. -/
structure SameTransmitter (s t : State) : Prop where
  rxEn : t.rxEn = s.rxEn
  txEn : t.txEn = s.txEn
  enc : t.enc = s.enc
  encStage : t.encStage = s.encStage
  encSrc : t.encSrc = s.encSrc
  encStalled : t.encStalled = s.encStalled
  line : t.line = s.line
  params : t.params = s.params

theorem backToReadDestination_inv {s t : State} (h : s.Inv) (hr : s.state.receiving = true)
    (hm : t.mem = s.mem) (e : SameTransmitter s t) : (toReadDestination t).Inv := by
  obtain ⟨a, b, c, d, f⟩ := h.receiving_facts hr
  apply toReadDestination_inv
  · rw [hm]; exact h.mem_wf
  · rw [e.rxEn, a]
  · rw [e.txEn, b]
  · rw [e.enc]; exact h.block_range
  · rw [e.encStage, e.encSrc]; exact ⟨c, d⟩
  · rw [e.encStalled, f]
  · rw [e.line]; exact h.idle_drained
  · rw [e.line, e.params]; exact h.queue_depth

theorem staysReceiving_inv {s t : State} (h : s.Inv) (hr : s.state.receiving = true)
    (hr' : t.state.receiving = true) (e : SameTransmitter s t) (hm : Memory.wf t.mem)
    (f1 : t.state = .readPayload → t.pktValid = false) (f2 : t.rx.rem.toNat ≤ 254)
    (f3 : t.rx.destCnt.toNat ≤ 4 ∧ (t.state = .readDestination → t.rx.destCnt.toNat < 4))
    (f4 : t.rx.bodyCnt.toNat ≤ 1020) : t.Inv := by
  obtain ⟨a, b, c, d, g⟩ := h.receiving_facts hr
  have hne : t.state ≠ .encode := by
    intro he
    simp [he, EngineState.receiving] at hr'
  have hne' : t.state ≠ .stopped := by
    intro he
    simp [he, EngineState.receiving] at hr'
  constructor
  · exact hm
  · rw [e.rxEn, a, hr']
  · simp [e.txEn, b, hne]
  · exact f1
  · simp [hne, hne']
  · exact f2
  · exact f3
  · exact f4
  · rw [e.enc]; exact h.block_range
  · simp [hne]
  · intro _; rw [e.encStage, e.encSrc]; exact ⟨c, d⟩
  · simp [e.encStalled, g]
  · rw [e.line]; exact h.idle_drained
  · rw [e.line, e.params]; exact h.queue_depth

/-- Taking the oldest byte from `RXQ` keeps the invariant. -/
theorem pop_inv {s : State} (h : s.Inv) {b : Byte} {q : List Byte} (hq : s.line.rxq = b :: q) :
    State.Inv { s with line := { s.line with rxq := q } } where
  mem_wf := h.mem_wf
  rx_enabled := h.rx_enabled
  tx_enabled := h.tx_enabled
  payload_free := h.payload_free
  queue_empty hs := by simpa [hq] using h.queue_empty hs
  rem_range := h.rem_range
  dest_range := h.dest_range
  body_range := h.body_range
  block_range := h.block_range
  encode_range := h.encode_range
  encoder_at_rest := h.encoder_at_rest
  stalled_waits := h.stalled_waits
  idle_drained := h.idle_drained
  queue_depth k hk := by
    have := h.queue_depth k hk
    simp only [hq, List.length_cons] at this
    dsimp only
    omega

theorem readDestinationByte_inv {s : State} (h : s.Inv) (hs : s.state = .readDestination) (b : Byte) :
    (readDestinationByte b s).after.Inv := by
  have hr : s.state.receiving = true := by rw [hs]; rfl
  unfold readDestinationByte
  split
  · split
    · exact backToReadDestination_inv h hr rfl ⟨rfl, rfl, rfl, rfl, rfl, rfl, rfl, rfl⟩
    · exact backToReadDestination_inv h hr rfl ⟨rfl, rfl, rfl, rfl, rfl, rfl, rfl, rfl⟩
  · rename_i hb
    have h1 := decByte_rem_le s.rx.pz h.rem_range hb
    have h2 := h.dest_range
    have h3 := h.body_range
    split
    · exact staysReceiving_inv h hr hr ⟨rfl, rfl, rfl, rfl, rfl, rfl, rfl, rfl⟩ h.mem_wf h.payload_free h1 h2 h3
    · rename_i d _
      dsimp only
      have h5 : s.rx.destCnt + 1#3 = 4#3 → (((s.rx.decode b).storeDest d).destCnt.toNat ≤ 4) := by
        intro h4
        show (s.rx.destCnt + 1#3).toNat ≤ 4
        rw [h4]
        decide
      split
      · rename_i h4
        unfold destinationComplete
        split
        · exact staysReceiving_inv h hr rfl ⟨rfl, rfl, rfl, rfl, rfl, rfl, rfl, rfl⟩ h.mem_wf (by simp) h1
            ⟨h5 h4, by simp⟩ h3
        · split
          · exact staysReceiving_inv h hr rfl ⟨rfl, rfl, rfl, rfl, rfl, rfl, rfl, rfl⟩ h.mem_wf
              (by simp [raise]) h1 ⟨h5 h4, by simp [raise]⟩ h3
          · rename_i hv
            refine staysReceiving_inv h hr rfl ⟨rfl, rfl, rfl, rfl, rfl, rfl, rfl, rfl⟩ h.mem_wf ?_ h1
              ⟨h5 h4, by simp⟩ (by simp)
            intro _
            simpa using hv
      · rename_i h4
        refine staysReceiving_inv h hr hr ⟨rfl, rfl, rfl, rfl, rfl, rfl, rfl, rfl⟩ h.mem_wf h.payload_free h1 ?_ h3
        have := h2.2 hs
        have h6 : s.rx.destCnt + 1#3 ≠ 4#3 := h4
        show (s.rx.destCnt + 1#3).toNat ≤ 4 ∧ (_ → (s.rx.destCnt + 1#3).toNat < 4)
        constructor
        · bv_omega
        · intro _; bv_omega

theorem readPayloadByte_inv {s : State} (h : s.Inv) (hs : s.state = .readPayload) (b : Byte) :
    (readPayloadByte b s).after.Inv := by
  have hr : s.state.receiving = true := by rw [hs]; rfl
  unfold readPayloadByte
  split
  · unfold frameEnd acceptFrame
    split
    · exact backToReadDestination_inv h hr rfl ⟨rfl, rfl, rfl, rfl, rfl, rfl, rfl, rfl⟩
    · split
      · exact backToReadDestination_inv h hr rfl ⟨rfl, rfl, rfl, rfl, rfl, rfl, rfl, rfl⟩
      · split
        · exact backToReadDestination_inv h hr rfl ⟨rfl, rfl, rfl, rfl, rfl, rfl, rfl, rfl⟩
        · exact backToReadDestination_inv h hr rfl ⟨rfl, rfl, rfl, rfl, rfl, rfl, rfl, rfl⟩
  · rename_i hb
    have h1 := decByte_rem_le s.rx.pz h.rem_range hb
    have h2 := h.dest_range
    have h3 := h.body_range
    dsimp only
    split
    · exact staysReceiving_inv h hr hr ⟨rfl, rfl, rfl, rfl, rfl, rfl, rfl, rfl⟩ h.mem_wf h.payload_free h1 h2 h3
    · split
      · exact staysReceiving_inv h hr rfl ⟨rfl, rfl, rfl, rfl, rfl, rfl, rfl, rfl⟩ h.mem_wf (by simp [raise]) h1
          ⟨h2.1, by simp [raise]⟩ h3
      · rename_i h5
        have hlt : s.rx.bodyCnt.toNat < 1020 := by
          have : s.rx.bodyCnt.toNat ≠ 1020 := h5
          omega
        refine staysReceiving_inv h hr hr ⟨rfl, rfl, rfl, rfl, rfl, rfl, rfl, rfl⟩
          (Memory.write_wf _ h.mem_wf hlt) h.payload_free h1 h2 ?_
        show (s.rx.bodyCnt + 1#11).toNat ≤ 1020
        bv_omega

theorem skipByte_inv {s : State} (h : s.Inv) (hs : s.state = .skipCurrentPacket) (b : Byte) :
    (skipByte b s).after.Inv := by
  have hr : s.state.receiving = true := by rw [hs]; rfl
  unfold skipByte
  split
  · exact backToReadDestination_inv h hr rfl ⟨rfl, rfl, rfl, rfl, rfl, rfl, rfl, rfl⟩
  · exact h

theorem withRxByte_inv {f : Byte → State → StepOut} {s : State} (h : s.Inv)
    (hf : ∀ b t, t.Inv → t.state = s.state → (f b t).after.Inv) : (withRxByte f s).after.Inv := by
  obtain ⟨_, e⟩ | ⟨b, q, hq, e⟩ := withRxByte_cases f s <;> rw [e]
  · exact h
  · exact hf b _ (pop_inv h hq) rfl

/-! ### Transmitting -/

/-- A state of an encode pass that differs from another only in what the encoder can change. -/
theorem staysEncoding_inv {s t : State} (h : s.Inv) (hs : s.state = .encode) (ht : t.state = .encode)
    (e1 : t.mem = s.mem) (e2 : t.rxEn = s.rxEn) (e3 : t.txEn = true ↔ t.encStage ≠ .encoderStart)
    (e4 : t.pktLen = s.pktLen) (e5 : t.line.rxq = s.line.rxq) (e6 : t.rx = s.rx) (e7 : t.params = s.params)
    (f1 : t.enc.cursorsInRange) (f2 : cursorInRange t.encStage t.encSrc.toNat t.pktLen.toNat)
    (f3 : t.encStalled = true → t.enc.dlen ≠ 0#8 ∨ (t.encStage = .flush ∧ t.encSrc = 1#11))
    (f4 : t.line.idle = true → t.line.sink = []) : t.Inv := by
  have hq := h.queue_empty (.inr hs)
  have hl := h.encode_range hs
  constructor
  · rw [e1]; exact h.mem_wf
  · rw [e2, h.rx_enabled, hs, ht]
  · simp [ht, e3]
  · simp [ht]
  · intro _; rw [e5, hq]
  · rw [e6]; exact h.rem_range
  · rw [e6]; exact ⟨h.dest_range.1, by simp [ht]⟩
  · rw [e6]; exact h.body_range
  · exact f1
  · intro _; exact ⟨e4 ▸ hl.1, e4 ▸ hl.2.1, f2⟩
  · intro hh; exact absurd ht hh
  · intro hh; exact ⟨ht, f3 hh⟩
  · exact f4
  · intro k hk; rw [e5]; rw [e7] at hk; exact h.queue_depth k hk

theorem stepDrain_inv {s : State} (h : s.Inv) (hs : s.state = .encode) (hd : s.enc.dlen ≠ 0#8) :
    (stepDrain s).after.Inv := by
  have htx : s.txEn = true ↔ s.encStage ≠ .encoderStart := by simpa [hs] using h.tx_enabled
  have hc := (h.encode_range hs).2.2
  unfold stepDrain
  obtain ⟨_, e⟩ | ⟨_, e⟩ := pushOrStall_cases s.enc.next (fun t => { t with enc := t.enc.advance }) s <;> rw [e]
  · exact staysEncoding_inv h hs hs rfl rfl htx rfl rfl rfl rfl h.block_range hc (fun _ => .inl hd) h.idle_drained
  · refine staysEncoding_inv h hs hs rfl rfl htx rfl (push_rxq _ _) rfl rfl
      (EncSession.advance_cursorsInRange hd h.block_range) hc ?_ (push_idle _ _)
    simp

theorem stepEncode_inv {s : State} (h : s.Inv) (hs : s.state = .encode) : (stepEncode s).after.Inv := by
  have htx : s.txEn = true ↔ s.encStage ≠ .encoderStart := by simpa [hs] using h.tx_enabled
  have hc := (h.encode_range hs).2.2
  unfold stepEncode
  split
  · rename_i hd
    exact stepDrain_inv h hs hd
  · rename_i hd
    simp only [ne_eq, not_not] at hd
    have hf := (EncSession.cursorsInRange_open hd).1 h.block_range
    have hst : s.encStalled = true → s.encStage = .flush ∧ s.encSrc = 1#11 := by
      intro hh
      simpa [hd] using (h.stalled_waits hh).2
    have hns : s.encStage ≠ .flush → ¬ s.encStalled = true := fun hg hh => hg (hst hh).1
    split <;> rename_i hg <;> rw [hg] at hc
    · refine staysEncoding_inv h hs hs rfl rfl (by simp [stepEncoderStart]) rfl rfl rfl rfl ?_ ?_ ?_ h.idle_drained
      · exact (EncSession.cursorsInRange_open (by exact hd)).2 (by simp [stepEncoderStart])
      · simp [stepEncoderStart, cursorInRange]
      · intro hh
        exact absurd hh (hns (by simp [hg]))
    · unfold stepWriteDestination nextOfFour
      split
      · refine staysEncoding_inv h hs hs rfl rfl ?_ rfl rfl rfl rfl
          (EncSession.feed_cursorsInRange _ hd hf) ?_ ?_ h.idle_drained
        · show s.txEn = true ↔ _
          simp [htx, hg]
        · exact Nat.zero_le _
        · intro hh
          exact absurd hh (hns (by simp [hg]))
      · rename_i h4
        refine staysEncoding_inv h hs hs rfl rfl htx rfl rfl rfl rfl
          (EncSession.feed_cursorsInRange _ hd hf) ?_ ?_ h.idle_drained
        · show cursorInRange s.encStage (s.encSrc + 1#11).toNat s.pktLen.toNat
          have h4' : s.encSrc + 1#11 ≠ 4#11 := h4
          rw [hg]
          simp only [cursorInRange] at hc ⊢
          bv_omega
        · intro hh
          exact absurd hh (hns (by simp [hg]))
    · unfold stepWritePayload
      split
      · refine staysEncoding_inv h hs hs rfl rfl ?_ rfl rfl rfl rfl ?_ ?_ ?_ h.idle_drained
        · show s.txEn = true ↔ _
          simp [htx, hg]
        · exact (EncSession.cursorsInRange_open (by exact hd)).2 hf
        · show (0#11).toNat < 4
          decide
        · intro hh
          exact absurd hh (hns (by simp [hg]))
      · rename_i h4
        refine staysEncoding_inv h hs hs rfl rfl htx rfl rfl rfl rfl
          (EncSession.feed_cursorsInRange _ hd hf) ?_ ?_ h.idle_drained
        · show cursorInRange s.encStage (s.encSrc + 1#11).toNat s.pktLen.toNat
          rw [hg]
          simp only [cursorInRange] at hc ⊢
          bv_omega
        · intro hh
          exact absurd hh (hns (by simp [hg]))
    · unfold stepWriteCrc nextOfFour
      split
      · refine staysEncoding_inv h hs hs rfl rfl ?_ rfl rfl rfl rfl
          (EncSession.feed_cursorsInRange _ hd hf) ?_ ?_ h.idle_drained
        · show s.txEn = true ↔ _
          simp [htx, hg]
        · show (0#11).toNat ≤ 2
          decide
        · intro hh
          exact absurd hh (hns (by simp [hg]))
      · rename_i h4
        refine staysEncoding_inv h hs hs rfl rfl htx rfl rfl rfl rfl
          (EncSession.feed_cursorsInRange _ hd hf) ?_ ?_ h.idle_drained
        · show cursorInRange s.encStage (s.encSrc + 1#11).toNat s.pktLen.toNat
          have h4' : s.encSrc + 1#11 ≠ 4#11 := h4
          rw [hg]
          simp only [cursorInRange] at hc ⊢
          bv_omega
        · intro hh
          exact absurd hh (hns (by simp [hg]))
    · unfold stepFlush
      split
      · refine staysEncoding_inv h hs hs rfl rfl htx rfl rfl rfl rfl
          (EncSession.close_cursorsInRange _ (by omega)) ?_ ?_ h.idle_drained
        · show cursorInRange s.encStage (1#11).toNat s.pktLen.toNat
          rw [hg]
          simp [cursorInRange]
        · intro _
          exact .inr ⟨hg, rfl⟩
      · rename_i h1
        obtain ⟨_, e⟩ | ⟨_, e⟩ := pushOrStall_cases 0#8 (fun t => { t with encSrc := 2#11 }) s <;> rw [e]
        · refine staysEncoding_inv h hs hs rfl rfl htx rfl rfl rfl rfl h.block_range (hg ▸ hc) ?_ h.idle_drained
          intro _
          exact .inr ⟨hg, by simp only [blocked_after]; bv_omega⟩
        · refine staysEncoding_inv h hs hs rfl rfl htx rfl (push_rxq _ _) rfl rfl h.block_range ?_ ?_
            (push_idle _ _)
          · show cursorInRange s.encStage (2#11).toNat s.pktLen.toNat
            rw [hg]
            simp [cursorInRange]
          · simp
      · rename_i h0 h1
        split
        · refine toReadDestination_inv h.mem_wf rfl rfl h.block_range ⟨rfl, rfl⟩ ?_ h.idle_drained h.queue_depth
          cases hh : s.encStalled
          · rfl
          · exact absurd (by rw [(hst hh).2]; rfl) h1
        · exact h

/-- A micro-step keeps the invariant. -/
theorem microStep_inv {s : State} (h : s.Inv) : (microStep s).after.Inv := by
  unfold microStep
  split
  · rename_i hs
    have hr := h.encoder_at_rest (by simp [hs])
    refine toReadDestination_inv h.mem_wf rfl rfl h.block_range hr ?_ h.idle_drained h.queue_depth
    cases hh : s.encStalled
    · rfl
    · have := (h.stalled_waits hh).1
      simp [hs] at this
  · exact h
  · rename_i hs
    exact withRxByte_inv h fun b t ht e => readDestinationByte_inv ht (e.trans hs) b
  · rename_i hs
    exact withRxByte_inv h fun b t ht e => readPayloadByte_inv ht (e.trans hs) b
  · rename_i hs
    exact withRxByte_inv h fun b t ht e => skipByte_inv ht (e.trans hs) b
  · rename_i hs
    exact stepEncode_inv h hs

end Sys2Proof.Machine
end

