-- ==== Sys2Proof/Laws/Line.lean ====
section
/-! SUPPORT. The law of the sink (R57), said once: the line never takes room away and never touches what
has been pushed; an operation pushes bytes, each lowering the room by exactly one. -/

namespace Sys2Proof.Machine

/-! ### What the line does -/

@[simp] theorem Line.setRoom_room (k : Nat) (l : Line) : (l.setRoom k).room = max l.room k := rfl
@[simp] theorem Line.setRoom_rxq (k : Nat) (l : Line) : (l.setRoom k).rxq = l.rxq := rfl
@[simp] theorem Line.setRoom_sink (k : Nat) (l : Line) : (l.setRoom k).sink = l.sink := rfl
@[simp] theorem Line.setRoom_sent (k : Nat) (l : Line) : (l.setRoom k).sent = l.sent := rfl
@[simp] theorem Line.setRoom_idle (k : Nat) (l : Line) : (l.setRoom k).idle = l.idle := rfl

theorem Line.arrive_room (d : Option Nat) (l : Line) (b : Byte) : (l.arrive d b).room = l.room := by
  unfold Line.arrive
  split <;> [rfl; (split <;> rfl)]

theorem foldl_arrive_room (d : Option Nat) (x : List Byte) (l : Line) :
    (x.foldl (Line.arrive d) l).room = l.room := by
  induction x generalizing l with
  | nil => rfl
  | cons b x ih => simp only [List.foldl_cons, ih, Line.arrive_room]

/-- Between operations `tx_room` may only stay or grow. -/
theorem lineAct_room_le (a : LineAction) (s : State) : s.line.room ≤ (lineAct a s).line.room := by
  cases a with
  | receive x =>
    simp only [lineAct]
    split
    · exact Nat.le_of_eq (foldl_arrive_room _ x s.line).symm
    · exact Nat.le_refl _
  | drain k => exact Nat.le_refl _
  | room k => exact Nat.le_max_left _ _
  | idle t => cases t <;> exact Nat.le_refl _

/-! ### What an operation does -/

/-- Between the two lines some bytes were pushed, each lowering the room by one. -/
def Line.Pushed (l m : Line) : Prop :=
  ∃ x, m.txs = l.txs ++ x ∧ m.room + x.length = l.room

theorem Line.Pushed.refl (l : Line) : l.Pushed l := ⟨[], by simp, rfl⟩

theorem Line.Pushed.trans {l m n : Line} (h : l.Pushed m) (k : m.Pushed n) : l.Pushed n := by
  obtain ⟨x, hx, hr⟩ := h
  obtain ⟨y, hy, hs⟩ := k
  exact ⟨x ++ y, by rw [hy, hx, List.append_assoc], by simp only [List.length_append]; omega⟩

theorem Line.push_pushed (b : Byte) {l : Line} (h : l.room ≠ 0) : l.Pushed (l.push b) := by
  obtain ⟨ht, _, _, hr⟩ := l.push_txs b
  exact ⟨[b], ht, by rw [hr]; simp only [List.length_singleton]; omega⟩

/-- Emptying or taking from `RXQ` pushes nothing. -/
theorem Line.rxq_pushed (q : List Byte) (l : Line) : l.Pushed { l with rxq := q } := ⟨[], by simp [Line.txs], rfl⟩

theorem pushOrStall_pushed (b : Byte) {f : State → State} (hf : ∀ t, (f t).line = t.line) (s : State) :
    s.line.Pushed (pushOrStall b f s).after.line := by
  obtain ⟨_, h⟩ | ⟨hr, h⟩ := pushOrStall_cases b f s <;> rw [h]
  · exact .refl _
  · rw [progress_after, hf]
    exact Line.push_pushed b hr

theorem withRxByte_pushed {f : Byte → State → StepOut} {s : State} (hs : s.state.receiving = true)
    (hf : ∀ b t, t.state.receiving = true → StaysReceiving t (f b t).after) :
    s.line.Pushed (withRxByte f s).after.line := by
  obtain ⟨_, h⟩ | ⟨b, q, _, h⟩ := withRxByte_cases f s <;> rw [h]
  · exact .refl _
  · rw [(hf b { s with line := { s.line with rxq := q } } hs).line]
    exact Line.rxq_pushed q s.line

theorem stepEncode_pushed (s : State) : s.line.Pushed (stepEncode s).after.line := by
  unfold stepEncode
  split
  · refine pushOrStall_pushed _ (fun t => ?_) s
    rfl
  · split
    · exact .refl _
    · unfold stepWriteDestination
      rw [progress_after, nextOfFour_line]
      exact .refl _
    · unfold stepWritePayload
      split <;> exact .refl _
    · unfold stepWriteCrc
      rw [progress_after, nextOfFour_line]
      exact .refl _
    · unfold stepFlush
      split
      · exact .refl _
      · refine pushOrStall_pushed _ (fun t => ?_) s
        rfl
      · split <;> exact .refl _

theorem microStep_pushed (s : State) : s.line.Pushed (microStep s).after.line := by
  unfold microStep
  cases hs : s.state
  · exact .refl _
  · exact withRxByte_pushed (by simp [hs, EngineState.receiving]) fun b _ h => readDestinationByte_receiving b h
  · exact withRxByte_pushed (by simp [hs, EngineState.receiving]) fun b _ h => readPayloadByte_receiving b h
  · exact withRxByte_pushed (by simp [hs, EngineState.receiving]) fun b _ h => skipByte_receiving b h
  · exact .refl _
  · exact stepEncode_pushed s

theorem pump_pushed (s : State) : s.line.Pushed (pump s).1.line :=
  pump_induct (P := fun t => s.line.Pushed t.line) (fun t h => h.trans (microStep_pushed t)) (.refl _)

end Sys2Proof.Machine
end

