-- ==== Sys2Proof/Laws/PerInstr.lean ====
section
/-! SUPPORT. One lemma per constructor of `Instr`, for statements about every operation. -/

/-! ### EncodeDecode: the parser reads an operation's own operand block back -/

/-- The parser gives a well-formed operation back from its code and its operand block. -/
def Sys2Proof.Laws.EncodeDecode.Statement (i : Sys2Proof.Instr) : Prop :=
  i.wellFormed = true → Sys2Proof.parse (Sys2Proof.opcode i) (Sys2Proof.operandBlock i) = some (some i)

namespace Sys2Proof.Laws.EncodeDecode

theorem pump : Statement .pump := fun _ => rfl
theorem stopRx : Statement .stopRx := fun _ => rfl
theorem startRx : Statement .startRx := fun _ => rfl
theorem startTx : Statement .startTx := fun _ => rfl
theorem release : Statement .release := fun _ => rfl
theorem resetPktcnt : Statement .resetPktcnt := fun _ => rfl
theorem busRd (addr : Addr) (n : Nat) : Statement (.busRd addr n) := by
  intro h
  show some (parseBusRd _) = _
  simp only [operandBlock, addrBytes, List.cons_append, List.nil_append, parseBusRd, parseAddr_addrBytes,
    Option.map_some, width_stored (of_decide_eq_true h)]
theorem busWr (addr : Addr) (n : Nat) (v : Word) : Statement (.busWr addr n v) := by
  intro h
  show some (parseBusWr _) = _
  simp only [operandBlock, addrBytes, Machine.le32, List.cons_append, List.nil_append, parseBusWr,
    parseAddr_addrBytes, Option.map_some, width_stored (of_decide_eq_true h), Machine.unle32_le32]
theorem step : Statement .step := fun _ => rfl
theorem cobsEncode (x : List Byte) : Statement (.cobsEncode x) := fun _ => rfl
theorem cobsDecode (w : List Byte) : Statement (.cobsDecode w) := fun _ => rfl
theorem decByte (rem : Byte) (pz : Bool) (b : Byte) : Statement (.decByte rem pz b) := by
  intro _
  show some (parseDecByte _) = _
  cases pz <;> simp [operandBlock, parseDecByte]
theorem decEnd (rem : Byte) : Statement (.decEnd rem) := fun _ => rfl
theorem encFeed (b : Byte) : Statement (.encFeed b) := fun _ => rfl
theorem encClose (code : Byte) : Statement (.encClose code) := by
  intro _
  show some (parseByte _ _) = _
  simp [operandBlock, parseByte]
theorem crcInit : Statement .crcInit := fun _ => rfl
theorem crcUpdate (c : Word) (b : Byte) : Statement (.crcUpdate c b) := by
  intro _
  show some (parseCrcUpdate _) = _
  simp [operandBlock, parseCrcUpdate, Machine.le32, Machine.unle32_le32]
theorem crcFinal (c : Word) : Statement (.crcFinal c) := by
  intro _
  show some (parseWord _ _) = _
  simp [operandBlock, parseWord, Machine.le32, Machine.unle32_le32]
theorem crc32 (x : List Byte) : Statement (.crc32 x) := fun _ => rfl
theorem crcVerify (c : Word) : Statement (.crcVerify c) := by
  intro _
  show some (parseWord _ _) = _
  simp [operandBlock, parseWord, Machine.le32, Machine.unle32_le32]
theorem serialize (dest : Word) (cmd idx : Byte) (payload : List Byte) :
    Statement (.serialize dest cmd idx payload) := by
  intro _
  show some (parseSerialize _) = _
  simp [operandBlock, parseSerialize, Machine.le32, Machine.unle32_le32]
theorem deserialize (w : List Byte) : Statement (.deserialize w) := fun _ => rfl

end Sys2Proof.Laws.EncodeDecode
end

