-- ==== Sys2Proof/Tests/Slice0.lean ====
section
/-! SUPPORT. Tests: ill-formed operations refused, one operation word per constructor decoded, one or two
results per operation (the vectors V<n> and P<n> of spec/95_test_vectors.md and the worked examples of the
rules), and a witness for the hypotheses of every statement. -/

namespace Sys2Proof.Tests

open Sys2Proof Sys2Proof.Machine

-- One theorem after the other: each waits for the kernel, and waiting in parallel takes a thread each.
set_option Elab.async false

/-! ### Helpers -/

/-- The next state of an outcome, if there is one. -/
def after (r : Result) : Option State :=
  match r with
  | .next t => some t
  | .fault _ => none
  | .refused _ => none

/-- The refusal of an outcome, if there is one. -/
def refusal (r : Result) : Option Refusal :=
  match r with
  | .next _ => none
  | .fault _ => none
  | .refused e => some e

/-- What the operation returns, if it completes. -/
def value (r : Result) : Option Value :=
  (after r).map fun t => t.out.value

/-- The operation some bytes decode to. -/
def read (x : List Byte) : Option Instr :=
  match decode x with
  | .ok i => some i
  | .error _ => none

/-- The filter of the spec's vectors: the node answers to 1 and to 0xFFFFFFFF. -/
def nodeFilter : Filter :=
  { mcastAddr := 0xFFFFFFFF#32
    mcastMask := 0xFFFFFFFF#32
    unicast := (Vector.replicate 16 0xFFFFFFFF#32).set 0 1#32 }

/-- A node in a given state. -/
def node (e : EngineState) : State :=
  { State.reset with state := e, rxEn := e.receiving, filter := nodeFilter }

/-- A node in a given state with received bytes waiting. -/
def node.waiting (e : EngineState) (x : List Byte) : State :=
  { node e with line := { Line.initial with rxq := x } }

/-- A node in `ReadDestination` one byte short of the destination 1. -/
def atFourth : State :=
  { node.waiting .readDestination [0x02#8] with
    rx :=
      { rem := 0#8, pz := true, crc := 0x017C4CDA#32, destBuf := #v[1#8, 0#8, 0#8, 0#8], destCnt := 3#3, bodyCnt := 0#11 } }

/-- A node in `ReadPayload` with `n` body bytes stored and `x` waiting. -/
def inPayload (n : BitVec 11) (rem : Byte) (crc : Word) (x : List Byte) : State :=
  { node.waiting .readPayload x with
    rx := { rem := rem, pz := true, crc := crc, destBuf := #v[1#8, 0#8, 0#8, 0#8], destCnt := 4#3, bodyCnt := n } }

/-- A stopped node with the packet of P3 to send, and room and an idle line. -/
def toSend : State :=
  { node .stopped with
    dest := 0#32
    pktLen := 4#11
    mem := [(0, 0x0C#8), (1, 0x00#8), (2, 0x2C#8), (3, 0x01#8)]
    line := { Line.initial with room := 1030, idle := true } }

/-- An encode pass at a stage and cursor, no block draining. -/
def sending (stage : EncStage) (src : BitVec 11) : State :=
  { toSend with state := .encode, encStage := stage, encSrc := src, txEn := true }

/-- An encode pass with a closed one-byte block draining and some room. -/
def draining (room : Nat) : State :=
  { sending .writePayload 0#11 with
    enc := { toSend.enc with fill := 0#8, dlen := 1#8, blk := toSend.enc.blk.setIfInBounds 0 1#8 }
    line := { Line.initial with room := room } }

/-- V30: the frame of an empty packet for node 1. -/
def v30 : List Byte :=
  [0x02#8, 0x01#8, 0x01#8, 0x01#8, 0x02#8, 0x0C#8, 0x05#8, 0x0A#8, 0x3D#8, 0x2B#8, 0xD6#8]

/-! ### Ill-formed operations -/

theorem test_wf_busRd_width_0 : (Instr.busRd 0#12 0).wellFormed = false := by decide
theorem test_wf_busRd_width_257 : (Instr.busRd 0#12 257).wellFormed = false := by decide
theorem test_wf_busWr_width_0 : (Instr.busWr 0#12 0 0#32).wellFormed = false := by decide
theorem test_wf_busWr_width_257 : (Instr.busWr 0#12 257 0#32).wellFormed = false := by decide

theorem test_decode_rejects_nothing : decode [] = .error .noCode := rfl
theorem test_decode_rejects_code_07 : decode [0x07#8] = .error (.unknownCode 0x07#8) := rfl
theorem test_decode_rejects_code_26 : decode [0x26#8, 0x00#8] = .error (.unknownCode 0x26#8) := rfl
theorem test_decode_rejects_extra_operand : decode [0x01#8, 0x00#8] = .error (.badOperands 0x01#8) := rfl
theorem test_decode_rejects_addr_above_12_bits :
    decode [0x10#8, 0x00#8, 0x10#8, 0x00#8] = .error (.badOperands 0x10#8) := rfl
theorem test_decode_width_5 : read [0x10#8, 0x00#8, 0x00#8, 0x04#8] = some (.busRd 0#12 5) := by decide
theorem test_decode_rejects_flag_2 :
    decode [0x22#8, 0x00#8, 0x02#8, 0x00#8] = .error (.badOperands 0x22#8) := rfl
theorem test_decode_decByte_zero : read [0x22#8, 0x00#8, 0x00#8, 0xFF#8] = some (.decByte 0#8 false 0#8) := by decide

/-! ### One word per constructor: codes from R81, operand blocks from assumption 2 -/

theorem test_decode_pump : decode [0x01#8] = .ok .pump := rfl
theorem test_decode_stopRx : decode [0x02#8] = .ok .stopRx := rfl
theorem test_decode_startRx : decode [0x03#8] = .ok .startRx := rfl
theorem test_decode_startTx : decode [0x04#8] = .ok .startTx := rfl
theorem test_decode_release : decode [0x05#8] = .ok .release := rfl
theorem test_decode_resetPktcnt : decode [0x06#8] = .ok .resetPktcnt := rfl
theorem test_decode_busRd : read [0x10#8, 0x10#8, 0x04#8, 0x03#8] = some (.busRd 0x410#12 4) := by decide
theorem test_decode_busWr :
    read [0x11#8, 0x40#8, 0x04#8, 0x03#8, 0x78#8, 0x56#8, 0x34#8, 0x12#8] = some (.busWr 0x440#12 4 0x12345678#32) := by
  decide
theorem test_decode_step : decode [0x18#8] = .ok .step := rfl
theorem test_decode_cobsEncode : decode [0x20#8, 0x11#8, 0x00#8] = .ok (.cobsEncode [0x11#8, 0x00#8]) := rfl
theorem test_decode_cobsDecode : decode [0x21#8, 0x02#8, 0x11#8] = .ok (.cobsDecode [0x02#8, 0x11#8]) := rfl
theorem test_decode_decByte : read [0x22#8, 0x02#8, 0x01#8, 0x10#8] = some (.decByte 0x02#8 true 0x11#8) := by decide
theorem test_decode_decEnd : read [0x23#8, 0x01#8] = some (.decEnd 0x01#8) := by decide
theorem test_decode_encFeed : decode [0x24#8, 0x11#8] = .ok (.encFeed 0x11#8) := rfl
theorem test_decode_encClose : read [0x25#8, 0xFE#8] = some (.encClose 0xFF#8) := by decide
theorem test_decode_crcInit : decode [0x28#8] = .ok .crcInit := rfl
theorem test_decode_crcUpdate :
    read [0x29#8, 0xCE#8, 0xFF#8, 0xFF#8, 0xFF#8, 0x31#8] = some (.crcUpdate 0xFFFFFFCE#32 0x31#8) := by decide
theorem test_decode_crcFinal :
    read [0x2A#8, 0x48#8, 0x10#8, 0x23#8, 0x7C#8] = some (.crcFinal 0x7C231048#32) := by decide
theorem test_decode_crc32 : decode [0x2B#8, 0x61#8] = .ok (.crc32 [0x61#8]) := rfl
theorem test_decode_crcVerify :
    read [0x2C#8, 0xE3#8, 0x20#8, 0xBB#8, 0xDE#8] = some (.crcVerify 0xDEBB20E3#32) := by decide
theorem test_decode_serialize :
    read [0x30#8, 0x01#8, 0x00#8, 0x00#8, 0x00#8, 0x0C#8, 0x00#8, 0x55#8] =
      some (.serialize 1#32 0x0C#8 0x00#8 [0x55#8]) := by decide
theorem test_decode_deserialize : decode [0x31#8, 0x01#8] = .ok (.deserialize [0x01#8]) := rfl
theorem test_tableWord_busRd : decodeTableWord 8 0x10 = some (.busRd 0#12 1) := by decide
theorem test_tableWord_unknown : decodeTableWord 8 0x32 = none := by decide

/-! ### Results of operations -/

/-- R141's worked example. -/
theorem test_pump_receives :
    (after (exec .pump (node.waiting .readDestination (v30 ++ [0#8])))).map
      (fun t => (t.cnt.good, t.dest, t.pktLen, t.pktValid, t.out.events)) =
        some (1#32, 1#32, 2#11, true, [.evRx]) := by
  decide +kernel

/-- P3: the frame of V32, 14 bytes. -/
theorem test_pump_sends :
    (after (exec .pump (sending .encoderStart 0#11))).map (fun t => (t.state, t.line.sent)) =
      some (.readDestination,
        [0x01#8, 0x01#8, 0x01#8, 0x01#8, 0x02#8, 0x0C#8, 0x07#8, 0x2C#8, 0x01#8, 0xE9#8, 0x3B#8, 0xC2#8, 0x61#8,
          0x00#8]) := by
  decide +kernel

/-- V62. -/
theorem test_stopRx_counts :
    (after (exec .stopRx (node.waiting .readPayload [0#8]))).map
      (fun t => (t.state, t.rxEn, t.line.rxq, t.cnt.rxInterrupted)) = some (.stopped, false, [], 1#32) := by
  decide +kernel
theorem test_stopRx_in_encode : refusal (exec .stopRx (node .encode)) = some .stopRxInEncode := by decide +kernel

theorem test_startRx_stopped : (after (exec .startRx (node .stopped))).map State.state = some .start := by
  decide +kernel
theorem test_startRx_elsewhere :
    (after (exec .startRx (node .readPayload))).map State.state = some .readPayload := by
  decide +kernel

/-- R170's worked example. -/
theorem test_startTx :
    (after (exec .startTx toSend)).map (fun t => (t.state, t.encStage)) = some (.encode, .encoderStart) := by
  decide +kernel
/-- V67. -/
theorem test_startTx_length_1017 :
    refusal (exec .startTx { toSend with pktLen := 1017#11 }) = some .startTxBadLength := by
  decide +kernel

theorem test_release :
    (after (exec .release { node .stopped with pktValid := true })).map State.pktValid = some false := by
  decide +kernel

/-- V65. -/
theorem test_resetPktcnt :
    (after (exec .resetPktcnt { node .encode with cnt := { Counters.zero with good := 7#32 } })).map
      (fun t => t.cnt.good) = some 0#32 := by
  decide +kernel

/-- V69. -/
theorem test_busRd_status :
    value (exec (.busRd 0x408#12 4) { node .readDestination with pktValid := true }) =
      some (.busData 4 0x181#32) := by
  decide +kernel
theorem test_busRd_hole : value (exec (.busRd 0x3FE#12 2) (node .start)) = some (.busData 2 0#32) := by
  decide +kernel

theorem test_busWr_stopped :
    (after (exec (.busWr 0x3FB#12 1 0x155#32) (node .stopped))).map (fun t => (pktRead t 1019, t.mem)) =
      some (0x55#8, [(1019, 0x55#8)]) := by
  decide +kernel
/-- V66. -/
theorem test_busWr_not_owned :
    refusal (exec (.busWr 0#12 1 0x55#32) (node .readDestination)) = some .busWriteNotOwned := by
  decide +kernel

/-- The code byte of V30's second block delivers the implied zero and completes the destination 1. -/
theorem test_step_completes_destination :
    (after (exec .step atFourth)).map (fun t => (t.state, t.dest, t.rx.crc, t.out.value)) =
      some (.readPayload, 1#32, 0x66074786#32, .stepped .progress) := by
  decide +kernel
theorem test_step_stalls :
    (after (exec .step (draining 0))).map (fun t => (t.encStalled, t.out.value)) =
      some (true, .stepped .blocked) := by
  decide +kernel

/-- V6. -/
theorem test_cobsEncode :
    value (exec (.cobsEncode [0x11#8, 0x00#8, 0x00#8, 0x33#8]) State.reset) =
      some (.bytes [0x02#8, 0x11#8, 0x01#8, 0x02#8, 0x33#8]) := by
  decide +kernel
/-- V8. -/
theorem test_cobsEncode_full_run :
    value (exec (.cobsEncode (List.replicate 254 0x01#8)) State.reset) =
      some (.bytes (0xFF#8 :: List.replicate 254 0x01#8 ++ [0x01#8])) := by
  decide +kernel

/-- V19d. -/
theorem test_cobsDecode :
    value (exec (.cobsDecode [0x05#8, 0x01#8, 0x02#8, 0x03#8, 0x04#8, 0x01#8, 0x01#8]) State.reset) =
      some (.bytes [0x01#8, 0x02#8, 0x03#8, 0x04#8, 0x00#8, 0x00#8]) := by
  decide +kernel
/-- V19c. -/
theorem test_cobsDecode_embedded_zero :
    value (exec (.cobsDecode [0x02#8, 0x11#8, 0x00#8, 0x01#8]) State.reset) = some (.error .malformed) := by
  decide +kernel

/-- R105: `FF` at a block's start. -/
theorem test_decByte_code :
    value (exec (.decByte 0#8 true 0xFF#8) State.reset) = some (.session 254#8 false (some 0#8)) := by
  decide +kernel
theorem test_decByte_literal :
    value (exec (.decByte 2#8 true 0x11#8) State.reset) = some (.session 1#8 true (some 0x11#8)) := by
  decide +kernel

/-- A zero byte, outside R105's operands: the operation completes. -/
theorem test_decByte_outside : (after (exec (.decByte 0#8 true 0#8) State.reset)).isSome = true := rfl

/-- R106's worked example. -/
theorem test_decEnd : value (exec (.decEnd 1#8) State.reset) = some (.error .malformed) := by decide +kernel

/-- R108's worked example, its last byte. -/
theorem test_encFeed_zero_closes :
    (after (exec (.encFeed 0#8)
      { State.reset with
        enc := ((State.reset.enc).literal 0x11#8).literal 0x22#8 })).map
      (fun t => t.enc.closedBlock) = some [0x03#8, 0x11#8, 0x22#8] := by
  decide +kernel
theorem test_encFeed_draining : refusal (exec (.encFeed 0#8) (draining 0)) = some .encFeedWhileDraining := by
  decide +kernel

/-- R109's worked example. -/
theorem test_encClose :
    (after (exec (.encClose 1#8) State.reset)).map (fun t => t.enc.closedBlock) = some [0x01#8] := by
  decide +kernel

theorem test_crcInit : value (exec .crcInit State.reset) = some (.word 0xFFFFFFFF#32) := by decide +kernel
/-- R122's worked example. -/
theorem test_crcUpdate :
    value (exec (.crcUpdate 0xFFFFFFFF#32 0x31#8) State.reset) = some (.word 0x7C231048#32) := by
  decide +kernel
/-- R123's worked example. -/
theorem test_crcFinal : value (exec (.crcFinal 0x7C231048#32) State.reset) = some (.word 0x83DCEFB7#32) := by
  decide +kernel
/-- V25. -/
theorem test_crc32 :
    value (exec (.crc32 [0x31#8, 0x32#8, 0x33#8, 0x34#8, 0x35#8, 0x36#8, 0x37#8, 0x38#8, 0x39#8]) State.reset) =
      some (.word 0xCBF43926#32) := by
  decide +kernel
/-- V26 and V29. -/
theorem test_crcVerify : value (exec (.crcVerify 0xDEBB20E3#32) State.reset) = some (.bool true) := by decide +kernel
theorem test_crcVerify_no_bytes : value (exec (.crcVerify 0xFFFFFFFF#32) State.reset) = some (.bool false) := by
  decide +kernel

/-- V33. -/
theorem test_serialize :
    value (exec (.serialize 1#32 0x0C#8 0x00#8 [0x55#8]) State.reset) =
      some (.frame
        [0x02#8, 0x01#8, 0x01#8, 0x01#8, 0x02#8, 0x0C#8, 0x04#8, 0x55#8, 0xD5#8, 0x88#8, 0x02#8, 0x29#8, 0x00#8]
        0x290088D5#32) := by
  decide +kernel
/-- V36. -/
theorem test_serialize_too_long :
    refusal (exec (.serialize 1#32 0x0C#8 0x00#8 (List.replicate 1015 0x77#8)) State.reset) =
      some .payloadTooLong := by
  decide +kernel

/-- V40. -/
theorem test_deserialize :
    value (exec (.deserialize v30) State.reset) =
      some (.packet { dest := 1#32, cmd := 0x0C#8, idx := 0x00#8, payload := [], crc := 0xD62B3D0A#32 }) := by
  decide +kernel
/-- V46. -/
theorem test_deserialize_bad_checksum :
    value (exec (.deserialize (v30.dropLast ++ [0xD7#8])) State.reset) = some (.error .badChecksum) := by
  decide +kernel

/-- The table word of `PUMP`, run as the first operation after reset: `Start` to `ReadDestination` (R272). -/
theorem test_first_pump :
    (after (step (State.reset.withFetchWord 8 0x01))).map (fun t => (t.state, t.rxEn, t.agenda)) =
      some (.readDestination, true, []) := by
  decide +kernel
/-- R56: bytes that arrive while the receiver is disabled are lost; R57: the sink drains in order. -/
theorem test_line_receive_disabled : (lineAct (.receive [1#8]) (node .stopped)).line.rxq = [] := by decide +kernel
/-- R57: `tx_room` grows between operations and is never taken away. -/
theorem test_line_room :
    (lineAct (.room 3) (node .encode)).line.room = 3 ∧ (lineAct (.room 3) toSend).line.room = 1030 := by
  decide +kernel
/-- R82: an entry that is no operation changes nothing. -/
theorem test_step_ignores_reserved_code :
    step { node .start with agenda := [.issue [0x07#8], .reset] } = .next { node .start with agenda := [.reset] } := rfl
theorem test_line_drain :
    (lineAct (.drain 1) { node .encode with line := { Line.initial with sink := [1#8, 2#8] } }).line =
      { Line.initial with sent := [1#8], sink := [2#8] } := by
  decide +kernel

/-! ### Witnesses: for every statement with hypotheses, states and operands that meet them, clause by clause -/

/-- `k` copies of the byte 1. -/
def ones (k : Nat) : List Byte :=
  List.replicate k 1#8

theorem witness_EncodeThenDecode :
    (Instr.busRd 0xFFF#12 256).wellFormed = true ∧ (Instr.busWr 0#12 1 0xFFFFFFFF#32).wellFormed = true ∧
    (Instr.decByte 255#8 true 0#8).wellFormed = true ∧ (Instr.decEnd 255#8).wellFormed = true ∧
    (Instr.encClose 0#8).wellFormed = true ∧ (Instr.cobsEncode []).wellFormed = true := by
  decide
theorem witness_DecodedBytesAreTheEncoding :
    decode [0x01#8] = .ok .pump ∧ decode [0x20#8, 0x00#8] = .ok (.cobsEncode [0x00#8]) := ⟨rfl, rfl⟩
theorem witness_CodesOutsideTheTableAreRejected :
    let table := [0x01, 0x02, 0x03, 0x04, 0x05, 0x06, 0x10, 0x11, 0x18, 0x20, 0x21, 0x22, 0x23, 0x24, 0x25,
      0x28, 0x29, 0x2A, 0x2B, 0x2C, 0x30, 0x31]
    0x00 ∉ table ∧ 0x07 ∉ table ∧ 0x32 ∉ table ∧ 0xFF ∉ table ∧ 0x01 ∈ table ∧ 0x31 ∈ table := by
  decide
theorem witness_StepRunsTheIssuedOperation :
    ({ State.reset with agenda := [.issue [0x01#8], .reset] }).agenda = .issue [0x01#8] :: [.reset] ∧
    decode [0x01#8] = .ok .pump ∧ encode .pump = [0x01#8] ∧ Instr.wellFormed .pump = true :=
  ⟨rfl, rfl, rfl, rfl⟩
theorem witness_StepFollowsTheAgenda :
    State.reset.agenda = [] ∧ decode [0x07#8] = .error (.unknownCode 0x07#8) ∧
    ({ State.reset with agenda := [.issue [0x07#8]] }).agenda = .issue [0x07#8] :: [] ∧
    ({ State.reset with agenda := [.line (.room 3)] }).agenda = .line (.room 3) :: [] ∧
    ({ State.reset with agenda := [.reset] }).agenda = .reset :: [] :=
  ⟨rfl, rfl, rfl, rfl, rfl⟩
theorem witness_ReceivedBytesJoinTheQueue :
    (node .stopped).rxEn = false ∧
    ((node .readPayload).rxEn = true ∧ (node .readPayload).params.rxqDepth = none) ∧
    ({ node .readPayload with params := { Config.defaultParams with rxqDepth := some 1 } }).params.rxqDepth = some 1 := by
  decide +kernel
theorem witness_LineKeepsTheTransmittedStream :
    toSend.line.room ≤ 1030 ∧ (after (exec .step (draining 1))).map (fun t => (t.line.txs, t.line.room)) = some ([1#8], 0) := by
  decide +kernel
theorem witness_EveryStepKeepsTheInvariant :
    (node .readDestination).Inv ∧ step (node .readDestination) = .next (node .readDestination) := by
  refine ⟨?_, rfl⟩
  constructor <;>
    simp [node, State.reset, State.afterReset, EngineState.receiving, EncSession.cursorsInRange, Line.initial,
      Config.defaultParams]
  exact Memory.wf_nil
theorem witness_OneByteErrorChangesTheCrc : (0x00#8 : Byte) ≠ 0x80#8 := by decide
theorem witness_CrcUpdateRule : (0x80000000#32 : Word) ≠ 0#32 := by decide
theorem witness_CobsEncodeByBlocks :
    0#8 ∉ ones 0 ∧ 0#8 ∉ ones 253 ∧ (ones 253).length < 254 ∧ 0#8 ∉ ones 254 ∧ (ones 254).length = 254 := by
  decide +kernel
theorem witness_CobsDecodeByBlocks :
    0#8 ∉ ones 253 ∧ (ones 253).length < 254 ∧ 0#8 ∉ ones 254 ∧ (ones 254).length = 254 ∧ [1#8] ≠ ([] : List Byte) ∧
    (ones 253).length + 1 < (255#8 : Byte).toNat ∧ ([] : List Byte).length + 1 < (2#8 : Byte).toNat := by
  decide +kernel
theorem witness_StreamingDecoderSteps :
    (1#8 : Byte) ≠ 0#8 ∧ (255#8 : Byte) ≠ 0#8 ∧ (0#8 : Byte) = 0#8 ∧ (1#8 : Byte) ≠ 0#8 ∧
    (254#8 : Byte) ≠ 0#8 ∧ (254#8 : Byte) ≠ 255#8 := by
  decide
theorem witness_StreamingDecoderMatchesOnePass : 0#8 ∉ ([0x03#8, 0x11#8] : List Byte) := by decide
theorem witness_EncFeedAndClose :
    (State.reset.enc.dlen = 0#8 ∧ State.reset.enc.fill.toNat < 253) ∧
    (252#8 : Byte).toNat < 253 ∧ (253#8 : Byte).toNat = 253 ∧ (253#8 : Byte).toNat ≤ 253 ∧ (draining 0).enc.dlen ≠ 0#8 ∧
    (254#8 : Byte).toNat ≤ 254 ∧ (draining 0).enc.fill.toNat ≤ 254 := by
  decide +kernel
theorem witness_SerializeRule :
    (ones 1014).length ≤ 1014 ∧ ([] : List Byte).length ≤ 1014 ∧
    State.reset.params.destByteOrder = .little := by
  decide +kernel
theorem witness_SerializeStopsOnLongPayload : 1014 < (ones 1015).length := by decide +kernel
theorem witness_SerializeDeserializeRoundTrip : (ones 1014).length ≤ 1014 := by decide +kernel
theorem witness_DeserializeOutcomes_malformed :
    cobsDecode [0x02#8] = none ∧ (cobsDecode (cobsEncode (ones 9))).map List.length = some 9 := by
  decide +kernel
/-- Four full blocks and one of nine literals: 1025 bytes. -/
theorem witness_DeserializeOutcomes_too_long :
    (cobsDecode (255#8 :: (ones 254 ++ 255#8 :: (ones 254 ++ 255#8 :: (ones 254 ++ 255#8 :: (ones 254 ++
      10#8 :: ones 9)))))).map List.length = some 1025 := by
  have h0 : 0#8 ∉ ones 254 := by decide +kernel
  have h : (ones 254).length = 254 := by decide +kernel
  have h9 : cobsDecode (10#8 :: ones 9) = some (ones 9) := by decide +kernel
  simp only [cobsDecode_full _ _ h0 h, h9, Option.map_some, List.length_append, h]
  rfl
theorem witness_DeserializeOutcomes_checked :
    (cobsDecode v30).map crcOf = some 0x2144DF1C#32 ∧ (cobsDecode v30).map List.length = some 10 ∧
    (cobsDecode (v30.dropLast ++ [0xD7#8])).map List.length = some 10 ∧
    (cobsDecode (v30.dropLast ++ [0xD7#8])).map (fun x => crcOf x == 0x2144DF1C#32) = some false := by
  decide +kernel
theorem witness_BusReadValues :
    (0x3FB#12 : Addr).toNat ≤ 0x3FB ∧ 0x3FC ≤ (0x3FC#12 : Addr).toNat ∧ (0x3FF#12 : Addr).toNat ≤ 0x3FF ∧
    0x488 ≤ (0x488#12 : Addr).toNat ∧ 0x488 ≤ (0xFFF#12 : Addr).toNat ∧
    (0x424 ≤ (0x43C#12 : Addr).toNat ∧ (0x43C#12 : Addr).toNat ≤ 0x43C ∧ (0x43C#12 : Addr).toNat % 4 = 0) ∧
    (0x424#12 : Addr).toNat % 4 = 0 := by
  decide
theorem witness_BusWritesToThePacket :
    (node .stopped).state = .stopped ∧ (0x3FB#12 : Addr).toNat ≤ 0x3FB ∧ (node .readPayload).state ≠ .stopped ∧
    (node .encode).state ≠ .stopped := by
  decide +kernel
theorem witness_BusWritesInEveryState :
    (0x408#12 : Addr).toNat = 0x408 ∧
    (0x410 ≤ (0x410#12 : Addr).toNat ∧ (0x410#12 : Addr).toNat ≤ 0x43C ∧ (0x410#12 : Addr).toNat % 4 = 0) ∧
    ((0x43C#12 : Addr).toNat ≤ 0x43C ∧ (0x43C#12 : Addr).toNat % 4 = 0) ∧ 0x3FC ≤ (0x3FC#12 : Addr).toNat ∧
    (0x3FF#12 : Addr).toNat ≤ 0x3FF ∧ 0x488 ≤ (0x488#12 : Addr).toNat := by
  decide
theorem witness_CommandRegister :
    [0xFFFFFF01#32, 0x102#32, 0x03#32, 0x04#32, 0x05#32, 0x06#32, 0x100#32, 0x07#32, 0xFF#32].map
      (fun v : Word => v.toNat % 256) = [0x01, 0x02, 0x03, 0x04, 0x05, 0x06, 0, 7, 255] := by
  decide
theorem witness_CountersNeverDecrease :
    (0xFFFFFFFE#32 : Word) ≠ 0xFFFFFFFF#32 ∧ (node .start).params.cntOverflow = .saturate ∧
    (after (exec .pump (node .start))).isSome = true ∧ Instr.pump ≠ .resetPktcnt ∧
    (after (exec (.busWr 0x40C#12 4 5#32) (node .start))).isSome = true := by
  decide +kernel
theorem witness_CounterCauses_step :
    (let s := inPayload 6#11 0#8 0xDEBB20E3#32 [0#8]
     s.state = .readPayload ∧ s.line.rxq.head? = some 0#8 ∧ s.rx.rem = 0#8 ∧ 6 ≤ s.rx.bodyCnt.toNat ∧
       s.rx.crc = 0xDEBB20E3#32) ∧
    (let s := inPayload 1020#11 0#8 0#32 [2#8]
     s.rx.bodyCnt.toNat = 1020 ∧ (decByte s.rx.rem s.rx.pz 2#8).out = some 0#8) ∧
    (let s := { atFourth with pktValid := true }
     s.rx.destCnt = 3#3 ∧ s.pktValid = true ∧ (decByte s.rx.rem s.rx.pz 2#8).out = some 0#8 ∧
       s.fourthMatches 0#8 = true) ∧
    (after (exec .step (node .stopped))).isSome = true := by
  decide +kernel
/-- The cut block in both states, the short body, the wrong residue. -/
theorem witness_CounterCauses_errors :
    (let s := node.waiting .readDestination [0#8]
     let cut := { s with rx := { s.rx with rem := 254#8 } }
     cut.state = .readDestination ∧ cut.line.rxq.head? = some 0#8 ∧ cut.rx.rem ≠ 0#8 ∧
       (after (exec .step cut)).map (fun t => t.cnt.malformed) = some 1#32) ∧
    (let s := inPayload 6#11 1#8 0xDEBB20E3#32 [0#8]
     s.state = .readPayload ∧ s.line.rxq.head? = some 0#8 ∧ s.rx.rem ≠ 0#8 ∧
       (after (exec .step s)).map (fun t => t.cnt.malformed) = some 1#32) ∧
    (let s := inPayload 5#11 0#8 0xDEBB20E3#32 [0#8]
     s.state = .readPayload ∧ s.line.rxq.head? = some 0#8 ∧ s.rx.rem = 0#8 ∧ s.rx.bodyCnt.toNat < 6 ∧
       (after (exec .step s)).map (fun t => t.cnt.malformed) = some 1#32) ∧
    (let s := inPayload 6#11 0#8 0#32 [0#8]
     s.state = .readPayload ∧ s.line.rxq.head? = some 0#8 ∧ s.rx.rem = 0#8 ∧ 6 ≤ s.rx.bodyCnt.toNat ∧
       s.rx.crc ≠ 0xDEBB20E3#32 ∧ (after (exec .step s)).map (fun t => t.cnt.badCrc) = some 1#32) := by
  decide +kernel
theorem witness_CounterCauses_others :
    (after (exec .stopRx (node.waiting .start [1#8]))).isSome = true ∧
    (after (exec .stopRx (node .stopped))).isSome = true ∧ (after (exec .pump (node .start))).isSome = true ∧
    (after (exec (.busWr 0x40C#12 4 1#32) (node .start))).isSome = true ∧
    (after (exec (.busWr 0x40C#12 4 0x106#32) (node .start))).isSome = true ∧
    (after (exec (.busWr 0x40C#12 4 2#32) (node.waiting .start [1#8]))).map (fun t => t.cnt.rxInterrupted) = some 1#32 ∧
    (after (exec (.busWr 0x40C#12 4 7#32) (node .start))).isSome = true ∧
    (after (exec .release (node .start))).isSome = true := by
  decide +kernel
/-- The commands as `CMD` values, and an operation that issues none of them. -/
theorem witness_issues :
    issues .pump .pump 1 ∧ issues (.busWr 0x40C#12 4 0x102#32) .stopRx 2 ∧
    ¬ issues .release .pump 1 ∧ ¬ issues (.busWr 0x440#12 4 1#32) .pump 1 ∧ ¬ issues (.busWr 0x40C#12 4 2#32) .pump 1 := by
  refine ⟨.inl rfl, .inr ⟨4, _, rfl, rfl⟩, ?_, ?_, ?_⟩ <;> simp [issues]
theorem witness_StopRxRule :
    (node .encode).state = .encode ∧ (node .stopped).state = .stopped ∧ (node .start).state ≠ .encode ∧
    (node.waiting .readPayload [1#8]).state ≠ .stopped ∧ (node.waiting .readPayload [1#8]).line.rxq ≠ [] := by
  decide +kernel
theorem witness_StartRxRule : (node .stopped).state = .stopped ∧ (node .encode).state ≠ .stopped := by decide +kernel
theorem witness_StartTxRule :
    toSend.state = .stopped ∧ 2 ≤ (2#11 : BitVec 11).toNat ∧ (1016#11 : BitVec 11).toNat ≤ 1016 ∧
    (1#11 : BitVec 11).toNat < 2 ∧ 1016 < (1017#11 : BitVec 11).toNat ∧ (node .start).state ≠ .stopped := by
  decide +kernel
theorem witness_StepInStartAndStopped : (node .start).state = .start ∧ (node .stopped).state = .stopped := by
  decide +kernel
theorem witness_StepReadsTheDestination_early :
    (node .readDestination).line.rxq = [] ∧ (node.waiting .readDestination [0#8]).rx.rem = 0#8 ∧
    ({ atFourth with rx := { atFourth.rx with rem := 254#8 } }).rx.rem ≠ 0#8 ∧
    (decByte 0#8 false 1#8).out = none ∧ (decByte 2#8 true 1#8).out = some 1#8 ∧
    (node .readDestination).rx.destCnt ≠ 3#3 := by
  decide +kernel
theorem witness_StepReadsTheDestination_fourth :
    atFourth.state = .readDestination ∧ atFourth.line.rxq = 2#8 :: [] ∧
    (decByte atFourth.rx.rem atFourth.rx.pz 2#8).out = some 0#8 ∧ atFourth.rx.destCnt = 3#3 ∧
    matchDest atFourth.params atFourth.filter 1#32 = true ∧ matchDest atFourth.params atFourth.filter 2#32 = false ∧
    destOfBytes .little 1#8 0#8 0#8 0#8 = 1#32 ∧ atFourth.pktValid = false := by
  decide +kernel
theorem witness_DefaultAddressMatch : State.reset.params.matchFn = .standard := rfl
theorem witness_StepReadsThePayload_end :
    ((node .readPayload).state = .readPayload ∧ (node .readPayload).line.rxq = []) ∧
    (inPayload 6#11 1#8 0#32 [0#8]).rx.rem ≠ 0#8 ∧ (inPayload 5#11 0#8 0#32 [0#8]).rx.bodyCnt.toNat < 6 ∧
    (6 ≤ (inPayload 6#11 0#8 0#32 [0#8]).rx.bodyCnt.toNat ∧ (inPayload 6#11 0#8 0#32 [0#8]).rx.crc ≠ 0xDEBB20E3#32) ∧
    (inPayload 1020#11 0#8 0xDEBB20E3#32 [0#8]).rx.crc = 0xDEBB20E3#32 ∧
    (inPayload 6#11 0#8 0#32 [0#8]).state = .readPayload ∧ (inPayload 6#11 0#8 0#32 [0#8]).line.rxq = 0#8 :: [] := by
  decide +kernel
theorem witness_StepReadsThePayload_byte :
    (decByte 0#8 false 255#8).out = none ∧ (decByte 0#8 true 255#8).out = some 0#8 ∧
    (inPayload 1020#11 0#8 0#32 [2#8]).rx.bodyCnt.toNat = 1020 ∧
    (inPayload 1019#11 0#8 0#32 [2#8]).rx.bodyCnt.toNat ≠ 1020 := by
  decide +kernel
theorem witness_SkipDiscardsToTheDelimiter :
    (node .skipCurrentPacket).state = .skipCurrentPacket ∧ (node .skipCurrentPacket).line.rxq = [] ∧
    (node.waiting .skipCurrentPacket [0x11#8, 0x22#8, 0x00#8, 0x02#8]).line.rxq =
      [0x11#8, 0x22#8, 0x00#8, 0x02#8] ∧
    (node.waiting .skipCurrentPacket [0#8]).line.rxq = 0#8 :: [] := by
  decide +kernel
theorem witness_DelimiterResynchronises :
    (node.waiting .readPayload [0#8]).state.receiving = true ∧
    (node.waiting .readDestination [0#8]).state.receiving = true ∧
    (node.waiting .skipCurrentPacket [0#8, 1#8]).line.rxq = 0#8 :: [1#8] := by
  decide +kernel
theorem witness_StepDrains :
    (draining 0).state = .encode ∧ (draining 0).enc.dlen ≠ 0#8 ∧ (draining 0).line.room = 0 ∧
    (draining 1).line.room ≠ 0 ∧ (draining 1).enc.out + 1#8 = (draining 1).enc.dlen ∧
    (after (exec .step (draining 1))).map (fun t => t.line.txs) = some [1#8] ∧ (draining 1).line.txs = [] := by
  decide +kernel
theorem witness_StepDrains_stall :
    ¬ issues .step .pump 1 ∧ (draining 0).encStalled = false ∧
    (after (exec .step (draining 0))).map (fun t => t.encStalled) = some true ∧
    (let s := { sending .flush 1#11 with line := Line.initial }
     s.encStalled = false ∧ (after (exec .step s)).map (fun t => t.encStalled) = some true) := by
  refine ⟨by simp [issues], ?_⟩
  decide +kernel
theorem witness_StepEncodes :
    (sending .encoderStart 0#11).state = .encode ∧ (sending .encoderStart 0#11).enc.dlen = 0#8 ∧
    (destBytes .little 0#32)[3]? = some 0#8 ∧ (destBytes .little 0#32)[0]? = some 0#8 ∧
    (sending .writePayload 4#11).encSrc = (sending .writePayload 4#11).pktLen ∧
    (sending .writePayload 3#11).encSrc ≠ (sending .writePayload 3#11).pktLen ∧
    (le32 0x61C23BE9#32)[3]? = some 0x61#8 ∧ (sending .flush 1#11).line.room ≠ 0 ∧
    ({ sending .flush 1#11 with line := Line.initial }).line.room = 0 ∧ (sending .flush 2#11).line.idle = true ∧
    ({ sending .flush 2#11 with line := Line.initial }).line.idle = false ∧ (sending .flush 0#11).encSrc = 0#11 := by
  decide +kernel
theorem witness_EnableBits :
    (node .readDestination).Inv ∧ (after (exec .step (node .readDestination))).isSome = true :=
  ⟨witness_EveryStepKeepsTheInvariant.1, rfl⟩
theorem witness_EnableBits_flush_inv : (sending .flush 2#11).Inv := by
  constructor <;>
    simp [sending, toSend, node, State.reset, State.afterReset, EngineState.receiving, EncSession.cursorsInRange,
      Line.initial, Config.defaultParams, cursorInRange]
  exact ⟨by decide, by decide⟩
theorem witness_EnableBits_flush :
    let s := sending .flush 2#11
    s.state = .encode ∧ s.enc.dlen = 0#8 ∧ s.encStage = .flush ∧ s.encSrc = 2#11 ∧ s.line.idle = true ∧
    (after (exec .step s)).map (fun t => (t.rxEn, t.txEn)) = some (true, false) := by
  decide +kernel
theorem witness_StepFrame :
    (node .encode).state ≠ .readDestination ∧ (node .encode).state ≠ .readPayload ∧ (node .encode).state = .encode ∧
    (node .start).state ≠ .encode ∧ (node .readPayload).state.receiving = true ∧
    ¬ ((inPayload 7#11 0#8 0#32 []).state = .readPayload ∧ 8 = (inPayload 7#11 0#8 0#32 []).rx.bodyCnt.toNat) := by
  decide +kernel
theorem witness_BlockedStepChangesNothing :
    (after (exec .step (node .stopped))).map (fun t => t.out.value) = some (.stepped .blocked) ∧
    ((after (exec .step { draining 0 with encStalled := true })).map fun t => t.out.value) =
      some (.stepped .blocked) := by
  decide +kernel
/-- An operation with its premise, and each transition of a receive state under its condition. -/
theorem witness_StateTransitions :
    (¬ issues .startTx .pump 1 ∧ (after (exec .startTx toSend)).isSome = true) ∧
    (let s := { atFourth with filter := { nodeFilter with unicast := Vector.replicate 16 0xFFFFFFFF#32 } }
     s.delivers 0#8 ∧ s.fourthMatches 0#8 = false ∧
       (after (exec .step s)).map (fun t => t.state) = some .skipCurrentPacket) ∧
    (let s := { atFourth with pktValid := true }
     s.delivers 0#8 ∧ s.fourthMatches 0#8 = true ∧
       (after (exec .step s)).map (fun t => t.state) = some .skipCurrentPacket) ∧
    (atFourth.delivers 0#8 ∧ atFourth.fourthMatches 0#8 = true ∧
       (after (exec .step atFourth)).map (fun t => t.state) = some .readPayload) ∧
    (let s := inPayload 1020#11 0#8 0#32 [2#8]
     s.delivers 0#8 ∧ (after (exec .step s)).map (fun t => t.state) = some .skipCurrentPacket) := by
  refine ⟨⟨by simp [issues], by decide +kernel⟩, ⟨⟨2#8, [], rfl, by decide, by decide +kernel⟩, ?_⟩,
    ⟨⟨2#8, [], rfl, by decide, by decide +kernel⟩, ?_⟩, ⟨⟨2#8, [], rfl, by decide, by decide +kernel⟩, ?_⟩,
    ⟨⟨2#8, [], rfl, by decide, by decide +kernel⟩, ?_⟩⟩ <;>
    decide +kernel
theorem witness_StateTransitions_encode :
    (sending .encoderStart 0#11).state = .encode ∧
    (after (exec .step (sending .encoderStart 0#11))).map (fun t => (t.state, t.encStage)) =
      some (.encode, .writeDestination) ∧
    (after (exec .step (sending .flush 2#11))).map (fun t => t.state) = some .readDestination := by
  decide +kernel
theorem witness_HeldPacketIsKept :
    ({ node .readDestination with pktValid := true }).pktValid = true ∧ (node .readDestination).state ≠ .readPayload ∧
    (after (exec .pump { node .readDestination with pktValid := true })).isSome = true ∧ isBusWrite .pump = false ∧
    Instr.pump ≠ .release := by
  decide +kernel
theorem witness_FilterChangesByBusWritesAlone :
    (after (exec (.busWr 0x43C#12 4 1#32) (node .start))).isSome = true ∧ (0x43C#12 : Addr).toNat < 0x440 ∧
    0x488 ≤ (0x488#12 : Addr).toNat := by
  decide +kernel
theorem witness_BufferFrame :
    (after (exec (.busWr 5#12 1 1#32) (node .stopped))).isSome = true ∧ busTarget 5#12 1 ≠ .buf 6 ∧
    (5#12 : Addr) ≠ 0x40C#12 := by
  decide +kernel
theorem witness_EncodePassIsNotAborted :
    (node .encode).state = .encode ∧ (after (exec .release (node .encode))).isSome = true := by
  decide +kernel
theorem witness_EncodePassSendsTheFrame :
    toSend.state = .stopped ∧ toSend.line.rxq = [] ∧ 2 ≤ toSend.pktLen.toNat ∧ toSend.pktLen.toNat ≤ 1016 ∧
    1030 ≤ toSend.line.room ∧ toSend.line.idle = true ∧ toSend.rxEn = false := by
  decide +kernel
/-- R181's worked example: room for three bytes at the first `PUMP`. -/
def stallsAfterThree : State :=
  beginEncode { toSend with line := { Line.initial with room := 3 } }
/-- That pass stalled, and then a state in which the rest finds room and the line is idle. -/
theorem witness_EncodePassSendsTheFrame_stalled :
    ∃ u, EncodeRun stallsAfterThree u ∧ u.state = .encode ∧ u.encStalled = true ∧ u.encStage = .writePayload ∧
      u.enc.dlen = 1#8 ∧ u.line.txs = [1#8, 1#8, 1#8] :=
  ⟨_, .issue .pump rfl (.inl rfl) rfl (.refl _), by decide +kernel, by decide +kernel, by decide +kernel,
    by decide +kernel, by decide +kernel⟩
theorem witness_EncodePassSendsTheFrame_resumed :
    ∃ u, EncodeRun stallsAfterThree u ∧ u.state = .readDestination ∧ u.line.txs.length = 14 :=
  ⟨_, .issue .pump rfl (.inl rfl) rfl (.line (.room 11) (by decide +kernel) (.line (.idle true) (by decide +kernel)
    (.issue .pump (by decide +kernel) (.inl rfl) rfl (.refl _)))), by decide +kernel, by decide +kernel⟩
/-- The frame is V30, for the node; the cases of a short frame, of no match and of a pending packet. -/
theorem witness_FrameNotTaken :
    (let s := { node.waiting .readDestination (v30 ++ [0#8]) with pktValid := true }
     s.state = .readDestination ∧ s.rx.isFresh ∧ 0#8 ∉ v30 ∧ s.line.rxq = v30 ++ [0#8] ∧ s.pktValid = true ∧
       matchDest s.params s.filter 1#32 = true) ∧
    (streamDecode 0#8 false v30).1.take 4 = [1#8, 0#8, 0#8, 0#8] ∧
    matchDest Config.defaultParams nodeFilter 2#32 = false ∧
    (streamDecode 0#8 false [2#8, 1#8]) = ([1#8], 0#8, true) ∧ (streamDecode 0#8 false [5#8, 1#8]).2.1 ≠ 0#8 := by
  decide +kernel
theorem witness_FrameRejected :
    (let s := node.waiting .readDestination (v30.dropLast ++ [0xD7#8, 0#8])
     s.state = .readDestination ∧ s.rx.isFresh ∧ s.pktValid = false ∧ 0#8 ∉ v30.dropLast ++ [0xD7#8] ∧
       s.line.rxq = (v30.dropLast ++ [0xD7#8]) ++ [0#8] ∧
       matchDest s.params s.filter 1#32 = true ∧
       value (exec (.deserialize (v30.dropLast ++ [0xD7#8])) s) = some (.error .badChecksum) ∧
       value (exec (.deserialize v30.dropLast) s) = some (.error .malformed)) ∧
    (streamDecode 0#8 false (v30.dropLast ++ [0xD7#8])).1.length = 10 := by
  decide +kernel
theorem witness_FrameAccepted :
    let s := node.waiting .readDestination (v30 ++ [0#8])
    s.state = .readDestination ∧ s.rx.isFresh ∧ s.pktValid = false ∧ s.line.rxq = v30 ++ [0#8] ∧
    value (exec (.deserialize v30) s) =
      some (.packet { dest := 1#32, cmd := 0x0C#8, idx := 0x00#8, payload := [], crc := 0xD62B3D0A#32 }) ∧
    matchDest s.params s.filter 1#32 = true := by
  decide +kernel
theorem witness_BackToBackFramesOverrun :
    let s := node.waiting .readDestination (v30 ++ [0#8] ++ (v30 ++ [0#8]))
    s.state = .readDestination ∧ s.rx.isFresh ∧ s.pktValid = false ∧ ([] : List Byte).length ≤ 1014 ∧
    matchDest s.params s.filter 1#32 = true ∧ (serialize .little 1#32 0x0C#8 0x00#8 []).1 = v30 ++ [0#8] ∧
    s.line.rxq = v30 ++ [0#8] ++ (v30 ++ [0#8]) := by
  decide +kernel
theorem witness_PumpIgnoresArrivalGrouping :
    (node .readDestination).state.receiving = true ∧ (node .readDestination).rxEn = true ∧
    (node .readDestination).params.rxqDepth = none ∧ (node .readDestination).line.rxq = [] := by
  decide +kernel

end Sys2Proof.Tests
end

section
/-! PROOF. The family of spec/00_scope.md: a step performs the next entry of the agenda (O5, O6), and a
blocked micro-step changes nothing but possibly `enc_stalled` (O47). -/

namespace Sys2Proof

/-! ### An operation's own bytes decode to it -/

/-- The parser gives every well-formed operation back: the per-operation lemmas put together. -/
theorem parse_operandBlock (i : Instr) : Laws.EncodeDecode.Statement i :=
  match i with
  | .pump => Laws.EncodeDecode.pump
  | .stopRx => Laws.EncodeDecode.stopRx
  | .startRx => Laws.EncodeDecode.startRx
  | .startTx => Laws.EncodeDecode.startTx
  | .release => Laws.EncodeDecode.release
  | .resetPktcnt => Laws.EncodeDecode.resetPktcnt
  | .busRd addr n => Laws.EncodeDecode.busRd addr n
  | .busWr addr n v => Laws.EncodeDecode.busWr addr n v
  | .step => Laws.EncodeDecode.step
  | .cobsEncode x => Laws.EncodeDecode.cobsEncode x
  | .cobsDecode w => Laws.EncodeDecode.cobsDecode w
  | .decByte rem pz b => Laws.EncodeDecode.decByte rem pz b
  | .decEnd rem => Laws.EncodeDecode.decEnd rem
  | .encFeed b => Laws.EncodeDecode.encFeed b
  | .encClose code => Laws.EncodeDecode.encClose code
  | .crcInit => Laws.EncodeDecode.crcInit
  | .crcUpdate c b => Laws.EncodeDecode.crcUpdate c b
  | .crcFinal c => Laws.EncodeDecode.crcFinal c
  | .crc32 x => Laws.EncodeDecode.crc32 x
  | .crcVerify c => Laws.EncodeDecode.crcVerify c
  | .serialize dest cmd idx payload => Laws.EncodeDecode.serialize dest cmd idx payload
  | .deserialize w => Laws.EncodeDecode.deserialize w

theorem decode_encode {i : Instr} (h : i.wellFormed = true) : decode (encode i) = .ok i := by
  simp [decode, encode, parse_operandBlock i h]

end Sys2Proof

namespace Sys2Proof.Machine

/-! ### One step, by the next entry of the agenda -/

theorem step_of_agenda_nil {s : State} (ha : s.agenda = []) : step s = .next s := by
  simp [step, ha]

theorem step_of_operation {s : State} {bytes : List Byte} {rest : List Entry} {i : Instr}
    (ha : s.agenda = .issue bytes :: rest) (hd : decode bytes = .ok i) :
    step s = exec i { s with agenda := rest } := by
  simp [step, ha, hd]

theorem step_of_undecodable {s : State} {bytes : List Byte} {rest : List Entry} {e : DecodeError}
    (ha : s.agenda = .issue bytes :: rest) (hd : decode bytes = .error e) :
    step s = .next { s with agenda := rest } := by
  simp [step, ha, hd]

theorem step_of_line {s : State} {a : LineAction} {rest : List Entry} (ha : s.agenda = .line a :: rest) :
    step s = .next (lineAct a { s with agenda := rest }) := by
  simp [step, ha]

theorem step_of_reset {s : State} {rest : List Entry} (ha : s.agenda = .reset :: rest) :
    step s = .next (resetCore { s with agenda := rest }) := by
  simp [step, ha]

/-! ### The reset input (R46, R270, R271) -/

theorem State.afterReset_atResetValues (epoch : Nat) (line : Line) (agenda : List Entry) (params : Params) :
    (State.afterReset epoch line agenda params).atResetValues := by
  simp [State.atResetValues, State.afterReset, RxSession.isFresh]

theorem resetCore_atResetValues (s : State) : (resetCore s).atResetValues :=
  State.afterReset_atResetValues _ _ _ _

@[simp] theorem resetCore_agenda (s : State) : (resetCore s).agenda = s.agenda := rfl
@[simp] theorem resetCore_line (s : State) : (resetCore s).line = s.line := rfl
@[simp] theorem resetCore_params (s : State) : (resetCore s).params = s.params := rfl

/-! ### Which micro-steps can block (R12)

With a received byte at hand a micro-step always moves; without one it answers `blocked` on the state as it
is. Only a push without room sets `enc_stalled`. -/

theorem readDestinationByte_res (b : Byte) (s : State) : (readDestinationByte b s).res = .progress := by
  unfold readDestinationByte
  split
  · split <;> rfl
  · split
    · rfl
    · dsimp only
      split <;> rfl

theorem frameEnd_res (s : State) : (frameEnd s).res = .progress := by
  unfold frameEnd
  split_ifs <;> rfl

theorem readPayloadByte_res (b : Byte) (s : State) : (readPayloadByte b s).res = .progress := by
  unfold readPayloadByte
  split
  · exact frameEnd_res s
  · dsimp only
    split
    · rfl
    · split <;> rfl

theorem skipByte_res (b : Byte) (s : State) : (skipByte b s).res = .progress := by
  unfold skipByte
  split <;> rfl

/-- The micro-step from `s` answered `BLOCKED`, without an event, and at most set `enc_stalled`. -/
def StepOut.IsBlockedAt (r : StepOut) (s : State) : Prop :=
  r = blocked s ∨ r = blocked { s with encStalled := true }

theorem withRxByte_blocked {f : Byte → State → StepOut} (hf : ∀ b t, (f b t).res = .progress) {s : State}
    (h : (withRxByte f s).res = .blocked) : (withRxByte f s).IsBlockedAt s := by
  obtain ⟨_, hw⟩ | ⟨b, q, _, hw⟩ := withRxByte_cases f s
  · exact .inl hw
  · rw [hw, hf] at h
    cases h

theorem pushOrStall_blocked {b : Byte} {f : State → State} {s : State}
    (h : (pushOrStall b f s).res = .blocked) : (pushOrStall b f s).IsBlockedAt s := by
  obtain ⟨_, hw⟩ | ⟨_, hw⟩ := pushOrStall_cases b f s
  · exact .inr hw
  · rw [hw] at h
    cases h

theorem stepFlush_blocked {s : State} (h : (stepFlush s).res = .blocked) : (stepFlush s).IsBlockedAt s := by
  unfold stepFlush at h ⊢
  split at h
  · cases h
  · exact pushOrStall_blocked h
  · split at h
    · cases h
    · rename_i hi
      exact .inl (if_neg hi)

theorem stepEncode_blocked {s : State} (h : (stepEncode s).res = .blocked) : (stepEncode s).IsBlockedAt s := by
  unfold stepEncode at h ⊢
  split at h
  · rename_i hd
    rw [if_pos hd]
    exact pushOrStall_blocked h
  · rename_i hd
    rw [if_neg hd]
    cases hg : s.encStage <;> simp only [hg] at h ⊢
    case flush => exact stepFlush_blocked h
    all_goals cases h

theorem microStep_blocked {s : State} (h : (microStep s).res = .blocked) : (microStep s).IsBlockedAt s := by
  unfold microStep at h ⊢
  cases hs : s.state <;> simp only [hs] at h ⊢
  case start => cases h
  case readDestination => exact withRxByte_blocked readDestinationByte_res h
  case readPayload => exact withRxByte_blocked readPayloadByte_res h
  case skipCurrentPacket => exact withRxByte_blocked skipByte_res h
  case stopped => exact .inl rfl
  case encode => exact stepEncode_blocked h

/-! ### The statements -/

/-- Settles O5: the step's equation for bytes that decode, and `decode_encode` for a well-formed operation. -/
theorem stepRunsTheIssuedOperation : Obligations.StepRunsTheIssuedOperation :=
  fun _ _ _ =>
    ⟨fun _ ha hd => step_of_operation ha hd, fun ha hw => step_of_operation ha (decode_encode hw)⟩

/-- Settles O6: the step's equations for the other entries; a reset gives `resetCore`. -/
theorem stepFollowsTheAgenda : Obligations.StepFollowsTheAgenda :=
  fun _ =>
    ⟨step_of_agenda_nil, fun _ _ _ => step_of_undecodable, fun _ _ => step_of_line, fun _ ha =>
      ⟨_, step_of_reset ha, resetCore_atResetValues _, resetCore_agenda _, resetCore_line _, resetCore_params _⟩⟩

/-- Settles O47: the micro-step behind a `BLOCKED` answer is `blocked` on the state as it was, or on that
state with `enc_stalled` set. -/
theorem blockedStepChangesNothing : Obligations.BlockedStepChangesNothing := by
  intro s t ht hv
  rw [exec_step] at ht
  cases ht
  have hr : (microStep s).res = .blocked := by simpa using hv
  obtain h | h := microStep_blocked hr <;> rw [h]
  · exact ⟨rfl, id⟩
  · exact ⟨rfl, fun _ => rfl⟩

end Sys2Proof.Machine
end

section
/-! PROOF. The family of spec/10_state.md: every step keeps the invariant (O11); a pending packet is kept
until `RELEASE` (O50); what moves the counters, the enables and the filter (O32, O45, O49, O51); the state
after reset (O9, O10); the bus writes done in every state (O29). `exec_effect` says once what a completed
operation can have done, and the statements about every operation are case analyses of it. -/

namespace Sys2Proof.Machine

/-! ### Bus addresses (R83 to R85) -/

/-- The registers of the address filter (R85). -/
def BusReg.isFilter : BusReg → Bool
  | .mcastAddr | .mcastMask | .unicast _ => true
  | .dest | .pktLen | .status | .cmd | .good | .malformed | .overrun | .badCrc | .rxInterrupted | .nothing => false

theorem busReg_isFilter_of_lt {k : Nat} (h : k < 0x440) : (busReg k).isFilter = false := by
  simp only [busReg, if_pos h, apply_ite BusReg.isFilter]
  simp [BusReg.isFilter]

theorem busTarget_reg_inv {a : Addr} {n : Nat} {r : BusReg} (h : busTarget a n = .reg r) :
    r = busReg a.toNat ∧ a.toNat < 0x488 := by
  unfold busTarget at h
  dsimp only at h
  split at h
  · split at h <;> cases h
  · split at h
    · cases h
    · split at h <;> cases h
      exact ⟨rfl, by omega⟩

theorem busTarget_filter {a : Addr} {n : Nat} {r : BusReg} (h : busTarget a n = .reg r) (hr : r.isFilter = true) :
    0x440 ≤ a.toNat ∧ a.toNat < 0x488 := by
  obtain ⟨rfl, hu⟩ := busTarget_reg_inv h
  refine ⟨Nat.le_of_not_lt fun hl => ?_, hu⟩
  rw [busReg_isFilter_of_lt hl] at hr
  cases hr

theorem busTarget_reg {a : Addr} (hl : 0x400 ≤ a.toNat) (hu : a.toNat < 0x488) (h4 : a.toNat % 4 = 0) :
    busTarget a 4 = .reg (busReg a.toNat) := by
  unfold busTarget
  dsimp only
  rw [if_neg (by omega), if_neg (by omega), if_pos ⟨rfl, h4⟩]

theorem busTarget_hole {a : Addr} (n : Nat) (h : 0x3FC ≤ a.toNat ∧ a.toNat ≤ 0x3FF ∨ 0x488 ≤ a.toNat) :
    busTarget a n = .hole := by
  unfold busTarget
  dsimp only
  rw [if_neg (by omega), if_pos (by omega)]

theorem busTarget_unicast (i : Fin 16) :
    busTarget (BitVec.ofNat 12 (0x448 + 4 * i.val)) 4 = .reg (.unicast i) := by
  revert i
  decide

/-- A write to `STATUS`, a counter or the hole inside `REG` is ignored (R222). -/
theorem writeReg_readOnly {k : Nat} (h : k = 0x408 ∨ 0x410 ≤ k ∧ k ≤ 0x43C ∧ k % 4 = 0) (v : Word)
    (s : State) :
    writeReg (busReg k) v s = .next (answer .none [] s) := by
  have hk : k = 0x408 ∨ k = 0x410 ∨ k = 0x414 ∨ k = 0x418 ∨ k = 0x41C ∨ k = 0x420 ∨
      0x424 ≤ k ∧ k < 0x440 := by omega
  obtain rfl | rfl | rfl | rfl | rfl | rfl | ⟨hl, hu⟩ := hk
  case inr.inr.inr.inr.inr.inr =>
    have hr : busReg k = .nothing := by
      unfold busReg
      iterate 9 rw [if_neg (by omega)]
      rw [if_pos hu]
    rw [hr]
    rfl
  all_goals rfl

theorem ownedWrite_next {f : State → State} {s t : State} (hn : ownedWrite f s = .next t) :
    s.state = .stopped ∧ t = answer .none [] (f s) := by
  obtain ⟨_, h⟩ | ⟨hs, h⟩ := ownedWrite_cases f s <;> rw [h] at hn <;> cases hn
  exact ⟨hs, rfl⟩

/-! ### The commands, alone and through `CMD` (R82, R220) -/

/-- The six commands with the low bytes that issue them through `CMD` (R82). -/
inductive CommandCode : Instr → Nat → Prop
  | pump : CommandCode .pump 1
  | stopRx : CommandCode .stopRx 2
  | startRx : CommandCode .startRx 3
  | startTx : CommandCode .startTx 4
  | release : CommandCode .release 5
  | resetPktcnt : CommandCode .resetPktcnt 6

theorem issueCommand_eq_exec {op : Instr} {code : Nat} {v : Word} (hc : CommandCode op code)
    (hv : v.toNat % 256 = code) (s : State) : issueCommand v s = exec op s := by
  have hlow : (v.extractLsb' 0 8).toNat = code := by simpa using hv
  unfold issueCommand
  rw [hlow]
  cases hc <;> rfl

/-- A value written to `CMD` issues a command, or nothing happens. -/
theorem issueCommand_cases (v : Word) (s : State) :
    issueCommand v s = .next (answer .none [] s) ∨
    ∃ op code, CommandCode op code ∧ v.toNat % 256 = code ∧ issueCommand v s = exec op s := by
  have hlow : (v.extractLsb' 0 8).toNat = v.toNat % 256 := by simp
  unfold issueCommand
  rw [hlow]
  split
  case h_1 => exact .inr ⟨_, _, .pump, ‹_›, rfl⟩
  case h_2 => exact .inr ⟨_, _, .stopRx, ‹_›, rfl⟩
  case h_3 => exact .inr ⟨_, _, .startRx, ‹_›, rfl⟩
  case h_4 => exact .inr ⟨_, _, .startTx, ‹_›, rfl⟩
  case h_5 => exact .inr ⟨_, _, .release, ‹_›, rfl⟩
  case h_6 => exact .inr ⟨_, _, .resetPktcnt, ‹_›, rfl⟩
  case h_7 => exact .inl rfl

/-- A write to `CMD` has width 4, or is refused (R59). -/
theorem exec_busWr_cmd (n : Nat) (v : Word) (s : State) :
    exec (.busWr 0x40C#12 n v) s = if n = 4 then issueCommand v s else .refused .busBadAccess := by
  by_cases hn : n = 4
  · rw [hn]; rfl
  · have ht : busTarget 0x40C#12 n = .bad := by simp [busTarget, hn]
    simp [exec, execBusWr, ht, hn]

/-- However a command was issued, it did what its operation does. -/
theorem exec_of_issues {i op : Instr} {code : Nat} {s t : State} (hc : CommandCode op code)
    (hi : issues i op code) (hn : exec i s = .next t) : exec op s = .next t := by
  obtain rfl | ⟨n, v, rfl, hv⟩ := hi
  · exact hn
  · rw [exec_busWr_cmd, issueCommand_eq_exec hc hv] at hn
    split at hn
    · exact hn
    · cases hn

theorem not_issues {i op : Instr} {code : Nat} (hi : i ≠ op)
    (hcmd : ∀ n v, i = .busWr 0x40C#12 n v → v.toNat % 256 ≠ code) : ¬ issues i op code := by
  rintro (h | ⟨n, v, h, hv⟩)
  · exact hi h
  · exact hcmd n v h hv

/-- `stopReceiving` as one update (R160). -/
theorem stopReceiving_eq (s : State) :
    stopReceiving s =
      { s with
        state := .stopped
        rxEn := false
        line := { s.line with rxq := [] }
        cnt := if s.line.rxq = [] then s.cnt else s.cnt.incError s.params.cntOverflow .rxInterrupted } := by
  unfold stopReceiving
  cases hq : s.line.rxq <;> rfl

/-- What `STOP_RX` did, where it completed (R160). -/
theorem exec_stopRx_cases {s t : State} (hn : exec .stopRx s = .next t) :
    s.state = .stopped ∧ t = answer .none [] s ∨
    (s.state = .start ∨ s.state.receiving = true) ∧ t = answer .none [] (stopReceiving s) := by
  change cmdStopRx s = _ at hn
  unfold cmdStopRx at hn
  cases hs : s.state <;> simp only [hs] at hn
  case encode => cases hn
  case stopped =>
    cases hn
    exact .inl ⟨rfl, rfl⟩
  all_goals
    cases hn
    exact .inr ⟨by simp [EngineState.receiving], rfl⟩

/-! ### What an operation does -/

/-- What the completed operation `i` did to the state, its result and events included. -/
inductive Effect (i : Instr) (s : State) : State → Prop
  | nothing (v : Value) : Effect i s (answer v [] s)
  | pump (h : issues i .pump 1) : Effect i s (answer .none (pump s).2 (pump s).1)
  | step (h : i = .step) :
      Effect i s (answer (.stepped (microStep s).res) (microStep s).event.toList (microStep s).after)
  | stopRx (h : issues i .stopRx 2) (hs : s.state = .start ∨ s.state.receiving = true) :
      Effect i s (answer .none [] (stopReceiving s))
  | startRx (h : issues i .startRx 3) (hs : s.state = .stopped) :
      Effect i s (answer .none [] { s with state := .start })
  | startTx (h : issues i .startTx 4) (hs : s.state = .stopped)
      (hlen : 2 ≤ s.pktLen.toNat ∧ s.pktLen.toNat ≤ 1016) : Effect i s (answer .none [] (beginEncode s))
  | release (h : issues i .release 5) : Effect i s (answer .none [] { s with pktValid := false })
  | resetPktcnt (h : issues i .resetPktcnt 6) : Effect i s (answer .none [] { s with cnt := Counters.zero })
  | writeByte (h : isBusWrite i = true) (hs : s.state = .stopped) {k : Nat} (hk : k < Config.pktBufCap) (b : Byte) :
      Effect i s (answer .none [] (pktWrite k b s))
  | writeDest (h : isBusWrite i = true) (hs : s.state = .stopped) (d : Word) :
      Effect i s (answer .none [] { s with dest := d })
  | writePktLen (h : isBusWrite i = true) (hs : s.state = .stopped) (n : BitVec 11) :
      Effect i s (answer .none [] { s with pktLen := n })
  | writeFilter {a : Addr} {n : Nat} {v : Word} (h : i = .busWr a n v) (ha : 0x440 ≤ a.toNat ∧ a.toNat < 0x488)
      (f : Filter) : Effect i s (answer .none [] { s with filter := f })
  | encFeed (hd : s.enc.dlen = 0#8) (b : Byte) : Effect i s (answer .none [] { s with enc := s.enc.feed b })
  | encClose (code : Byte) : Effect i s (answer .none [] { s with enc := s.enc.close code })

theorem cmdStartRx_effect {i : Instr} {s t : State} (hi : issues i .startRx 3) (hn : cmdStartRx s = .next t) :
    Effect i s t := by
  unfold cmdStartRx at hn
  cases hs : s.state <;> simp only [hs] at hn
  case stopped =>
    cases hn
    exact .startRx hi hs
  all_goals
    cases hn
    exact .nothing _

theorem cmdStartTx_effect {i : Instr} {s t : State} (hi : issues i .startTx 4) (hn : cmdStartTx s = .next t) :
    Effect i s t := by
  unfold cmdStartTx at hn
  split at hn
  · cases hn
  · rename_i hs
    split at hn
    · cases hn
    · rename_i hlen
      cases hn
      have hcap : Config.pktBufCap = 1020 := rfl
      exact .startTx hi (not_not.1 hs) (by omega)

theorem CommandCode.effect {i op : Instr} {code : Nat} {s t : State} (hc : CommandCode op code)
    (hi : issues i op code) (hn : exec op s = .next t) : Effect i s t := by
  cases hc with
  | pump =>
    cases hn
    exact .pump hi
  | stopRx =>
    obtain ⟨_, rfl⟩ | ⟨hs, rfl⟩ := exec_stopRx_cases hn
    · exact .nothing _
    · exact .stopRx hi hs
  | startRx => exact cmdStartRx_effect hi hn
  | startTx => exact cmdStartTx_effect hi hn
  | release =>
    cases hn
    exact .release hi
  | resetPktcnt =>
    cases hn
    exact .resetPktcnt hi

theorem writeReg_effect {a : Addr} {n : Nat} {v : Word} {r : BusReg} {s t : State} (hr : busTarget a n = .reg r)
    (hn : writeReg r v s = .next t) : Effect (.busWr a n v) s t := by
  cases r with
  | dest =>
    obtain ⟨hs, rfl⟩ := ownedWrite_next (f := fun u => { u with dest := v }) hn
    exact .writeDest rfl hs _
  | pktLen =>
    obtain ⟨hs, rfl⟩ := ownedWrite_next (f := fun u => { u with pktLen := v.extractLsb' 0 11 }) hn
    exact .writePktLen rfl hs _
  | cmd =>
    obtain rfl := busTarget_cmd hr
    obtain h | ⟨op, code, hop, hv, h⟩ := issueCommand_cases v s
    · cases h.symm.trans hn
      exact .nothing _
    · exact hop.effect (.inr ⟨n, v, rfl, hv⟩) (h.symm.trans hn)
  | mcastAddr | mcastMask | unicast =>
    cases hn
    exact .writeFilter rfl (busTarget_filter hr rfl) _
  | _ =>
    cases hn
    exact .nothing _

theorem execBusWr_effect {a : Addr} {n : Nat} {v : Word} {s t : State} (hn : execBusWr a n v s = .next t) :
    Effect (.busWr a n v) s t := by
  unfold execBusWr at hn
  split at hn
  case h_1 k ht =>
    obtain ⟨hs, rfl⟩ := ownedWrite_next hn
    obtain ⟨_, _, hk⟩ := busTarget_buf ht
    exact .writeByte rfl hs (Nat.lt_succ_of_le hk) _
  case h_2 hr => exact writeReg_effect hr hn
  case h_3 =>
    cases hn
    exact .nothing _
  case h_4 => cases hn

/-- Every operation that completes has one of the effects. -/
theorem exec_effect {i : Instr} {s t : State} (hn : exec i s = .next t) : Effect i s t := by
  cases i with
  | pump => exact CommandCode.pump.effect (.inl rfl) hn
  | stopRx => exact CommandCode.stopRx.effect (.inl rfl) hn
  | startRx => exact CommandCode.startRx.effect (.inl rfl) hn
  | startTx => exact CommandCode.startTx.effect (.inl rfl) hn
  | release => exact CommandCode.release.effect (.inl rfl) hn
  | resetPktcnt => exact CommandCode.resetPktcnt.effect (.inl rfl) hn
  | step =>
    cases hn
    exact .step rfl
  | busWr a n v => exact execBusWr_effect hn
  | busRd a n =>
    simp only [exec, execBusRd] at hn
    split at hn <;> cases hn <;> exact .nothing _
  | encFeed b =>
    simp only [exec, execEncFeed] at hn
    split at hn <;> cases hn
    exact .encFeed (not_not.1 ‹_›) b
  | encClose code =>
    cases hn
    exact .encClose code
  | cobsDecode w =>
    simp only [exec, execCobsDecode] at hn
    split at hn <;> cases hn <;> exact .nothing _
  | serialize dest cmd idx payload =>
    simp only [exec, execSerialize] at hn
    split at hn <;> cases hn
    exact .nothing _
  | deserialize w =>
    simp only [exec, execDeserialize] at hn
    split at hn <;> cases hn <;> exact .nothing _
  | _ =>
    cases hn
    exact .nothing _

/-! ### The invariant -/

/-- The invariant after reset: the line keeps its own two laws. -/
theorem State.afterReset_inv (epoch : Nat) {line : Line} (agenda : List Entry) {params : Params}
    (hidle : line.idle = true → line.sink = [])
    (hdepth : ∀ k, params.rxqDepth = some k → line.rxq.length ≤ k) :
    (State.afterReset epoch line agenda params).Inv where
  mem_wf := Memory.wf_nil
  rx_enabled := rfl
  tx_enabled := by simp [State.afterReset]
  payload_free := by simp [State.afterReset]
  queue_empty := by simp [State.afterReset]
  rem_range := by simp [State.afterReset]
  dest_range := by simp [State.afterReset]
  body_range := by simp [State.afterReset]
  block_range := by simp [State.afterReset, EncSession.cursorsInRange]
  encode_range := by simp [State.afterReset]
  encoder_at_rest := by simp [State.afterReset]
  stalled_waits := by simp [State.afterReset]
  idle_drained := hidle
  queue_depth := hdepth

theorem answer_inv {s : State} (v : Value) (evs : List Event) (h : s.Inv) : (answer v evs s).Inv := { h with }

theorem agenda_inv {s : State} (rest : List Entry) (h : s.Inv) : State.Inv { s with agenda := rest } := { h with }

/-- Outside `Encode` the transmitter is disabled and does not wait. -/
theorem State.Inv.encoder_off {s : State} (h : s.Inv) (hne : s.state ≠ .encode) :
    s.txEn = false ∧ s.encStalled = false :=
  ⟨by simpa [hne] using h.tx_enabled, by simpa [hne] using h.stalled_waits⟩

theorem stopReceiving_inv {s : State} (h : s.Inv) (hs : s.state = .start ∨ s.state.receiving = true) :
    (stopReceiving s).Inv := by
  have hne : s.state ≠ .encode := by
    intro he
    simp [he, EngineState.receiving] at hs
  obtain ⟨htx, hst⟩ := h.encoder_off hne
  rw [stopReceiving_eq]
  exact { h with
    rx_enabled := rfl
    tx_enabled := by simp [htx]
    payload_free := by simp
    queue_empty := by simp
    dest_range := ⟨h.dest_range.1, by simp⟩
    encode_range := by simp
    encoder_at_rest := fun _ => h.encoder_at_rest hne
    stalled_waits := by simp [hst]
    queue_depth := by simp }

theorem startRx_inv {s : State} (h : s.Inv) (hs : s.state = .stopped) : State.Inv { s with state := .start } := by
  have hne : s.state ≠ .encode := by simp [hs]
  obtain ⟨htx, hst⟩ := h.encoder_off hne
  exact { h with
    rx_enabled := by simp [h.rx_enabled, hs, EngineState.receiving]
    tx_enabled := by simp [htx]
    payload_free := by simp
    queue_empty := by simp
    dest_range := ⟨h.dest_range.1, by simp⟩
    encode_range := by simp
    encoder_at_rest := fun _ => h.encoder_at_rest hne
    stalled_waits := by simp [hst] }

theorem beginEncode_inv {s : State} (h : s.Inv) (hs : s.state = .stopped)
    (hlen : 2 ≤ s.pktLen.toNat ∧ s.pktLen.toNat ≤ 1016) : (beginEncode s).Inv :=
  { h with
    rx_enabled := by simp [beginEncode, h.rx_enabled, hs, EngineState.receiving]
    tx_enabled := by simp [beginEncode, h.tx_enabled, hs]
    payload_free := by simp [beginEncode]
    queue_empty := fun _ => h.queue_empty (.inl hs)
    dest_range := ⟨h.dest_range.1, by simp [beginEncode]⟩
    block_range := by simp [beginEncode, EncSession.cursorsInRange]
    encode_range := fun _ => ⟨hlen.1, hlen.2, rfl⟩
    encoder_at_rest := by simp [beginEncode]
    stalled_waits := by simp [beginEncode] }

/-- A new encode session that is draining whenever the old one was. -/
theorem enc_inv {s : State} {e : EncSession} (h : s.Inv) (he : e.cursorsInRange)
    (hd : s.enc.dlen ≠ 0#8 → e.dlen ≠ 0#8) : State.Inv { s with enc := e } :=
  { h with
    block_range := he
    stalled_waits := fun hst => ⟨(h.stalled_waits hst).1, (h.stalled_waits hst).2.imp_left hd⟩ }

theorem EncSession.fill_le {e : EncSession} (h : e.cursorsInRange) : e.fill.toNat ≤ 254 := by
  by_cases hd : e.dlen = 0#8
  · have := (EncSession.cursorsInRange_open hd).1 h
    omega
  · have := (EncSession.cursorsInRange_closed hd).1 h
    have := e.dlen.isLt
    omega

theorem EncSession.close_dlen_ne_zero {e : EncSession} (code : Byte) (h : e.cursorsInRange) :
    (e.close code).dlen ≠ 0#8 := by
  have := EncSession.fill_le h
  simp only [EncSession.close]
  bv_omega

/-- Whatever an operation did, the invariant still holds. -/
theorem Effect.inv {i : Instr} {s t : State} (h : s.Inv) (he : Effect i s t) : t.Inv := by
  cases he with
  | nothing => exact answer_inv _ _ h
  | pump => exact answer_inv _ _ (pump_induct (fun _ => microStep_inv) h)
  | step => exact answer_inv _ _ (microStep_inv h)
  | stopRx _ hs => exact answer_inv _ _ (stopReceiving_inv h hs)
  | startRx _ hs => exact answer_inv _ _ (startRx_inv h hs)
  | startTx _ hs hlen => exact answer_inv _ _ (beginEncode_inv h hs hlen)
  | release => exact { h with payload_free := fun _ => rfl }
  | resetPktcnt => exact { h with }
  | writeByte _ _ hk b => exact { h with mem_wf := Memory.write_wf b h.mem_wf hk }
  | writeDest => exact { h with }
  | writePktLen _ hs => exact { h with encode_range := by simp [hs] }
  | writeFilter => exact { h with }
  | encFeed hd b =>
    exact answer_inv _ _ <| enc_inv h
      (EncSession.feed_cursorsInRange b hd ((EncSession.cursorsInRange_open hd).1 h.block_range)) (absurd hd)
  | encClose code =>
    exact answer_inv _ _ <| enc_inv h (EncSession.close_cursorsInRange code (EncSession.fill_le h.block_range))
      fun _ => EncSession.close_dlen_ne_zero code h.block_range

/-! ### The line keeps the invariant (R56, R57) -/

theorem line_inv {s : State} {l : Line} (h : s.Inv) (hq : s.state = .stopped ∨ s.state = .encode → l.rxq = [])
    (hi : l.idle = true → l.sink = []) (hd : ∀ k, s.params.rxqDepth = some k → l.rxq.length ≤ k) :
    State.Inv { s with line := l } :=
  { h with queue_empty := hq, idle_drained := hi, queue_depth := hd }

theorem Line.arrive_idle_sink (d : Option Nat) (l : Line) (b : Byte) :
    (l.arrive d b).idle = l.idle ∧ (l.arrive d b).sink = l.sink := by
  unfold Line.arrive
  split
  · exact ⟨rfl, rfl⟩
  · split <;> exact ⟨rfl, rfl⟩

theorem Line.arrive_depth {k : Nat} {l : Line} (b : Byte) (h : l.rxq.length ≤ k) :
    (l.arrive (some k) b).rxq.length ≤ k := by
  simp only [Line.arrive]
  split
  · simp only [List.length_append, List.length_singleton]
    omega
  · exact h

theorem foldl_arrive_idle_sink (d : Option Nat) (x : List Byte) (l : Line) :
    (x.foldl (Line.arrive d) l).idle = l.idle ∧ (x.foldl (Line.arrive d) l).sink = l.sink := by
  induction x generalizing l with
  | nil => exact ⟨rfl, rfl⟩
  | cons b x ih => simp [ih, Line.arrive_idle_sink]

theorem foldl_arrive_depth {k : Nat} (x : List Byte) {l : Line} (h : l.rxq.length ≤ k) :
    (x.foldl (Line.arrive (some k)) l).rxq.length ≤ k := by
  induction x generalizing l with
  | nil => exact h
  | cons b x ih => exact ih (Line.arrive_depth b h)

theorem receive_inv {s : State} (x : List Byte) (h : s.Inv) : (lineAct (.receive x) s).Inv := by
  simp only [lineAct]
  split
  · rename_i hrx
    have hrec : s.state.receiving = true := h.rx_enabled ▸ hrx
    obtain ⟨hi, hs⟩ := foldl_arrive_idle_sink s.params.rxqDepth x s.line
    refine line_inv h ?_ (by rw [hi, hs]; exact h.idle_drained) fun k hk => ?_
    · rintro (e | e) <;> simp [e, EngineState.receiving] at hrec
    · rw [hk]
      exact foldl_arrive_depth x (h.queue_depth k hk)
  · exact h

theorem lineAct_inv {s : State} (a : LineAction) (h : s.Inv) : (lineAct a s).Inv := by
  cases a with
  | receive x => exact receive_inv x h
  | drain k => exact line_inv h h.queue_empty (fun hi => by simp [Line.drain, h.idle_drained hi]) h.queue_depth
  | room k => exact line_inv h h.queue_empty h.idle_drained h.queue_depth
  | idle t =>
    cases t with
    | false => exact line_inv h h.queue_empty (by simp [Line.setIdle]) h.queue_depth
    | true => exact line_inv h h.queue_empty (by simp [Line.setIdle, Line.drain]) h.queue_depth

theorem resetCore_inv {s : State} (h : s.Inv) : (resetCore s).Inv :=
  State.afterReset_inv _ _ h.idle_drained h.queue_depth

/-! ### A pending packet (R31, R224) -/

/-- `t` has the packet that is pending in `s`, and does not receive into the buffer. -/
structure HoldsPacket (s t : State) : Prop where
  mem : t.mem = s.mem
  dest : t.dest = s.dest
  pktLen : t.pktLen = s.pktLen
  pktValid : t.pktValid = true
  state : t.state ≠ .readPayload

theorem HoldsPacket.refl {s : State} (hv : s.pktValid = true) (hs : s.state ≠ .readPayload) : HoldsPacket s s :=
  ⟨rfl, rfl, rfl, hv, hs⟩

theorem HoldsPacket.trans {s t u : State} (h : HoldsPacket s t) (k : HoldsPacket t u) : HoldsPacket s u :=
  ⟨k.mem.trans h.mem, k.dest.trans h.dest, k.pktLen.trans h.pktLen, k.pktValid, k.state⟩

/-- With a packet pending a completed destination is skipped, whether it matches or not. -/
theorem destinationComplete_holdsPacket {s : State} (hv : s.pktValid = true) :
    HoldsPacket s (destinationComplete s) := by
  unfold destinationComplete
  split
  · exact ⟨rfl, rfl, rfl, hv, by simp⟩
  · exact ⟨rfl, rfl, rfl, hv, by simp⟩

theorem readDestinationByte_holdsPacket (b : Byte) {s : State} (hv : s.pktValid = true)
    (hs : s.state ≠ .readPayload) : HoldsPacket s (readDestinationByte b s).after := by
  unfold readDestinationByte
  split
  · split <;> exact ⟨rfl, rfl, rfl, hv, by simp⟩
  · split
    · exact ⟨rfl, rfl, rfl, hv, hs⟩
    · dsimp only
      split
      · refine HoldsPacket.trans ?_ (destinationComplete_holdsPacket hv)
        exact ⟨rfl, rfl, rfl, hv, hs⟩
      · exact ⟨rfl, rfl, rfl, hv, hs⟩

theorem skipByte_holdsPacket (b : Byte) {s : State} (hv : s.pktValid = true) (hs : s.state ≠ .readPayload) :
    HoldsPacket s (skipByte b s).after := by
  unfold skipByte
  split
  · exact ⟨rfl, rfl, rfl, hv, by simp⟩
  · exact .refl hv hs

theorem withRxByte_holdsPacket {f : Byte → State → StepOut} {s : State} (hv : s.pktValid = true)
    (hs : s.state ≠ .readPayload)
    (hf : ∀ b t, t.pktValid = true → t.state ≠ .readPayload → HoldsPacket t (f b t).after) :
    HoldsPacket s (withRxByte f s).after := by
  obtain ⟨_, h⟩ | ⟨b, q, _, h⟩ := withRxByte_cases f s <;> rw [h]
  · exact .refl hv hs
  · refine HoldsPacket.trans ?_ (hf b _ hv hs)
    exact ⟨rfl, rfl, rfl, hv, hs⟩

/-- What a micro-step in `Encode` leaves as it was: the packet, its flag and the counters. -/
structure SamePacket (s t : State) : Prop where
  mem : t.mem = s.mem
  dest : t.dest = s.dest
  pktLen : t.pktLen = s.pktLen
  pktValid : t.pktValid = s.pktValid
  cnt : t.cnt = s.cnt

theorem pushOrStall_samePacket (b : Byte) {f : State → State} {s : State}
    (hf : ∀ l, SamePacket s (f { s with line := l, encStalled := false })) :
    SamePacket s (pushOrStall b f s).after := by
  obtain ⟨_, h⟩ | ⟨_, h⟩ := pushOrStall_cases b f s <;> rw [h]
  · exact ⟨rfl, rfl, rfl, rfl, rfl⟩
  · exact hf _

theorem stepFlush_samePacket (s : State) : SamePacket s (stepFlush s).after := by
  unfold stepFlush
  split
  · exact ⟨rfl, rfl, rfl, rfl, rfl⟩
  · exact pushOrStall_samePacket _ fun _ => ⟨rfl, rfl, rfl, rfl, rfl⟩
  · split <;> exact ⟨rfl, rfl, rfl, rfl, rfl⟩

theorem stepEncode_samePacket (s : State) : SamePacket s (stepEncode s).after := by
  unfold stepEncode
  split
  · exact pushOrStall_samePacket _ fun _ => ⟨rfl, rfl, rfl, rfl, rfl⟩
  · split
    · exact ⟨rfl, rfl, rfl, rfl, rfl⟩
    · unfold stepWriteDestination nextOfFour
      split <;> exact ⟨rfl, rfl, rfl, rfl, rfl⟩
    · unfold stepWritePayload
      split <;> exact ⟨rfl, rfl, rfl, rfl, rfl⟩
    · unfold stepWriteCrc nextOfFour
      split <;> exact ⟨rfl, rfl, rfl, rfl, rfl⟩
    · exact stepFlush_samePacket s

theorem stepEncode_holdsPacket {s : State} (hs : s.state = .encode) (hv : s.pktValid = true) :
    HoldsPacket s (stepEncode s).after := by
  have h := stepEncode_samePacket s
  refine ⟨h.mem, h.dest, h.pktLen, h.pktValid.trans hv, ?_⟩
  obtain e | ⟨e, _⟩ := (stepEncode_control hs).state <;> simp [e, hs]

theorem microStep_holdsPacket {s : State} (hv : s.pktValid = true) (hs : s.state ≠ .readPayload) :
    HoldsPacket s (microStep s).after := by
  unfold microStep
  cases hst : s.state with
  | start => exact ⟨rfl, rfl, rfl, hv, by simp [stepStart]⟩
  | readDestination => exact withRxByte_holdsPacket hv hs fun b _ => readDestinationByte_holdsPacket b
  | readPayload => exact absurd hst hs
  | skipCurrentPacket => exact withRxByte_holdsPacket hv hs fun b _ => skipByte_holdsPacket b
  | stopped => exact .refl hv hs
  | encode => exact stepEncode_holdsPacket hst hv

theorem pump_holdsPacket {s : State} (hv : s.pktValid = true) (hs : s.state ≠ .readPayload) :
    HoldsPacket s (pump s).1 :=
  pump_induct (P := HoldsPacket s) (fun _ h => h.trans (microStep_holdsPacket h.pktValid h.state)) (.refl hv hs)

theorem HoldsPacket.contents {s t : State} (h : HoldsPacket s t) (he : t.epoch = s.epoch) :
    (∀ a, pktRead t a = pktRead s a) ∧ t.dest = s.dest ∧ t.pktLen = s.pktLen :=
  ⟨pktRead_congr h.mem he, h.dest, h.pktLen⟩

theorem Effect.keepsContents {i : Instr} {s t : State} (hv : s.pktValid = true) (hs : s.state ≠ .readPayload)
    (hw : isBusWrite i = false) (he : Effect i s t) :
    (∀ a, pktRead t a = pktRead s a) ∧ t.dest = s.dest ∧ t.pktLen = s.pktLen := by
  cases he with
  | pump => exact (pump_holdsPacket hv hs).contents (pump_keepsHost s).epoch
  | step => exact (microStep_holdsPacket hv hs).contents (microStep_keepsHost s).epoch
  | stopRx =>
    rw [stopReceiving_eq]
    exact ⟨fun _ => rfl, rfl, rfl⟩
  | writeByte h | writeDest h | writePktLen h => simp [hw] at h
  | _ => exact ⟨fun _ => rfl, rfl, rfl⟩

theorem Effect.keepsPktValid {i : Instr} {s t : State} (hv : s.pktValid = true) (hs : s.state ≠ .readPayload)
    (hr : ¬ issues i .release 5) (he : Effect i s t) : t.pktValid = true := by
  cases he with
  | pump => exact (pump_holdsPacket hv hs).pktValid
  | step => exact (microStep_holdsPacket hv hs).pktValid
  | stopRx =>
    rw [stopReceiving_eq]
    exact hv
  | release h => exact absurd h hr
  | _ => exact hv

/-! ### The environment of the core and the filter (R8, R42) -/

theorem Effect.keepsEnvironment {i : Instr} {s t : State} (he : Effect i s t) :
    t.params = s.params ∧ t.agenda = s.agenda ∧ t.epoch = s.epoch := by
  cases he with
  | pump =>
    have h := pump_keepsHost s
    exact ⟨h.params, h.agenda, h.epoch⟩
  | step =>
    have h := microStep_keepsHost s
    exact ⟨h.params, h.agenda, h.epoch⟩
  | stopRx =>
    rw [stopReceiving_eq]
    exact ⟨rfl, rfl, rfl⟩
  | _ => exact ⟨rfl, rfl, rfl⟩

theorem Effect.keepsFilter {i : Instr} {s t : State}
    (hi : ∀ a n v, i = .busWr a n v → a.toNat < 0x440 ∨ 0x488 ≤ a.toNat) (he : Effect i s t) :
    t.filter = s.filter := by
  cases he with
  | pump => exact (pump_keepsHost s).filter
  | step => exact (microStep_keepsHost s).filter
  | stopRx => rw [stopReceiving_eq]; rfl
  | writeFilter h ha =>
    have := hi _ _ _ h
    omega
  | _ => rfl

/-! ### The enables (R44) -/

/-- The next micro-step begins the encode pass (R173). -/
abbrev State.begins (s : State) : Prop :=
  s.state = .encode ∧ s.enc.dlen = 0#8 ∧ s.encStage = .encoderStart

/-- The next micro-step completes the flush (R179). -/
abbrev State.flushed (s : State) : Prop :=
  s.state = .encode ∧ s.enc.dlen = 0#8 ∧ s.encStage = .flush ∧ s.encSrc = 2#11 ∧ s.line.idle = true

theorem microStep_start {s : State} (h : s.state = .start) : microStep s = progress (stepStart s) := by
  simp [microStep, h]

theorem microStep_begins {s : State} (h : s.begins) : microStep s = progress (stepEncoderStart s) := by
  obtain ⟨hs, hd, hg⟩ := h
  simp [microStep, hs, stepEncode, hd, hg]

theorem microStep_flushed {s : State} (h : s.flushed) : microStep s = progress (flushDone s) := by
  obtain ⟨hs, hd, hg, hsrc, hi⟩ := h
  simp [microStep, hs, stepEncode, hd, hg, stepFlush, hsrc, txIdle, hi]

theorem State.Inv.not_both_enabled {s : State} (h : s.Inv) : ¬ (s.rxEn = true ∧ s.txEn = true) := by
  rintro ⟨hrx, htx⟩
  rw [h.rx_enabled, (h.tx_enabled.1 htx).1] at hrx
  cases hrx

theorem microStep_enables_of_encode {s : State} (h : s.Inv) (hs : s.state = .encode) :
    ((microStep s).after.rxEn ≠ s.rxEn → s.flushed) ∧
    ((microStep s).after.txEn ≠ s.txEn → s.begins ∨ s.flushed) := by
  have e : microStep s = stepEncode s := by simp [microStep, hs]
  rw [e]
  have hc := stepEncode_control hs
  obtain hst | ⟨_, hd, hg, hsrc, hi, _⟩ := hc.state
  · exact ⟨fun hne => absurd (hc.rxEn hst) hne, fun hne => .inl ⟨hs, hc.txEn hst hne⟩⟩
  · have hle := (h.encode_range hs).2.2
    simp only [hg, cursorInRange] at hle
    have hf : s.flushed := ⟨hs, hd, hg, by bv_omega, hi⟩
    exact ⟨fun _ => hf, fun _ => .inr hf⟩

theorem microStep_enables {s : State} (h : s.Inv) :
    ((microStep s).after.rxEn ≠ s.rxEn → s.state = .start ∨ s.flushed) ∧
    ((microStep s).after.txEn ≠ s.txEn → s.state = .start ∨ s.begins ∨ s.flushed) := by
  by_cases hrec : s.state.receiving = true
  · have hc := microStep_receiving_control hrec
    exact ⟨absurd hc.rxEn, absurd hc.txEn⟩
  · cases hs : s.state with
    | start => exact ⟨fun _ => .inl rfl, fun _ => .inl rfl⟩
    | stopped => simp [microStep, hs]
    | encode =>
      obtain ⟨hrx, htx⟩ := microStep_enables_of_encode h hs
      exact ⟨fun hne => .inr (hrx hne), fun hne => .inr (htx hne)⟩
    | readDestination | readPayload | skipCurrentPacket => simp [hs, EngineState.receiving] at hrec

theorem Effect.enables {i : Instr} {s t : State} (h : s.Inv) (hp : ¬ issues i .pump 1) (he : Effect i s t) :
    (t.rxEn ≠ s.rxEn → issues i .stopRx 2 ∨ i = .step ∧ (s.state = .start ∨ s.flushed)) ∧
    (t.txEn ≠ s.txEn → i = .step ∧ (s.state = .start ∨ s.begins ∨ s.flushed)) := by
  cases he with
  | pump hi => exact absurd hi hp
  | step hi =>
    obtain ⟨hrx, htx⟩ := microStep_enables h
    exact ⟨fun hne => .inr ⟨hi, hrx hne⟩, fun hne => ⟨hi, htx hne⟩⟩
  | stopRx hi =>
    rw [stopReceiving_eq]
    exact ⟨fun _ => .inl hi, absurd rfl⟩
  | _ => exact ⟨absurd rfl, absurd rfl⟩

theorem exec_stopRx_rxEn {s t : State} (h : s.Inv) (hn : exec .stopRx s = .next t) : t.rxEn = false := by
  obtain ⟨hs, rfl⟩ | ⟨_, rfl⟩ := exec_stopRx_cases hn
  · exact h.rx_enabled.trans (by rw [hs]; rfl)
  · rw [stopReceiving_eq]
    rfl

/-! ### What a micro-step counts (R39) -/

theorem microStep_readDestination {s : State} (hs : s.state = .readDestination) {b : Byte} {q : List Byte}
    (hq : s.line.rxq = b :: q) :
    microStep s = readDestinationByte b { s with line := { s.line with rxq := q } } := by
  simp [microStep, hs, withRxByte, hq]

theorem microStep_readPayload {s : State} (hs : s.state = .readPayload) {b : Byte} {q : List Byte}
    (hq : s.line.rxq = b :: q) :
    microStep s = readPayloadByte b { s with line := { s.line with rxq := q } } := by
  simp [microStep, hs, withRxByte, hq]

theorem destinationComplete_cnt (s : State) :
    (destinationComplete s).cnt =
      if matchDest s.params s.filter (bufferedDest s) = true ∧ s.pktValid = true then
        s.cnt.incError s.params.cntOverflow .overrun
      else s.cnt := by
  unfold destinationComplete
  cases matchDest s.params s.filter (bufferedDest s) <;> cases s.pktValid <;> simp

/-- With three bytes of the destination read, the fourth makes the one `fourthMatches` speaks of. -/
theorem bufferedDest_storeDest {s : State} {b x : Byte} {q : List Byte} (h3 : s.rx.destCnt = 3#3) :
    matchDest s.params s.filter
        (bufferedDest { s with line := { s.line with rxq := q }, rx := (s.rx.decode b).storeDest x }) =
      s.fourthMatches x := by
  simp [bufferedDest, RxSession.storeDest, RxSession.decode, h3, State.fourthMatches]

theorem readDestination_cnt_delimiter {s : State} (hs : s.state = .readDestination)
    (h0 : s.line.rxq.head? = some 0#8) :
    (microStep s).after.cnt =
      if s.rx.rem = 0#8 then s.cnt else s.cnt.incError s.params.cntOverflow .malformed := by
  obtain ⟨q, hq⟩ := List.head?_eq_some_iff.1 h0
  simp only [microStep_readDestination hs hq, readDestinationByte, if_true, decEnd_eq_true]
  split <;> simp

theorem readDestination_cnt_delivers {s : State} {x : Byte} (hs : s.state = .readDestination) (hx : s.delivers x) :
    (microStep s).after.cnt =
      if s.rx.destCnt = 3#3 ∧ s.fourthMatches x = true ∧ s.pktValid = true then
        s.cnt.incError s.params.cntOverflow .overrun
      else s.cnt := by
  obtain ⟨b, q, hq, hb, hd⟩ := hx
  have h4 : ((s.rx.decode b).storeDest x).destCnt = 4#3 ↔ s.rx.destCnt = 3#3 := by
    simp only [RxSession.storeDest, RxSession.decode]
    bv_omega
  simp only [microStep_readDestination hs hq, readDestinationByte, hb, if_false, RxSession.delivered, hd, h4]
  by_cases h3 : s.rx.destCnt = 3#3
  · simp only [h3, if_true, true_and, ← bufferedDest_storeDest (b := b) (x := x) (q := q) h3]
    exact destinationComplete_cnt _
  · simp [h3]

theorem frameEnd_cnt (s : State) :
    (frameEnd s).after.cnt =
      if s.rx.rem ≠ 0#8 ∨ s.rx.bodyCnt.toNat < 6 then s.cnt.incError s.params.cntOverflow .malformed
      else if s.rx.crc = 0xDEBB20E3#32 then s.cnt.incGood s.params.cntOverflow
      else s.cnt.incError s.params.cntOverflow .badChecksum := by
  have hend : decEnd s.rx.rem = decide (s.rx.rem = 0#8) := Bool.eq_iff_iff.2 (by simp)
  have hcrc : crcVerify s.rx.crc = decide (s.rx.crc = 0xDEBB20E3#32) := Bool.eq_iff_iff.2 (by simp [crcVerify_iff])
  have hmin : Config.minBody = 6 := rfl
  simp only [frameEnd, acceptFrame, hend, hcrc, hmin]
  by_cases hr : s.rx.rem = 0#8
  · by_cases hl : s.rx.bodyCnt.toNat < 6
    · simp [hr, hl]
    · by_cases hc : s.rx.crc = 0xDEBB20E3#32 <;> simp [hr, hl, hc]
  · simp [hr]

theorem readPayload_cnt_delimiter {s : State} (hs : s.state = .readPayload) (h0 : s.line.rxq.head? = some 0#8) :
    (microStep s).after.cnt =
      if s.rx.rem ≠ 0#8 ∨ s.rx.bodyCnt.toNat < 6 then s.cnt.incError s.params.cntOverflow .malformed
      else if s.rx.crc = 0xDEBB20E3#32 then s.cnt.incGood s.params.cntOverflow
      else s.cnt.incError s.params.cntOverflow .badChecksum := by
  obtain ⟨q, hq⟩ := List.head?_eq_some_iff.1 h0
  rw [microStep_readPayload hs hq]
  exact frameEnd_cnt _

theorem readPayload_cnt_delivers {s : State} {x : Byte} (hs : s.state = .readPayload) (hx : s.delivers x) :
    (microStep s).after.cnt =
      if s.rx.bodyCnt.toNat = 1020 then s.cnt.incError s.params.cntOverflow .malformed else s.cnt := by
  obtain ⟨b, q, hq, hb, hd⟩ := hx
  simp only [microStep_readPayload hs hq, readPayloadByte, hb, if_false, RxSession.delivered, hd]
  split <;> simp_all [RxSession.decode]

/-- Without a byte, or on one that is no delimiter and delivers no data, a micro-step counts nothing. -/
theorem microStep_cnt_silent {s : State} (hs : s.state = .readDestination ∨ s.state = .readPayload)
    (h0 : s.line.rxq.head? ≠ some 0#8) (hx : ¬ ∃ x, s.delivers x) : (microStep s).after.cnt = s.cnt := by
  cases hq : s.line.rxq with
  | nil => obtain hs | hs := hs <;> simp [microStep, hs, withRxByte, hq]
  | cons b q =>
    have hb : b ≠ 0#8 := by simpa [hq] using h0
    have hd : (decByte s.rx.rem s.rx.pz b).out = none :=
      Option.eq_none_iff_forall_ne_some.2 fun x hd => hx ⟨x, b, q, hq, hb, hd⟩
    obtain hs | hs := hs
    · simp [microStep_readDestination hs hq, readDestinationByte, hb, RxSession.delivered, hd]
    · simp [microStep_readPayload hs hq, readPayloadByte, hb, RxSession.delivered, hd]

theorem skipByte_cnt (b : Byte) (s : State) : (skipByte b s).after.cnt = s.cnt := by
  unfold skipByte
  split <;> rfl

/-- Only the two states that read a frame count (R39). -/
theorem microStep_cnt_notReading {s : State} (hd : s.state ≠ .readDestination) (hp : s.state ≠ .readPayload) :
    (microStep s).after.cnt = s.cnt := by
  unfold microStep
  cases hs : s.state with
  | start | stopped => rfl
  | readDestination => exact absurd hs hd
  | readPayload => exact absurd hs hp
  | skipCurrentPacket =>
    obtain ⟨_, h⟩ | ⟨b, q, _, h⟩ := withRxByte_cases skipByte s
    · simp only [h, blocked_after]
    · simp only [h, skipByte_cnt]
  | encode => exact (stepEncode_samePacket s).cnt

/-! The rows of R39's table, as conditions of the state before a micro-step. -/

/-- The next byte is a delimiter inside a block. -/
abbrev State.cutsBlock (s : State) : Prop :=
  s.line.rxq.head? = some 0#8 ∧ s.rx.rem ≠ 0#8

/-- The next byte is a delimiter at the end of a block. -/
abbrev State.endsBlock (s : State) : Prop :=
  s.line.rxq.head? = some 0#8 ∧ s.rx.rem = 0#8

/-- R155: a whole frame, long enough, with the residue. -/
abbrev State.countsGood (s : State) : Prop :=
  s.state = .readPayload ∧ s.endsBlock ∧ 6 ≤ s.rx.bodyCnt.toNat ∧ s.rx.crc = 0xDEBB20E3#32

/-- R146, R152, R153, R157: a cut block, a short frame, or a byte past the full buffer. -/
abbrev State.countsMalformed (s : State) : Prop :=
  s.state = .readDestination ∧ s.cutsBlock ∨ s.state = .readPayload ∧ s.cutsBlock ∨
  s.state = .readPayload ∧ s.endsBlock ∧ s.rx.bodyCnt.toNat < 6 ∨
  s.state = .readPayload ∧ s.rx.bodyCnt.toNat = 1020 ∧ ∃ x, s.delivers x

/-- R148: the fourth byte completes a matching destination while a packet is pending. -/
abbrev State.countsOverrun (s : State) : Prop :=
  s.state = .readDestination ∧ s.rx.destCnt = 3#3 ∧ s.pktValid = true ∧
  ∃ x, s.delivers x ∧ s.fourthMatches x = true

/-- R154: a whole frame, long enough, without the residue. -/
abbrev State.countsBadCrc (s : State) : Prop :=
  s.state = .readPayload ∧ s.endsBlock ∧ 6 ≤ s.rx.bodyCnt.toNat ∧ s.rx.crc ≠ 0xDEBB20E3#32

theorem microStep_good {s : State} (h : s.countsGood) :
    (microStep s).after.cnt = s.cnt.incGood s.params.cntOverflow := by
  obtain ⟨hs, ⟨h0, hr⟩, hl, hc⟩ := h
  rw [readPayload_cnt_delimiter hs h0, if_neg (by simp [hr, hl]), if_pos hc]

theorem microStep_malformed {s : State} (h : s.countsMalformed) :
    (microStep s).after.cnt = s.cnt.incError s.params.cntOverflow .malformed := by
  obtain ⟨hs, h0, hr⟩ | ⟨hs, h0, hr⟩ | ⟨hs, ⟨h0, _⟩, hl⟩ | ⟨hs, hf, x, hx⟩ := h
  · rw [readDestination_cnt_delimiter hs h0, if_neg hr]
  · rw [readPayload_cnt_delimiter hs h0, if_pos (.inl hr)]
  · rw [readPayload_cnt_delimiter hs h0, if_pos (.inr hl)]
  · rw [readPayload_cnt_delivers hs hx, if_pos hf]

theorem microStep_overrun {s : State} (h : s.countsOverrun) :
    (microStep s).after.cnt = s.cnt.incError s.params.cntOverflow .overrun := by
  obtain ⟨hs, h3, hv, x, hx, hm⟩ := h
  rw [readDestination_cnt_delivers hs hx, if_pos ⟨h3, hm, hv⟩]

theorem microStep_badCrc {s : State} (h : s.countsBadCrc) :
    (microStep s).after.cnt = s.cnt.incError s.params.cntOverflow .badChecksum := by
  obtain ⟨hs, ⟨h0, hr⟩, hl, hc⟩ := h
  rw [readPayload_cnt_delimiter hs h0, if_neg (by simp [hr, hl]), if_neg hc]

theorem readDestination_cnt_uncounted {s : State} (hs : s.state = .readDestination) (hm : ¬ s.countsMalformed)
    (ho : ¬ s.countsOverrun) : (microStep s).after.cnt = s.cnt := by
  by_cases h0 : s.line.rxq.head? = some 0#8
  · rw [readDestination_cnt_delimiter hs h0, if_pos]
    exact not_not.1 fun hr => hm (.inl ⟨hs, h0, hr⟩)
  · by_cases hx : ∃ x, s.delivers x
    · obtain ⟨x, hx⟩ := hx
      rw [readDestination_cnt_delivers hs hx, if_neg]
      exact fun ⟨h3, hf, hv⟩ => ho ⟨hs, h3, hv, x, hx, hf⟩
    · exact microStep_cnt_silent (.inl hs) h0 hx

theorem readPayload_cnt_uncounted {s : State} (hs : s.state = .readPayload) (hg : ¬ s.countsGood)
    (hm : ¬ s.countsMalformed) (hb : ¬ s.countsBadCrc) : (microStep s).after.cnt = s.cnt := by
  by_cases h0 : s.line.rxq.head? = some 0#8
  · exfalso
    by_cases hr : s.rx.rem = 0#8
    · by_cases hl : s.rx.bodyCnt.toNat < 6
      · exact hm (.inr (.inr (.inl ⟨hs, ⟨h0, hr⟩, hl⟩)))
      · by_cases hc : s.rx.crc = 0xDEBB20E3#32
        · exact hg ⟨hs, ⟨h0, hr⟩, Nat.le_of_not_lt hl, hc⟩
        · exact hb ⟨hs, ⟨h0, hr⟩, Nat.le_of_not_lt hl, hc⟩
    · exact hm (.inr (.inl ⟨hs, h0, hr⟩))
  · by_cases hx : ∃ x, s.delivers x
    · obtain ⟨x, hx⟩ := hx
      rw [readPayload_cnt_delivers hs hx, if_neg]
      exact fun hf => hm (.inr (.inr (.inr ⟨hs, hf, x, hx⟩)))
    · exact microStep_cnt_silent (.inr hs) h0 hx

theorem microStep_cnt_uncounted {s : State} (hg : ¬ s.countsGood) (hm : ¬ s.countsMalformed)
    (ho : ¬ s.countsOverrun) (hb : ¬ s.countsBadCrc) : (microStep s).after.cnt = s.cnt := by
  by_cases hd : s.state = .readDestination
  · exact readDestination_cnt_uncounted hd hm ho
  · by_cases hp : s.state = .readPayload
    · exact readPayload_cnt_uncounted hp hg hm hb
    · exact microStep_cnt_notReading hd hp

/-! ### What an operation counts -/

/-- `PUMP` counts what its micro-steps count; the blocked one counts nothing. -/
theorem exec_pump_cnt {s t : State} (hn : exec .pump s = .next t) :
    ∃ evs u, Progresses s evs u ∧ (microStep u).res = .blocked ∧ t.cnt = u.cnt := by
  obtain ⟨evs, u, hp, hb, h⟩ := pumpLoop_ends_blocked (pumpWork s + 1) s [] (Nat.lt_succ_self _)
  rw [exec_pump, pump, h] at hn
  cases hn
  refine ⟨evs, u, hp, hb, ?_⟩
  obtain e | e := microStep_blocked hb <;> rw [e] <;> rfl

theorem exec_stopRx_cnt {s t : State} (hn : exec .stopRx s = .next t) :
    (s.state ≠ .stopped ∧ s.line.rxq ≠ [] → t.cnt = s.cnt.incError s.params.cntOverflow .rxInterrupted) ∧
    (s.state = .stopped ∨ s.line.rxq = [] → t.cnt = s.cnt) := by
  obtain ⟨hs, rfl⟩ | ⟨hs, rfl⟩ := exec_stopRx_cases hn
  · exact ⟨fun h => absurd hs h.1, fun _ => rfl⟩
  · have hne : s.state ≠ .stopped := by
      intro he
      simp [he, EngineState.receiving] at hs
    rw [stopReceiving_eq]
    exact ⟨fun h => if_neg h.2, fun h => if_pos (h.resolve_left hne)⟩

theorem Effect.cnt_eq {i : Instr} {s t : State} (h1 : i ≠ .step) (h2 : ¬ issues i .stopRx 2)
    (h3 : ¬ issues i .pump 1) (h4 : ¬ issues i .resetPktcnt 6) (he : Effect i s t) : t.cnt = s.cnt := by
  cases he with
  | step h => exact absurd h h1
  | stopRx h => exact absurd h h2
  | pump h => exact absurd h h3
  | resetPktcnt h => exact absurd h h4
  | _ => rfl

/-! ### Counters that saturate never decrease (R38) -/

theorem inc_saturate_of_ne {c : Word} (h : c ≠ 0xFFFFFFFF#32) : (inc .saturate c).toNat = c.toNat + 1 := by
  simp only [inc]
  split <;> bv_omega

theorem inc_wrap (c : Word) : (inc .wrap c).toNat = (c.toNat + 1) % 2 ^ 32 := by
  simp [inc]

theorem le_inc_saturate (c : Word) : c.toNat ≤ (inc .saturate c).toNat := by
  by_cases h : c = 0xFFFFFFFF#32
  · rw [h]
    rfl
  · rw [inc_saturate_of_ne h]
    exact Nat.le_succ _

/-- No counter of `c` is above the same counter of `d`. -/
structure Counters.Le (c d : Counters) : Prop where
  good : c.good.toNat ≤ d.good.toNat
  malformed : c.malformed.toNat ≤ d.malformed.toNat
  overrun : c.overrun.toNat ≤ d.overrun.toNat
  badCrc : c.badCrc.toNat ≤ d.badCrc.toNat
  rxInterrupted : c.rxInterrupted.toNat ≤ d.rxInterrupted.toNat

theorem Counters.Le.refl (c : Counters) : c.Le c := ⟨le_rfl, le_rfl, le_rfl, le_rfl, le_rfl⟩

theorem Counters.Le.trans {c d e : Counters} (h : c.Le d) (k : d.Le e) : c.Le e :=
  ⟨h.good.trans k.good, h.malformed.trans k.malformed, h.overrun.trans k.overrun, h.badCrc.trans k.badCrc,
    h.rxInterrupted.trans k.rxInterrupted⟩

theorem Counters.le_incGood (c : Counters) : c.Le (c.incGood .saturate) :=
  { Counters.Le.refl c with good := le_inc_saturate _ }

theorem Counters.le_incError (e : CoreError) (c : Counters) : c.Le (c.incError .saturate e) := by
  cases e with
  | malformed => exact { Counters.Le.refl c with malformed := le_inc_saturate _ }
  | overrun => exact { Counters.Le.refl c with overrun := le_inc_saturate _ }
  | badChecksum => exact { Counters.Le.refl c with badCrc := le_inc_saturate _ }
  | rxInterrupted => exact { Counters.Le.refl c with rxInterrupted := le_inc_saturate _ }

theorem microStep_cnt_le {s : State} (ho : s.params.cntOverflow = .saturate) :
    s.cnt.Le (microStep s).after.cnt := by
  by_cases hg : s.countsGood
  · rw [microStep_good hg, ho]
    exact s.cnt.le_incGood
  by_cases hm : s.countsMalformed
  · rw [microStep_malformed hm, ho]
    exact s.cnt.le_incError _
  by_cases hv : s.countsOverrun
  · rw [microStep_overrun hv, ho]
    exact s.cnt.le_incError _
  by_cases hb : s.countsBadCrc
  · rw [microStep_badCrc hb, ho]
    exact s.cnt.le_incError _
  rw [microStep_cnt_uncounted hg hm hv hb]
  exact .refl _

theorem pump_cnt_le {s : State} (ho : s.params.cntOverflow = .saturate) : s.cnt.Le (pump s).1.cnt := by
  have h : (pump s).1.params = s.params ∧ s.cnt.Le (pump s).1.cnt :=
    pump_induct (P := fun t => t.params = s.params ∧ s.cnt.Le t.cnt)
      (fun t ⟨hp, hc⟩ => ⟨(microStep_keepsHost t).params.trans hp, hc.trans (microStep_cnt_le (hp ▸ ho))⟩)
      ⟨rfl, .refl _⟩
  exact h.2

theorem stopReceiving_cnt_le {s : State} (ho : s.params.cntOverflow = .saturate) :
    s.cnt.Le (stopReceiving s).cnt := by
  rw [stopReceiving_eq, ho]
  dsimp only
  split
  · exact .refl _
  · exact s.cnt.le_incError _

theorem Effect.cnt_le {i : Instr} {s t : State} (ho : s.params.cntOverflow = .saturate)
    (hr : ¬ issues i .resetPktcnt 6) (he : Effect i s t) : s.cnt.Le t.cnt := by
  cases he with
  | pump => exact pump_cnt_le ho
  | step => exact microStep_cnt_le ho
  | stopRx => exact stopReceiving_cnt_le ho
  | resetPktcnt h => exact absurd h hr
  | _ => exact .refl _

/-! ### The statements -/

/-- Settles O11: a step runs an operation, which has one of the effects of `exec_effect`; or ignores its bytes;
or is what the line does, or a reset. Each keeps the invariant. -/
theorem everyStepKeepsTheInvariant : Obligations.EveryStepKeepsTheInvariant := by
  intro s t h hn
  rcases ha : s.agenda with _ | ⟨bytes | a | _, rest⟩
  · rw [step_of_agenda_nil ha] at hn
    cases hn
    exact h
  · cases hd : decode bytes with
    | ok i =>
      rw [step_of_operation ha hd] at hn
      exact (exec_effect hn).inv (agenda_inv rest h)
    | error e =>
      rw [step_of_undecodable ha hd] at hn
      cases hn
      exact agenda_inv rest h
  · rw [step_of_line ha] at hn
    cases hn
    exact lineAct_inv a (agenda_inv rest h)
  · rw [step_of_reset ha] at hn
    cases hn
    exact resetCore_inv (agenda_inv rest h)

/-- Settles O50: with a packet pending no micro-step receives into the buffer, and of the other effects only
those of a bus write touch the packet and only `RELEASE` clears the flag. -/
theorem heldPacketIsKept : Obligations.HeldPacketIsKept := by
  intro i s t hv hs hn
  refine ⟨fun hw => (exec_effect hn).keepsContents hv hs hw, fun hi hcmd => ?_⟩
  exact (exec_effect hn).keepsPktValid hv hs (not_issues hi hcmd)

/-- Settles O32: one lemma per row of the table for `STEP`, one per counting command, and `exec_effect` for
every other operation. -/
theorem counterCauses : Obligations.CounterCauses := by
  intro i s t hn
  refine ⟨?_, fun hi => exec_stopRx_cnt (exec_of_issues .stopRx hi hn),
    fun hi => exec_pump_cnt (exec_of_issues .pump hi hn), fun hi => ?_,
    fun h1 h2 h3 h4 => (exec_effect hn).cnt_eq h1 h2 h3 h4⟩
  · rintro rfl
    rw [exec_step] at hn
    cases hn
    exact ⟨microStep_good, microStep_malformed, microStep_overrun, microStep_badCrc, microStep_cnt_uncounted⟩
  · cases exec_of_issues .resetPktcnt hi hn
    rfl

/-- Settles O45: the enables follow the main state under the invariant, which the operation keeps. -/
theorem enableBits : Obligations.EnableBits := by
  refine ⟨⟨rfl, rfl⟩, fun i s t h hn => ?_⟩
  refine ⟨((exec_effect hn).inv h).not_both_enabled, ?_, ?_, ?_, fun hp => (exec_effect hn).enables h hp⟩
  · rintro rfl hstart
    rw [exec_step] at hn
    cases hn
    obtain hs | hf := hstart
    · rw [microStep_start hs]
      exact ⟨rfl, rfl⟩
    · rw [microStep_flushed hf]
      exact ⟨rfl, rfl⟩
  · rintro rfl hb
    rw [exec_step, microStep_begins hb] at hn
    cases hn
    rfl
  · exact fun hi => exec_stopRx_rxEn h (exec_of_issues .stopRx hi hn)

/-- Settles O49: an increment that saturates never lowers its counter, and but for the counter reset an operation
only increments. -/
theorem countersNeverDecrease : Obligations.CountersNeverDecrease := by
  refine ⟨rfl, fun c => ⟨inc_saturate_of_ne, rfl, inc_wrap c⟩, fun i s t ho hn hi hcmd => ?_⟩
  obtain ⟨hg, hm, hv, hb, hr⟩ := (exec_effect hn).cnt_le ho (not_issues hi hcmd)
  exact ⟨hg, hm, hv, hb, hr⟩

/-- Settles O51: of the effects only a bus write inside the filter reaches it. -/
theorem filterChangesByBusWritesAlone : Obligations.FilterChangesByBusWritesAlone := by
  intro i s t hn
  obtain ⟨hp, ha, he⟩ := (exec_effect hn).keepsEnvironment
  exact ⟨hp, ha, he, fun hi => (exec_effect hn).keepsFilter hi⟩

/-- Settles O9: the values every reset gives, at power-on. -/
theorem resetValues : Obligations.ResetValues :=
  ⟨State.afterReset_atResetValues 0 Line.initial [] Config.defaultParams, rfl, rfl⟩

/-- Settles O10: the invariant after any reset, with the line of power-on. -/
theorem invariantAtReset : Obligations.InvariantAtReset :=
  State.afterReset_inv 0 [] (by simp [Line.initial]) (by simp [Line.initial])

/-- Settles O29: what each address reaches, and what a write there does. -/
theorem busWritesInEveryState : Obligations.BusWritesInEveryState := by
  intro v s
  refine ⟨rfl, rfl, fun i => ?_, fun a ha => ?_, fun a n ha => ?_⟩
  · simp only [exec, execBusWr, busTarget_unicast]
    rfl
  · have ht : busTarget a 4 = .reg (busReg a.toNat) := busTarget_reg (by omega) (by omega) (by omega)
    simp only [exec, execBusWr, ht]
    exact writeReg_readOnly ha v s
  · simp only [exec, execBusWr, busTarget_hole n ha]
    rfl

end Sys2Proof.Machine
end

section
/-! PROOF. The family of spec/20_memory.md: the bytes that join `RXQ` (O7), the law of the sink (O8), the bus
accesses that stop (O27), and what stores to the packet buffer (O52). -/

namespace Sys2Proof.Machine

/-! ### Bytes from the line (R56) -/

/-- The bytes of `x` that find room in `RXQ` when they arrive at the line `l`. -/
def Line.accepted (depth : Option Nat) (l : Line) (x : List Byte) : List Byte :=
  match depth with
  | none => x
  | some k => x.take (k - l.rxq.length)

theorem foldl_arrive_eq (d : Option Nat) (x : List Byte) (l : Line) :
    x.foldl (Line.arrive d) l = { l with rxq := l.rxq ++ l.accepted d x } := by
  induction x generalizing l with
  | nil => cases d <;> simp [Line.accepted]
  | cons b x ih =>
    rw [List.foldl_cons, ih]
    cases d with
    | none => simp [Line.arrive, Line.accepted]
    | some k =>
      by_cases hroom : l.rxq.length < k
      · have hk : k - l.rxq.length = k - (l.rxq.length + 1) + 1 := by omega
        simp [Line.arrive, Line.accepted, hroom, hk]
      · have hk : k - l.rxq.length = 0 := by omega
        simp [Line.arrive, Line.accepted, hroom, hk]

theorem lineAct_receive_disabled {s : State} (x : List Byte) (h : s.rxEn = false) :
    lineAct (.receive x) s = s := by
  simp [lineAct, h]

theorem lineAct_receive_enabled {s : State} (x : List Byte) (h : s.rxEn = true) :
    lineAct (.receive x) s =
      { s with line := { s.line with rxq := s.line.rxq ++ s.line.accepted s.params.rxqDepth x } } := by
  simp [lineAct, h, foldl_arrive_eq]

/-! ### The sink (R57) -/

theorem Line.drain_txs (k : Nat) (l : Line) : (l.drain k).txs = l.txs := by
  simp [Line.drain, Line.txs]

theorem Line.setIdle_txs (t : Bool) (l : Line) : (l.setIdle t).txs = l.txs := by
  cases t with
  | false => rfl
  | true => exact l.drain_txs l.sink.length

theorem Line.setIdle_true_sink (l : Line) : (l.setIdle true).sink = [] := by
  simp [Line.setIdle, Line.drain]

theorem lineAct_txs (a : LineAction) (s : State) : (lineAct a s).line.txs = s.line.txs := by
  cases a with
  | receive x =>
    cases h : s.rxEn with
    | false => rw [lineAct_receive_disabled x h]
    | true => rw [lineAct_receive_enabled x h]; rfl
  | drain k => exact Line.drain_txs k s.line
  | room k => rfl
  | idle t => exact Line.setIdle_txs t s.line

theorem lineAct_eq_line (a : LineAction) (s : State) : lineAct a s = { s with line := (lineAct a s).line } := by
  cases a with
  | receive x =>
    simp only [lineAct]
    split <;> rfl
  | drain k => rfl
  | room k => rfl
  | idle t => rfl

/-- Of the effects, only the micro-steps push. -/
theorem Effect.pushed {i : Instr} {s t : State} (he : Effect i s t) : s.line.Pushed t.line := by
  cases he with
  | pump => exact pump_pushed s
  | step => exact microStep_pushed s
  | stopRx =>
    rw [stopReceiving_eq]
    exact Line.rxq_pushed [] s.line
  | _ => exact .refl _

/-! ### Bus accesses that stop (R58, R59) -/

theorem busTarget_eq_bad_iff (a : Addr) (n : Nat) :
    busTarget a n = .bad ↔
      a.toNat ≤ 0x3FB ∧ n ≠ 1 ∨ 0x400 ≤ a.toNat ∧ a.toNat ≤ 0x487 ∧ (n ≠ 4 ∨ a.toNat % 4 ≠ 0) := by
  unfold busTarget
  dsimp only
  split_ifs <;> simp only [true_iff, false_iff] <;> omega

/-- No command is refused as a bad access. -/
theorem CommandCode.exec_ne_badAccess {op : Instr} {code : Nat} (hc : CommandCode op code) (s : State) :
    exec op s ≠ .refused .busBadAccess := by
  cases hc with
  | stopRx =>
    change cmdStopRx s ≠ _
    unfold cmdStopRx
    split <;> simp
  | startRx =>
    change cmdStartRx s ≠ _
    unfold cmdStartRx
    split <;> simp
  | startTx =>
    change cmdStartTx s ≠ _
    unfold cmdStartTx
    split_ifs <;> simp
  | pump | release | resetPktcnt => exact nofun

theorem ownedWrite_ne_badAccess (f : State → State) (s : State) : ownedWrite f s ≠ .refused .busBadAccess := by
  obtain ⟨_, h⟩ | ⟨_, h⟩ := ownedWrite_cases f s <;> rw [h] <;> exact nofun

theorem writeReg_ne_badAccess (r : BusReg) (v : Word) (s : State) : writeReg r v s ≠ .refused .busBadAccess := by
  cases r with
  | dest => exact ownedWrite_ne_badAccess (fun u => { u with dest := v }) s
  | pktLen => exact ownedWrite_ne_badAccess (fun u => { u with pktLen := v.extractLsb' 0 11 }) s
  | cmd =>
    change issueCommand v s ≠ _
    obtain h | ⟨op, code, hop, _, h⟩ := issueCommand_cases v s <;> rw [h]
    · exact nofun
    · exact hop.exec_ne_badAccess s
  | _ => exact nofun

theorem exec_busRd_badAccess_iff (a : Addr) (n : Nat) (s : State) :
    exec (.busRd a n) s = .refused .busBadAccess ↔ busTarget a n = .bad := by
  simp only [exec, execBusRd]
  cases busTarget a n <;> simp

theorem exec_busWr_badAccess_iff (a : Addr) (n : Nat) (v : Word) (s : State) :
    exec (.busWr a n v) s = .refused .busBadAccess ↔ busTarget a n = .bad := by
  simp only [exec, execBusWr]
  cases busTarget a n with
  | buf i => simp [ownedWrite_ne_badAccess]
  | reg r => simp [writeReg_ne_badAccess]
  | hole => simp
  | bad => simp

/-! ### What stores to the packet buffer (R50) -/

/-- Of the effects, only those of the micro-steps and of a bus write store to the buffer. -/
theorem Effect.keepsBuffer {i : Instr} {s t : State} (hp : ¬ issues i .pump 1) (hs : i ≠ .step)
    (hw : isBusWrite i = false) (he : Effect i s t) (k : Nat) : pktRead t k = pktRead s k := by
  cases he with
  | pump h => exact absurd h hp
  | step h => exact absurd h hs
  | stopRx =>
    rw [stopReceiving_eq]
    rfl
  | writeByte h => simp [hw] at h
  | _ => rfl

theorem CommandCode.keepsBuffer {op : Instr} {code : Nat} {s t : State} (hc : CommandCode op code)
    (h1 : code ≠ 1) (hn : exec op s = .next t) (k : Nat) : pktRead t k = pktRead s k := by
  cases hc with
  | pump => exact absurd rfl h1
  | _ => refine (exec_effect hn).keepsBuffer ?_ ?_ rfl k <;> simp [issues]

/-- A register write leaves the buffer, unless it issues `PUMP` through `CMD`. -/
theorem writeReg_keepsBuffer {r : BusReg} {v : Word} {s t : State} (hp : r = .cmd → v.toNat % 256 ≠ 1)
    (hn : writeReg r v s = .next t) (k : Nat) : pktRead t k = pktRead s k := by
  cases r with
  | dest =>
    obtain ⟨_, rfl⟩ := ownedWrite_next (f := fun u => { u with dest := v }) hn
    rfl
  | pktLen =>
    obtain ⟨_, rfl⟩ := ownedWrite_next (f := fun u => { u with pktLen := v.extractLsb' 0 11 }) hn
    rfl
  | cmd =>
    obtain h | ⟨op, code, hop, hv, h⟩ := issueCommand_cases v s
    · cases h.symm.trans hn
      rfl
    · exact hop.keepsBuffer (hv ▸ hp rfl) (h.symm.trans hn) k
  | _ =>
    cases hn
    rfl

theorem execBusWr_keepsByte {a : Addr} {n : Nat} {v : Word} {s t : State} {k : Nat}
    (hp : a = 0x40C#12 → v.toNat % 256 ≠ 1) (hk : busTarget a n ≠ .buf k) (hn : execBusWr a n v s = .next t) :
    pktRead t k = pktRead s k := by
  unfold execBusWr at hn
  split at hn
  case h_1 j hj =>
    obtain ⟨_, rfl⟩ := ownedWrite_next hn
    have hne : k ≠ j := fun e => hk (e ▸ hj)
    exact pktRead_pktWrite_other s _ hne
  case h_2 r hr => exact writeReg_keepsBuffer (fun e => hp (busTarget_cmd (e ▸ hr))) hn k
  case h_3 =>
    cases hn
    rfl
  case h_4 => cases hn

/-! ### The statements -/

/-- Settles O7: the fold over the arriving bytes appends those that find room. -/
theorem receivedBytesJoinTheQueue : Obligations.ReceivedBytesJoinTheQueue := by
  refine fun s x => ⟨lineAct_receive_disabled x, fun hrx hd => ?_, fun k hrx hd => ?_⟩
  · rw [lineAct_receive_enabled x hrx, hd]
    rfl
  · rw [lineAct_receive_enabled x hrx, hd]
    rfl

/-- Settles O8: one lemma per clause for the line; an operation pushes in its micro-steps alone. -/
theorem lineKeepsTheTransmittedStream : Obligations.LineKeepsTheTransmittedStream := by
  refine ⟨fun a s => ⟨lineAct_txs a s, lineAct_eq_line a s, lineAct_room_le a s, fun k hk => Nat.max_eq_right hk,
    fun _ => rfl, ⟨rfl, s.line.setIdle_true_sink⟩, rfl⟩, fun i s t hn => ?_⟩
  exact (exec_effect hn).pushed

/-- Settles O27: both bus operations stop as a bad access exactly where the address map has no target. -/
theorem busAccessStops : Obligations.BusAccessStops :=
  fun a n v s =>
    ⟨(exec_busRd_badAccess_iff a n s).trans (busTarget_eq_bad_iff a n),
      (exec_busWr_badAccess_iff a n v s).trans (busTarget_eq_bad_iff a n)⟩

/-- Settles O52: a bus write is judged by what its address reaches, every other operation by its effect. -/
theorem bufferFrame : Obligations.BufferFrame := by
  intro i s t hn hpump hstep hcmd k hk
  have hp : ¬ issues i .pump 1 := not_issues hpump fun n v e => hcmd _ n v e rfl
  cases i with
  | busWr a n v => exact execBusWr_keepsByte (hcmd a n v rfl) (hk a n v rfl) hn
  | _ => exact (exec_effect hn).keepsBuffer hp hstep rfl k

end Sys2Proof.Machine
end

section
/-! PROOF. The family of spec/30_encoding.md: decode and encode are inverse to each other (O1, O2), the operation
codes (O3, O4), what the bus reads (O26), the commands through `CMD` (O30), the fields of `STATUS` (O31). -/

namespace Sys2Proof

/-! ### Bytes that decode are an encoding (R80, R81)

One lemma per operand form says that its parser yields well-formed operations whose operand block is what was
parsed; `parse_isSpelling` puts them together, code by code. -/

/-- The operation `i` is well formed and is issued as the code of number `code` with the operand block `ops`. -/
structure IsSpelling (i : Instr) (code : Nat) (ops : List Byte) : Prop where
  wellFormed : i.wellFormed = true
  opcode : (opcode i).toNat = code
  operandBlock : operandBlock i = ops

theorem parseNone_isSpelling {i j : Instr} {code : Nat} {ops : List Byte} (hi : IsSpelling i code [])
    (h : parseNone i ops = some j) : IsSpelling j code ops := by
  unfold parseNone at h
  split at h <;> cases h
  exact hi

theorem parseByte_isSpelling {f : Byte → Instr} {i : Instr} {code : Nat} {ops : List Byte}
    (hf : ∀ b, IsSpelling (f b) code [b]) (h : parseByte f ops = some i) : IsSpelling i code ops := by
  unfold parseByte at h
  split at h <;> cases h
  exact hf _

theorem parseWord_isSpelling {f : Word → Instr} {i : Instr} {code : Nat} {ops : List Byte}
    (hf : ∀ c, IsSpelling (f c) code (Machine.le32 c)) (h : parseWord f ops = some i) : IsSpelling i code ops := by
  unfold parseWord at h
  split at h <;> cases h
  rw [← Machine.le32_unle32]
  exact hf _

/-- The width that a byte stores less one is a width the operand block admits. -/
theorem width_of_byte (n : Byte) : 1 ≤ n.toNat + 1 ∧ n.toNat + 1 ≤ 256 := by
  omega

theorem parseBusRd_isSpelling {i : Instr} {ops : List Byte} (h : parseBusRd ops = some i) :
    IsSpelling i 0x10 ops := by
  unfold parseBusRd at h
  split at h
  · rename_i lo hi n
    obtain ⟨a, ha, rfl⟩ := Option.map_eq_some_iff.1 h
    exact ⟨decide_eq_true (width_of_byte n), rfl, by simp [operandBlock, addrBytes_parseAddr ha]⟩
  · cases h

theorem parseBusWr_isSpelling {i : Instr} {ops : List Byte} (h : parseBusWr ops = some i) :
    IsSpelling i 0x11 ops := by
  unfold parseBusWr at h
  split at h
  · rename_i lo hi n v0 v1 v2 v3
    obtain ⟨a, ha, rfl⟩ := Option.map_eq_some_iff.1 h
    exact ⟨decide_eq_true (width_of_byte n), rfl,
      by simp [operandBlock, addrBytes_parseAddr ha, Machine.le32_unle32]⟩
  · cases h

/-- The byte of a flag, written back from the flag that was read. -/
theorem flagByte_of_lt {pz : Byte} (h : pz.toNat < 2) : (if (pz == 1#8) = true then 1#8 else 0#8) = pz := by
  by_cases h1 : pz = 1#8
  · simp [h1]
  · have h0 : pz = 0#8 := by bv_omega
    simp [h0]

theorem parseDecByte_isSpelling {i : Instr} {ops : List Byte} (h : parseDecByte ops = some i) :
    IsSpelling i 0x22 ops := by
  unfold parseDecByte at h
  split at h
  · split at h <;> cases h
    rename_i hpz
    exact ⟨rfl, rfl, by simp only [operandBlock, flagByte_of_lt hpz, BitVec.add_sub_cancel]⟩
  · cases h

theorem parseCrcUpdate_isSpelling {i : Instr} {ops : List Byte} (h : parseCrcUpdate ops = some i) :
    IsSpelling i 0x29 ops := by
  unfold parseCrcUpdate at h
  split at h <;> cases h
  exact ⟨rfl, rfl, by simp [operandBlock, Machine.le32_unle32]⟩

theorem parseSerialize_isSpelling {i : Instr} {ops : List Byte} (h : parseSerialize ops = some i) :
    IsSpelling i 0x30 ops := by
  unfold parseSerialize at h
  split at h <;> cases h
  exact ⟨rfl, rfl, by simp [operandBlock, Machine.le32_unle32]⟩

theorem parse_isSpelling {code : Byte} {ops : List Byte} {i : Instr} (h : parse code ops = some (some i)) :
    IsSpelling i code.toNat ops := by
  unfold parse at h
  split at h <;> rename_i hc <;> simp only [Option.some.injEq, reduceCtorEq] at h <;> rw [hc]
  -- no operands
  case h_1 | h_2 | h_3 | h_4 | h_5 | h_6 | h_9 | h_16 => exact parseNone_isSpelling ⟨rfl, rfl, rfl⟩ h
  -- the bus
  case h_7 => exact parseBusRd_isSpelling h
  case h_8 => exact parseBusWr_isSpelling h
  -- a byte sequence alone
  case h_10 | h_11 | h_19 | h_22 =>
    subst h
    exact ⟨rfl, rfl, rfl⟩
  -- the COBS sessions
  case h_12 => exact parseDecByte_isSpelling h
  case h_13 | h_14 => exact parseByte_isSpelling (fun _ => ⟨rfl, rfl, rfl⟩) h
  case h_15 => exact parseByte_isSpelling (fun b => ⟨rfl, rfl, by simp [operandBlock]⟩) h
  -- the CRC accumulators
  case h_17 => exact parseCrcUpdate_isSpelling h
  case h_18 | h_20 => exact parseWord_isSpelling (fun _ => ⟨rfl, rfl, rfl⟩) h
  -- the serializer
  case h_21 => exact parseSerialize_isSpelling h

theorem decode_eq_ok {bytes : List Byte} {i : Instr} (h : decode bytes = .ok i) :
    ∃ code ops, bytes = code :: ops ∧ parse code ops = some (some i) := by
  unfold decode at h
  split at h
  · cases h
  · split at h <;> cases h
    exact ⟨_, _, rfl, ‹_›⟩

theorem encode_of_decode {bytes : List Byte} {i : Instr} (h : decode bytes = .ok i) :
    i.wellFormed = true ∧ encode i = bytes := by
  obtain ⟨code, ops, rfl, hp⟩ := decode_eq_ok h
  obtain ⟨hw, hc, ho⟩ := parse_isSpelling hp
  exact ⟨hw, congrArg₂ List.cons (BitVec.eq_of_toNat_eq hc) ho⟩

theorem decode_of_encode_eq {bytes : List Byte} {i : Instr} (hw : i.wellFormed = true) (hb : encode i = bytes) :
    decode bytes = .ok i :=
  hb ▸ decode_encode hw

/-! ### The table of operation codes (R81) -/

/-- One well-formed operation per row of the table. -/
def oneOfEachCode : List Instr :=
  [.pump, .stopRx, .startRx, .startTx, .release, .resetPktcnt, .busRd 0#12 1, .busWr 0#12 1 0#32, .step,
    .cobsEncode [], .cobsDecode [], .decByte 0#8 false 1#8, .decEnd 0#8, .encFeed 0#8, .encClose 1#8,
    .crcInit, .crcUpdate 0#32 0#8, .crcFinal 0#32, .crc32 [], .crcVerify 0#32, .serialize 0#32 0#8 0#8 [],
    .deserialize []]

/-- The codes of R81, in the table's order. -/
def codeTable : List Nat :=
  oneOfEachCode.map fun i => (opcode i).toNat

theorem oneOfEachCode_wellFormed : ∀ i ∈ oneOfEachCode, i.wellFormed = true := by
  decide

theorem parse_of_codeOutsideTable {code : Byte} (ops : List Byte)
    (h : code.toNat ∉ codeTable) : parse code ops = none := by
  unfold parse
  split
  case h_23 => rfl
  all_goals
    rename_i hc
    rw [hc] at h
    exact absurd (by decide) h

theorem decode_of_codeInTable {code : Byte} (h : code.toNat ∈ codeTable) :
    ∃ ops i, decode (code :: ops) = .ok i := by
  obtain ⟨i, hi, hc⟩ := List.mem_map.1 h
  obtain rfl : opcode i = code := BitVec.eq_of_toNat_eq hc
  exact ⟨operandBlock i, i, decode_encode (oneOfEachCode_wellFormed i hi)⟩

/-! ### The statements about the encoding -/

/-- Settles O1: the decoder reads every operation's own operand block back. -/
theorem encodeThenDecode : Obligations.EncodeThenDecode :=
  fun _ => decode_encode

/-- Settles O2: each operand form's parser yields the operation whose block it read. -/
theorem decodedBytesAreTheEncoding : Obligations.DecodedBytesAreTheEncoding :=
  fun _ _ => encode_of_decode

/-- Settles O4: outside the table the parser has no row; inside it `oneOfEachCode` has an operation to encode. -/
theorem codesOutsideTheTableAreRejected : Obligations.CodesOutsideTheTableAreRejected :=
  fun _ => ⟨fun h ops => by simp only [decode, parse_of_codeOutsideTable ops h], decode_of_codeInTable⟩

/-- Settles O3: each word is the encoding of its operation. -/
theorem operationCodeWords : Obligations.OperationCodeWords := by
  and_intros <;> exact decode_of_encode_eq rfl rfl

end Sys2Proof

namespace Sys2Proof.Machine

/-! ### What `BUS_RD` reads (R83 to R85, R221) -/

theorem busTarget_byte {a : Addr} (h : a.toNat ≤ 0x3FB) : busTarget a 1 = .buf a.toNat := by
  unfold busTarget
  dsimp only
  rw [if_pos h, if_pos rfl]

theorem busReg_hole {k : Nat} (hl : 0x424 ≤ k) (hu : k < 0x440) : busReg k = .nothing := by
  unfold busReg
  iterate 9 rw [if_neg (by omega)]
  rw [if_pos hu]

theorem exec_busRd_buf {a : Addr} {n k : Nat} (h : busTarget a n = .buf k) (s : State) :
    exec (.busRd a n) s = .next (answer (.busData n ((pktRead s k).zeroExtend 32)) [] s) := by
  simp only [exec, execBusRd, h]

theorem exec_busRd_reg {a : Addr} {n : Nat} {r : BusReg} (h : busTarget a n = .reg r) (s : State) :
    exec (.busRd a n) s = .next (answer (.busData n (readReg r s)) [] s) := by
  simp only [exec, execBusRd, h]

theorem exec_busRd_hole {a : Addr} {n : Nat} (h : busTarget a n = .hole) (s : State) :
    exec (.busRd a n) s = .next (answer (.busData n 0#32) [] s) := by
  simp only [exec, execBusRd, h]

/-! ### Values of `CMD` that are no command (R82, R220) -/

theorem CommandCode.bounds {op : Instr} {code : Nat} (hc : CommandCode op code) : 1 ≤ code ∧ code ≤ 6 := by
  cases hc <;> decide

theorem issueCommand_ignored {v : Word} (h : v.toNat % 256 = 0 ∨ 6 < v.toNat % 256) (s : State) :
    issueCommand v s = .next (answer .none [] s) := by
  obtain hs | ⟨_, _, hop, hv, _⟩ := issueCommand_cases v s
  · exact hs
  · have := hop.bounds
    omega

theorem exec_busWr_cmd_eq_exec {op : Instr} {code : Nat} {v : Word} (hc : CommandCode op code) (s : State)
    (hv : v.toNat % 256 = code) : exec (.busWr 0x40C#12 4 v) s = exec op s := by
  rw [exec_busWr_cmd, if_pos rfl, issueCommand_eq_exec hc hv]

/-! ### The fields of `STATUS` (R86) -/

/-- An appended word as a number: the right part is the low digits. -/
theorem toNat_append_eq_add {m n : Nat} (x : BitVec m) (y : BitVec n) :
    (x ++ y).toNat = 2 ^ n * x.toNat + y.toNat := by
  rw [BitVec.toNat_append, Nat.shiftLeft_eq, Nat.mul_comm, Nat.two_pow_add_eq_or_of_lt y.isLt]

/-- `STATUS` as the sum of its fields, each at its place. -/
theorem statusWord_toNat (s : State) :
    (statusWord s).toNat =
      (stateCode s.state).toNat + 8 * (stageCode s.encStage).toNat + 64 * s.encStalled.toNat +
        128 * s.pktValid.toNat + 256 * s.rxEn.toNat + 512 * s.txEn.toNat := by
  simp only [statusWord, toNat_append_eq_add, bit, BitVec.toNat_ofBool, BitVec.toNat_ofNat]
  omega

theorem statusWord_stateField (s : State) : (statusWord s).toNat % 8 = (stateCode s.state).toNat := by
  have := statusWord_toNat s
  have := (stateCode s.state).isLt
  omega

theorem statusWord_stageField (s : State) : (statusWord s).toNat / 8 % 8 = (stageCode s.encStage).toNat := by
  have := statusWord_toNat s
  have := (stateCode s.state).isLt
  have := (stageCode s.encStage).isLt
  omega

theorem statusWord_flags (s : State) :
    (statusWord s).getLsbD 6 = s.encStalled ∧ (statusWord s).getLsbD 7 = s.pktValid ∧
    (statusWord s).getLsbD 8 = s.rxEn ∧ (statusWord s).getLsbD 9 = s.txEn := by
  simp only [statusWord, bit, BitVec.getLsbD_append]
  simp

/-- The upper 22 bits are 0. -/
theorem statusWord_lt (s : State) : (statusWord s).toNat < 1024 := by
  have := statusWord_toNat s
  have := (stateCode s.state).isLt
  have := (stageCode s.encStage).isLt
  have := s.encStalled.toNat_le
  have := s.pktValid.toNat_le
  have := s.rxEn.toNat_le
  have := s.txEn.toNat_le
  omega

/-! ### The statements about the bus -/

/-- Settles O26: what each address reaches, and what a read there answers. -/
theorem busReadValues : Obligations.BusReadValues := by
  intro s
  refine ⟨fun a ha => exec_busRd_buf (busTarget_byte ha) s, fun a n ha => exec_busRd_hole (busTarget_hole n ha) s,
    exec_busRd_reg (r := .dest) rfl s, exec_busRd_reg (r := .pktLen) rfl s, exec_busRd_reg (r := .status) rfl s,
    exec_busRd_reg (r := .cmd) rfl s, exec_busRd_reg (r := .good) rfl s, exec_busRd_reg (r := .malformed) rfl s,
    exec_busRd_reg (r := .overrun) rfl s, exec_busRd_reg (r := .badCrc) rfl s,
    exec_busRd_reg (r := .rxInterrupted) rfl s, fun a hl hu h4 => ?_, exec_busRd_reg (r := .mcastAddr) rfl s,
    exec_busRd_reg (r := .mcastMask) rfl s, fun i => exec_busRd_reg (busTarget_unicast i) s⟩
  have ht : busTarget a 4 = .reg .nothing := by
    rw [busTarget_reg (by omega) (by omega) h4, busReg_hole hl (by omega)]
  exact exec_busRd_reg ht s

/-- Settles O30: a write to `CMD` issues the command of its low byte, if there is one. -/
theorem commandRegister : Obligations.CommandRegister := by
  intro v s
  refine ⟨exec_busWr_cmd_eq_exec .pump s, exec_busWr_cmd_eq_exec .stopRx s, exec_busWr_cmd_eq_exec .startRx s,
    exec_busWr_cmd_eq_exec .startTx s, exec_busWr_cmd_eq_exec .release s, exec_busWr_cmd_eq_exec .resetPktcnt s,
    fun h => ?_⟩
  rw [exec_busWr_cmd, if_pos rfl, issueCommand_ignored h]
  rfl

/-- Settles O31: the codes and the flags stand at their places in the word. -/
theorem statusWordFields : Obligations.StatusWordFields := by
  intro s
  obtain ⟨hstalled, hvalid, hrx, htx⟩ := statusWord_flags s
  refine ⟨?_, ?_, hstalled, hvalid, hrx, htx, statusWord_lt s⟩
  · rw [statusWord_stateField]
    cases s.state <;> rfl
  · rw [statusWord_stageField]
    cases s.encStage <;> rfl

end Sys2Proof.Machine
end

section
/-! PROOF. The family of spec/40_cobs.md: the encoder and the decoder block by block (O17, O18), what follows for
whole sequences (O16), the streaming decoder (O19, O20) and the streaming encoder (O21). -/

namespace Sys2Proof.Machine

/-! ### The encoder, block by block (R100) -/

/-- The code byte of a block of at most 254 literals, as a number. -/
theorem toNat_codeByte {n : Nat} (h : n ≤ 254) : (BitVec.ofNat 8 (n + 1)).toNat = n + 1 :=
  Nat.mod_eq_of_lt (by omega)

theorem codeByte_ne_zero {n : Nat} (h : n ≤ 254) : BitVec.ofNat 8 (n + 1) ≠ 0#8 := by
  have := toNat_codeByte h
  bv_omega

/-- Literals join the open block while it stays below 254. -/
theorem cobsEncodeFrom_literals {l : List Byte} (blk x : List Byte) (h0 : 0#8 ∉ l)
    (h : blk.length + l.length < 254) : cobsEncodeFrom blk (l ++ x) = cobsEncodeFrom (blk ++ l) x := by
  induction l generalizing blk with
  | nil => simp
  | cons b l ih =>
    obtain ⟨hb, hl⟩ := List.ne_and_not_mem_of_not_mem_cons h0
    rw [List.length_cons] at h
    have hroom : (blk ++ [b]).length ≠ Config.cobsMaxRun := by
      rw [List.length_append, List.length_singleton, Config.cobsMaxRun]
      omega
    have hlen : (blk ++ [b]).length + l.length < 254 := by
      rw [List.length_append, List.length_singleton]
      omega
    rw [List.cons_append, cobsEncodeFrom, if_neg hb.symm, if_neg hroom, ih _ hl hlen, ← List.append_cons]

theorem cobsEncode_last {l : List Byte} (h0 : 0#8 ∉ l) (h : l.length < 254) :
    cobsEncode l = BitVec.ofNat 8 (l.length + 1) :: l := by
  simpa [cobsEncode, cobsEncodeFrom] using cobsEncodeFrom_literals [] [] h0 (by simpa using h)

theorem cobsEncode_zero {l : List Byte} (x : List Byte) (h0 : 0#8 ∉ l) (h : l.length < 254) :
    cobsEncode (l ++ 0#8 :: x) = BitVec.ofNat 8 (l.length + 1) :: l ++ cobsEncode x := by
  simpa [cobsEncode, cobsEncodeFrom] using cobsEncodeFrom_literals [] (0#8 :: x) h0 (by simpa using h)

theorem cobsEncode_full {l : List Byte} (x : List Byte) (h0 : 0#8 ∉ l) (h : l.length = 254) :
    cobsEncode (l ++ x) = 255#8 :: l ++ cobsEncode x := by
  obtain rfl | ⟨l, b, rfl⟩ := List.eq_nil_or_concat l
  · cases h
  simp only [List.concat_eq_append, List.mem_append, List.mem_singleton, not_or, List.length_append,
    List.length_singleton] at h0 h ⊢
  obtain ⟨hl, hb⟩ := h0
  rw [cobsEncode, ← List.append_cons, cobsEncodeFrom_literals [] _ hl (by rw [List.length_nil]; omega),
    List.nil_append, cobsEncodeFrom, if_neg (Ne.symm hb), if_pos (by simpa [Config.cobsMaxRun] using h), cobsEncode]

/-- Induction along the blocks in which `COBS_ENCODE` cuts a sequence (R100): the last run of non-zero bytes, a
run closed by a zero, a full run. -/
theorem cobsBlocks_induction {P : List Byte → Prop}
    (last : ∀ l, 0#8 ∉ l → l.length < 254 → P l)
    (zero : ∀ l x, 0#8 ∉ l → l.length < 254 → P x → P (l ++ 0#8 :: x))
    (full : ∀ l x, 0#8 ∉ l → l.length = 254 → P x → P (l ++ x)) (x : List Byte) : P x := by
  suffices h : ∀ x blk, 0#8 ∉ blk → blk.length < 254 → P (blk ++ x) from h x [] (by simp) (by simp)
  intro x
  induction x with
  | nil =>
    intro blk h0 h
    simpa using last blk h0 h
  | cons b x ih =>
    intro blk h0 h
    have hx : P x := ih [] (by simp) (by simp)
    by_cases hb : b = 0#8
    · subst hb
      exact zero blk x h0 h hx
    · have h0' : 0#8 ∉ blk ++ [b] := by simp [h0, Ne.symm hb]
      rw [List.append_cons]
      by_cases hf : blk.length = 253
      · exact full _ x h0' (by simp [hf]) hx
      · exact ih _ h0' (by rw [List.length_append, List.length_singleton]; omega)

/-! ### The decoder, block by block (R73, R104) -/

theorem exec_cobsDecode_of_some {w x : List Byte} (h : cobsDecode w = some x) (s : State) :
    exec (.cobsDecode w) s = .next (answer (.bytes x) [] s) := by
  simp only [exec, execCobsDecode, h]

theorem exec_cobsDecode_of_none {w : List Byte} (h : cobsDecode w = none) (s : State) :
    exec (.cobsDecode w) s = .next (answer (.error .malformed) [] s) := by
  simp only [exec, execCobsDecode, h]

/-- At a block's end a pending zero is due as soon as another byte follows. -/
theorem cobsDecodeFrom_pending {w : List Byte} (h : w ≠ []) :
    cobsDecodeFrom 0#8 true w = (cobsDecode w).map (0#8 :: ·) := by
  cases w with
  | nil => exact absurd rfl h
  | cons b w =>
    by_cases hb : b = 0#8
    · simp [cobsDecode, cobsDecodeFrom, hb]
    · simp [cobsDecode, cobsDecodeFrom, hb, decByte_code]

/-- A block of fewer than 254 literals leaves its implied zero pending. -/
theorem cobsDecode_short {l : List Byte} (w : List Byte) (h0 : 0#8 ∉ l) (h : l.length < 254) :
    cobsDecode (BitVec.ofNat 8 (l.length + 1) :: (l ++ w)) = (cobsDecodeFrom 0#8 true w).map (l ++ ·) := by
  have hc : (BitVec.ofNat 8 (l.length + 1)).toNat = l.length + 1 := toNat_codeByte (by omega)
  have hpz : decide (l.length + 1 < 255) = true := decide_eq_true (by omega)
  have hrem : BitVec.ofNat 8 (l.length + 1) - 1#8 = BitVec.ofNat 8 l.length := by bv_omega
  rw [cobsDecode, cobsDecodeFrom, if_neg (codeByte_ne_zero (by omega)), decByte_code, hc, hpz, hrem,
    cobsDecodeFrom_literals l w _ _ h0 (by bv_omega)]
  simp [Function.comp_def]

theorem cobsDecode_last {l : List Byte} (h0 : 0#8 ∉ l) (h : l.length < 254) :
    cobsDecode (BitVec.ofNat 8 (l.length + 1) :: l) = some l := by
  simpa [cobsDecodeFrom] using cobsDecode_short [] h0 h

theorem cobsDecode_zero {l w : List Byte} (h0 : 0#8 ∉ l) (h : l.length < 254) (hw : w ≠ []) :
    cobsDecode (BitVec.ofNat 8 (l.length + 1) :: l ++ w) = (cobsDecode w).map fun x => l ++ 0#8 :: x := by
  rw [List.cons_append, cobsDecode_short w h0 h, cobsDecodeFrom_pending hw, Option.map_map]
  rfl

/-- A zero among the stuffed bytes is `Malformed`. -/
theorem cobsDecodeFrom_of_zero_mem {w : List Byte} (rem : Byte) (pz : Bool) (h : 0#8 ∈ w) :
    cobsDecodeFrom rem pz w = none := by
  induction w generalizing rem pz with
  | nil => cases h
  | cons b w ih =>
    by_cases hb : b = 0#8
    · simp [cobsDecodeFrom, hb]
    · have hw : 0#8 ∈ w := (List.mem_cons.1 h).resolve_left (Ne.symm hb)
      simp [cobsDecodeFrom, hb, ih _ _ hw]

/-- Fewer stuffed bytes than the open block needs are `Malformed`. -/
theorem cobsDecodeFrom_incomplete {l : List Byte} {rem : Byte} (pz : Bool) (h : l.length < rem.toNat) :
    cobsDecodeFrom rem pz l = none := by
  by_cases h0 : 0#8 ∈ l
  · exact cobsDecodeFrom_of_zero_mem rem pz h0
  · have hlits := cobsDecodeFrom_literals l [] rem pz h0 h.le
    have hopen : rem - BitVec.ofNat 8 l.length ≠ 0#8 := by bv_omega
    simpa [cobsDecodeFrom, hopen] using hlits

theorem cobsDecode_incomplete {c : Byte} {l : List Byte} (h : l.length + 1 < c.toNat) : cobsDecode (c :: l) = none := by
  have hc : c ≠ 0#8 := by bv_omega
  have hrem : l.length < (c - 1#8).toNat := by bv_omega
  rw [cobsDecode, cobsDecodeFrom, if_neg hc, decByte_code, cobsDecodeFrom_incomplete _ hrem, Option.map_none]

/-! ### What follows for whole sequences (R103) -/

/-- R103 (a). -/
theorem zero_not_mem_cobsEncode (x : List Byte) : 0#8 ∉ cobsEncode x := by
  induction x using cobsBlocks_induction with
  | last l h0 h =>
    rw [cobsEncode_last h0 h]
    simp [h0, (codeByte_ne_zero (n := l.length) (by omega)).symm]
  | zero l x h0 h ih =>
    rw [cobsEncode_zero x h0 h]
    simp [h0, ih, (codeByte_ne_zero (n := l.length) (by omega)).symm]
  | full l x h0 h ih =>
    rw [cobsEncode_full x h0 h]
    simp [h0, ih]

/-- R103 (b), (c): one code byte for each block; every block but the last takes up a zero or 254 literals. -/
theorem length_cobsEncode (x : List Byte) :
    x.length + 1 ≤ (cobsEncode x).length ∧ (cobsEncode x).length ≤ x.length + x.length / 254 + 1 := by
  induction x using cobsBlocks_induction with
  | last l h0 h => simp [cobsEncode_last h0 h]
  | zero l x h0 h ih =>
    simp only [cobsEncode_zero x h0 h, List.length_append, List.length_cons]
    omega
  | full l x h0 h ih =>
    simp only [cobsEncode_full x h0 h, List.length_append, List.length_cons]
    omega

theorem cobsEncode_ne_nil (x : List Byte) : cobsEncode x ≠ [] :=
  List.ne_nil_of_length_pos (by have := length_cobsEncode x; omega)

/-- R103 (e), the round trip. -/
theorem cobsDecode_cobsEncode (x : List Byte) : cobsDecode (cobsEncode x) = some x := by
  induction x using cobsBlocks_induction with
  | last l h0 h => rw [cobsEncode_last h0 h, cobsDecode_last h0 h]
  | zero l x h0 h ih => rw [cobsEncode_zero x h0 h, cobsDecode_zero h0 h (cobsEncode_ne_nil x), ih, Option.map_some]
  | full l x h0 h ih => rw [cobsEncode_full x h0 h, List.cons_append, cobsDecode_full _ _ h0 h, ih, Option.map_some]

/-! ### The streaming decoder (R105, R111) -/

theorem exec_decByte_inRange {rem b : Byte} (pz : Bool) (hr : rem ≠ 255#8) (hb : b ≠ 0#8) (s : State) :
    exec (.decByte rem pz b) s =
      .next (answer (.session (decByte rem pz b).rem (decByte rem pz b).pz (decByte rem pz b).out) [] s) := by
  simp only [exec, execDecByte, decByteAny_inRange pz hr hb]

/-- On stuffed bytes with no zero the one-pass decoder runs the streaming one and looks where it ended. -/
theorem cobsDecodeFrom_eq_streamDecode {w : List Byte} (rem : Byte) (pz : Bool) (h0 : 0#8 ∉ w) :
    cobsDecodeFrom rem pz w =
      if (streamDecode rem pz w).2.1 = 0#8 then some (streamDecode rem pz w).1 else none := by
  induction w generalizing rem pz with
  | nil => by_cases h : rem = 0#8 <;> simp [cobsDecodeFrom, streamDecode_nil, h]
  | cons b w ih =>
    obtain ⟨hb, hw⟩ := List.ne_and_not_mem_of_not_mem_cons h0
    rw [cobsDecodeFrom, if_neg hb.symm, ih _ _ hw, streamDecode_cons, apply_ite (Option.map _)]
    rfl

theorem cobsDecode_eq_some_iff {w x : List Byte} (h0 : 0#8 ∉ w) :
    cobsDecode w = some x ↔ (streamDecode 0#8 false w).1 = x ∧ (streamDecode 0#8 false w).2.1 = 0#8 := by
  rw [cobsDecode, cobsDecodeFrom_eq_streamDecode _ _ h0, Option.ite_none_right_eq_some, Option.some_inj, and_comm]

/-! ### The streaming encoder (R108, R109) -/

theorem exec_encFeed_of_open {s : State} (b : Byte) (h : s.enc.dlen = 0#8) :
    exec (.encFeed b) s = .next (answer .none [] { s with enc := s.enc.feed b }) := by
  simp [exec, execEncFeed, h]

theorem exec_encFeed_refused_iff (b : Byte) (s : State) :
    exec (.encFeed b) s = .refused .encFeedWhileDraining ↔ s.enc.dlen ≠ 0#8 := by
  by_cases h : s.enc.dlen = 0#8
  · simp [exec_encFeed_of_open b h, h]
  · simp [exec, execEncFeed, h]

/-- The place of the code byte, and the bytes behind it. -/
theorem EncSession.blk_eq_cons (e : EncSession) :
    ∃ c lits, e.blk.toList = c :: lits ∧ lits.length = 254 ∧ e.literals = lits.take e.fill.toNat := by
  cases h : e.blk.toList with
  | nil =>
    have := e.blk.length_toList
    simp [h] at this
  | cons c lits =>
    have := e.blk.length_toList
    refine ⟨c, lits, rfl, ?_, ?_⟩
    · simpa [h] using this
    · simp [EncSession.literals, h]

/-- `ENC_CLOSE` puts the code byte before the literals. -/
theorem EncSession.close_closedBlock (code : Byte) {e : EncSession} (hf : e.fill.toNat ≤ 254) :
    (e.close code).closedBlock = code :: e.literals := by
  obtain ⟨c, lits, hblk, -, hlits⟩ := e.blk_eq_cons
  have hlen : (e.fill + 1#8).toNat = e.fill.toNat + 1 := by bv_omega
  simp [EncSession.closedBlock, EncSession.close, hblk, hlits, hlen]

/-- A literal joins at the end of the open block. -/
theorem EncSession.literal_literals (b : Byte) {e : EncSession} (hf : e.fill.toNat ≤ 253) :
    (e.literal b).literals = e.literals ++ [b] := by
  obtain ⟨c, lits, hblk, hlen, hlits⟩ := e.blk_eq_cons
  have hfill : (e.fill + 1#8).toNat = e.fill.toNat + 1 := by bv_omega
  have hroom : e.fill.toNat < lits.length := by omega
  simp [EncSession.literals, EncSession.literal, hblk, hfill, List.take_add_one, List.take_set_of_le, hroom]

/-! ### The statements -/

/-- Settles O16: the facts about `cobsEncode`, each by induction along the blocks. -/
theorem cobsEncodeProperties : Obligations.CobsEncodeProperties := by
  intro x s
  obtain ⟨hlow, hhigh⟩ := length_cobsEncode x
  exact ⟨cobsEncode x, rfl, zero_not_mem_cobsEncode x, hlow, hhigh, cobsEncode_ne_nil x,
    exec_cobsDecode_of_some (cobsDecode_cobsEncode x) s⟩

/-- Settles O17: one lemma for each way in which a block is closed. -/
theorem cobsEncodeByBlocks : Obligations.CobsEncodeByBlocks :=
  ⟨fun _ _ => rfl,
    fun _ x h0 => ⟨fun h => ⟨cobsEncode_last h0 h, cobsEncode_zero x h0 h⟩, cobsEncode_full x h0⟩, by decide⟩

/-- Settles O18: one lemma for each way in which a block ends, and for each way of being malformed. -/
theorem cobsDecodeByBlocks : Obligations.CobsDecodeByBlocks := by
  refine ⟨fun w s => ?_, rfl, fun l w h0 => ⟨fun h => ⟨cobsDecode_last h0 h, cobsDecode_zero h0 h⟩,
    cobsDecode_full l w h0⟩, fun _ _ => cobsDecode_incomplete, fun _ _ => cobsDecodeFrom_of_zero_mem _ _ (by simp)⟩
  cases h : cobsDecode w with
  | some x => exact exec_cobsDecode_of_some h s
  | none => exact exec_cobsDecode_of_none h s

/-- Settles O20: an encoding has no zero byte, and there the streaming decoder is the one-pass one. -/
theorem streamingDecoderMatchesOnePass : Obligations.StreamingDecoderMatchesOnePass :=
  ⟨fun x => (cobsDecode_eq_some_iff (zero_not_mem_cobsEncode x)).1 (cobsDecode_cobsEncode x),
    fun _ => cobsDecodeFrom_eq_streamDecode _ _⟩

/-- Settles O21: the three cases of `ENC_FEED`, and what a close and a literal make of the block. -/
theorem encFeedAndClose : Obligations.EncFeedAndClose := by
  refine ⟨exec_encFeed_refused_iff, fun b s hd hf => ?_, fun code s hf => ?_⟩
  · refine ⟨_, exec_encFeed_of_open b hd, rfl, EncSession.feed_txCrc b s.enc, EncSession.feed_crcLat b s.enc, ?_⟩
    simp only [answer_enc]
    obtain ⟨hb, hfill, h⟩ | ⟨hb, hfill, h⟩ | ⟨hb, h⟩ := s.enc.feed_cases b <;> rw [h]
    · refine ⟨fun _ _ => ⟨EncSession.literal_literals b hf, rfl, hd⟩, fun _ h253 => ?_, fun hz => absurd hz hb⟩
      bv_omega
    · have hlit : (s.enc.literal b).fill.toNat ≤ 254 := by
        simp [EncSession.literal, hfill]
      refine ⟨fun _ hlt => ?_, fun _ _ => ⟨?_, hfill, ?_, rfl⟩, fun hz => absurd hz hb⟩
      · bv_omega
      · rw [EncSession.close_closedBlock _ hlit, EncSession.literal_literals b hf]
      · simp [EncSession.close, EncSession.literal, hfill]
    · exact ⟨fun hn => absurd hb hn, fun hn => absurd hb hn,
        fun _ => ⟨EncSession.close_closedBlock _ (by omega), rfl, rfl, rfl⟩⟩
  · exact ⟨_, rfl, rfl, rfl, rfl, EncSession.close_closedBlock code hf, rfl, rfl, rfl⟩

/-- Settles O19: the operations are `decByteAny` and `decEnd`. -/
theorem streamingDecoderSteps : Obligations.StreamingDecoderSteps := by
  intro rem pz b s
  refine ⟨fun hb hr => ?_, fun hb hr hr' => ?_, ⟨_, _, _, rfl, decByteAny_rem_le rem pz b⟩,
    fun hr => ?_, fun hr => ?_⟩
  · subst hr
    rw [exec_decByte_inRange pz (by decide) hb, decByte_code]
    rfl
  · rw [exec_decByte_inRange pz hr' hb, decByte_literal pz b hr]
    rfl
  · subst hr
    rfl
  · simp [exec, execDecEnd, decEnd, hr, answer]

end Sys2Proof.Machine
end

section
/-! PROOF. The family of spec/41_crc32.md: the residue property (O14). The CRC engine is linear over XOR, and an
accumulator that takes in its own four bytes becomes 0; so after the bytes of `crcFinal c` the accumulator `c` holds
what the bytes of the final XOR alone make of 0, whatever `c` was. -/

namespace Sys2Proof.Machine

/-! ### The engine is linear over XOR (R122) -/

theorem crcShift_xor (c d : Word) : crcShift (c ^^^ d) = crcShift c ^^^ crcShift d := by
  unfold crcShift
  rw [BitVec.getLsbD_xor, BitVec.ushiftRight_xor_distrib]
  cases c.getLsbD 0 <;> cases d.getLsbD 0
  case false.false => rfl
  case false.true => exact BitVec.xor_assoc ..
  case true.false =>
    change c >>> 1 ^^^ d >>> 1 ^^^ Config.crcPoly = c >>> 1 ^^^ Config.crcPoly ^^^ d >>> 1
    ac_rfl
  case true.true =>
    calc c >>> 1 ^^^ d >>> 1
      _ = c >>> 1 ^^^ d >>> 1 ^^^ (Config.crcPoly ^^^ Config.crcPoly) := by rw [BitVec.xor_self, BitVec.xor_zero]
      _ = c >>> 1 ^^^ Config.crcPoly ^^^ (d >>> 1 ^^^ Config.crcPoly) := by ac_rfl

theorem crcShifts_xor (k : Nat) (c d : Word) : crcShifts k (c ^^^ d) = crcShifts k c ^^^ crcShifts k d := by
  induction k generalizing c d with
  | zero => rfl
  | succ k ih => simp only [crcShifts, crcShift_xor, ih]

theorem crcUpdate_xor (c d : Word) (a b : Byte) : crcUpdate (c ^^^ d) (a ^^^ b) = crcUpdate c a ^^^ crcUpdate d b := by
  unfold crcUpdate
  rw [← crcShifts_xor]
  congr 1
  simp only [BitVec.setWidth_xor]
  ac_rfl

theorem crcAccumulate_le32_xor (c d v w : Word) :
    crcAccumulate (c ^^^ d) (le32 (v ^^^ w)) = crcAccumulate c (le32 v) ^^^ crcAccumulate d (le32 w) := by
  simp only [crcAccumulate, le32, BitVec.extractLsb'_xor, List.foldl_cons, List.foldl_nil, crcUpdate_xor]

/-! ### An accumulator that takes in its own bytes -/

/-- With only zero bits to shift out, the polynomial never enters. -/
theorem crcShifts_of_low_zero {k : Nat} {c : Word} (h : ∀ i < k, c.getLsbD i = false) : crcShifts k c = c >>> k := by
  induction k generalizing c with
  | zero => simp [crcShifts]
  | succ k ih =>
    have hshift : crcShift c = c >>> 1 := by
      unfold crcShift
      rw [h 0 k.succ_pos]
      rfl
    have hlow : ∀ i < k, (c >>> 1).getLsbD i = false := fun i hi => by
      rw [BitVec.getLsbD_ushiftRight]
      exact h _ (by omega)
    rw [crcShifts, hshift, ih hlow, ← BitVec.shiftRight_add, Nat.add_comm]

/-- The byte cancels the bits that are shifted out. -/
theorem crcUpdate_own_byte (c : Word) (n : Nat) : crcUpdate (c >>> n) (c.extractLsb' n 8) = c >>> (n + 8) := by
  unfold crcUpdate
  rw [crcShifts_of_low_zero, BitVec.shiftRight_add]
  · ext i hi
    simp
  · intro i hi
    simp [hi, Nat.lt_trans hi]

theorem crcAccumulate_le32_self (c : Word) : crcAccumulate c (le32 c) = 0#32 := by
  have h0 := crcUpdate_own_byte c 0
  rw [BitVec.ushiftRight_zero] at h0
  simp only [crcAccumulate, le32, List.foldl_cons, List.foldl_nil, h0, crcUpdate_own_byte, Nat.zero_add,
    Nat.reduceAdd]
  exact BitVec.ushiftRight_eq_zero (le_refl 32)

/-! ### The residue (R128) -/

theorem crcOf_append (x y : List Byte) :
    crcOf (x ++ y) = crcFinal (crcAccumulate (crcAccumulate Config.crcInitValue x) y) := by
  simp only [crcOf, crcAccumulate, List.foldl_append]

theorem crcAccumulate_own_trailer (c : Word) : crcAccumulate c (le32 (crcFinal c)) = 0xDEBB20E3#32 :=
  calc crcAccumulate c (le32 (crcFinal c))
    _ = crcAccumulate (c ^^^ 0#32) (le32 (c ^^^ Config.crcXorOut)) := by rw [BitVec.xor_zero]; rfl
    _ = crcAccumulate c (le32 c) ^^^ crcAccumulate 0#32 (le32 Config.crcXorOut) := crcAccumulate_le32_xor ..
    _ = crcAccumulate 0#32 (le32 Config.crcXorOut) := by rw [crcAccumulate_le32_self, BitVec.zero_xor]
    _ = 0xDEBB20E3#32 := by decide +kernel

theorem crcOf_append_own_crc (p : List Byte) : crcOf (p ++ le32 (crcOf p)) = 0x2144DF1C#32 :=
  calc crcOf (p ++ le32 (crcOf p))
    _ = crcFinal 0xDEBB20E3#32 := by rw [crcOf_append, crcOf, crcAccumulate_own_trailer]
    _ = 0x2144DF1C#32 := rfl

/-- Settles O14: the trailer is made of the accumulator it is fed to, so the result is one constant; the four zero
bytes are the trailer of the empty sequence. -/
theorem crcResidue : Obligations.CrcResidue :=
  ⟨crcOf_append_own_crc, rfl, crcOf_append_own_crc [], by decide +kernel⟩

end Sys2Proof.Machine
end

section
/-! PROOF. The family of spec/42_node_rx.md: `STEP` in every state but `Encode` (O37 to O42), the commands of the
receiver (O34, O35), `PUMP` as a run of micro-steps (O54, O60), and whole frames that are not taken (O56, O59). -/

namespace Sys2Proof.Machine

/-! ### The address match (R150) -/

theorem matchStandard_iff (f : Filter) (d : Word) :
    matchStandard f d = true ↔
      d &&& f.mcastMask = f.mcastAddr &&& f.mcastMask ∨ ∃ i : Fin 16, f.unicast[i] = d := by
  simp [matchStandard, Vector.any_eq_true, Fin.exists_iff]

/-! ### A byte in `ReadDestination` (R145 to R149) -/

/-- Within `ReadDestination` its entry is the session reset alone (R35). -/
theorem toReadDestination_of_readDestination {s : State} (hs : s.state = .readDestination) :
    toReadDestination s = { s with rx := s.rx.fresh } := by
  rw [toReadDestination, ← hs]
  rfl

theorem destinationComplete_unmatched {s : State} (hm : matchDest s.params s.filter (bufferedDest s) = false) :
    destinationComplete s = { s with state := .skipCurrentPacket } := by
  simp [destinationComplete, hm]

theorem destinationComplete_pending {s : State} (hm : matchDest s.params s.filter (bufferedDest s) = true)
    (hv : s.pktValid = true) : destinationComplete s = raise .overrun .skipCurrentPacket s := by
  simp [destinationComplete, hm, hv]

theorem destinationComplete_confirmed {s : State} (hm : matchDest s.params s.filter (bufferedDest s) = true)
    (hv : s.pktValid = false) :
    destinationComplete s =
      { s with dest := bufferedDest s, rx := { s.rx with bodyCnt := 0#11 }, state := .readPayload } := by
  simp [destinationComplete, hm, hv]

theorem readDestinationByte_frameStart {s : State} (hr : s.rx.rem = 0#8) :
    readDestinationByte 0#8 s = progress (toReadDestination s) := by
  simp [readDestinationByte, hr]

theorem readDestinationByte_cut {s : State} (hr : s.rx.rem ≠ 0#8) :
    readDestinationByte 0#8 s = progress (raise .malformed .readDestination s) := by
  simp [readDestinationByte, hr]

theorem readDestinationByte_silent {s : State} {b : Byte} (hb : b ≠ 0#8) (hd : s.rx.delivered b = none) :
    readDestinationByte b s = progress { s with rx := s.rx.decode b } := by
  simp [readDestinationByte, hb, hd]

theorem readDestinationByte_early {s : State} {b d : Byte} (hb : b ≠ 0#8) (hd : s.rx.delivered b = some d)
    (h3 : s.rx.destCnt ≠ 3#3) :
    readDestinationByte b s = progress { s with rx := (s.rx.decode b).storeDest d } := by
  have h4 : ((s.rx.decode b).storeDest d).destCnt ≠ 4#3 := by
    simp only [RxSession.storeDest, RxSession.decode]
    bv_omega
  simp only [readDestinationByte, hb, if_false, hd, h4]

theorem readDestinationByte_fourth {s : State} {b d : Byte} (hb : b ≠ 0#8) (hd : s.rx.delivered b = some d)
    (h3 : s.rx.destCnt = 3#3) :
    readDestinationByte b s = progress (destinationComplete { s with rx := (s.rx.decode b).storeDest d }) := by
  have h4 : ((s.rx.decode b).storeDest d).destCnt = 4#3 := by
    simp [RxSession.storeDest, RxSession.decode, h3]
  simp only [readDestinationByte, hb, if_false, hd, h4, if_true]

/-! ### A byte in `ReadPayload` (R151 to R157) -/

theorem frameEnd_malformed {s : State} (h : s.rx.rem ≠ 0#8 ∨ s.rx.bodyCnt.toNat < 6) :
    frameEnd s = progress (raise .malformed .readDestination s) := by
  have hmin : Config.minBody = 6 := rfl
  by_cases hr : s.rx.rem = 0#8
  · simp [frameEnd, hr, hmin, h.resolve_left (not_not.2 hr)]
  · simp [frameEnd, hr]

theorem frameEnd_badCrc {s : State} (hr : s.rx.rem = 0#8) (hl : 6 ≤ s.rx.bodyCnt.toNat)
    (hc : s.rx.crc ≠ 0xDEBB20E3#32) : frameEnd s = progress (raise .badChecksum .readDestination s) := by
  have hmin : Config.minBody = 6 := rfl
  have hv : crcVerify s.rx.crc = false := Bool.eq_false_iff.2 (mt (crcVerify_iff _).1 hc)
  simp [frameEnd, hr, hmin, Nat.not_lt.2 hl, hv]

theorem frameEnd_good {s : State} (hr : s.rx.rem = 0#8) (hl : 6 ≤ s.rx.bodyCnt.toNat)
    (hc : s.rx.crc = 0xDEBB20E3#32) :
    frameEnd s = { res := .progress, event := some .evRx, after := acceptFrame s } := by
  have hmin : Config.minBody = 6 := rfl
  simp [frameEnd, hr, hmin, Nat.not_lt.2 hl, (crcVerify_iff _).2 hc]

theorem readPayloadByte_silent {s : State} {b : Byte} (hb : b ≠ 0#8) (hd : s.rx.delivered b = none) :
    readPayloadByte b s = progress { s with rx := s.rx.decode b } := by
  simp [readPayloadByte, hb, hd]

theorem readPayloadByte_full {s : State} {b d : Byte} (hb : b ≠ 0#8) (hd : s.rx.delivered b = some d)
    (hf : s.rx.bodyCnt.toNat = 1020) :
    readPayloadByte b s = progress (raise .malformed .skipCurrentPacket { s with rx := s.rx.decode b }) := by
  have hcap : (s.rx.decode b).bodyCnt.toNat = Config.pktBufCap := hf
  simp only [readPayloadByte, hb, if_false, hd, hcap, if_true]

theorem readPayloadByte_stores {s : State} {b d : Byte} (hb : b ≠ 0#8) (hd : s.rx.delivered b = some d)
    (hf : s.rx.bodyCnt.toNat ≠ 1020) :
    readPayloadByte b s =
      progress (pktWrite s.rx.bodyCnt.toNat d { s with rx := (s.rx.decode b).countBody d }) := by
  have hcap : (s.rx.decode b).bodyCnt.toNat ≠ Config.pktBufCap := hf
  simp only [readPayloadByte, hb, if_false, hd, hcap]
  rfl

/-! ### A byte in `SkipCurrentPacket` (R158) -/

theorem skipByte_delimiter (s : State) : skipByte 0#8 s = progress (toReadDestination s) := rfl

theorem skipByte_drops {b : Byte} (hb : b ≠ 0#8) (s : State) : skipByte b s = progress s := if_neg hb

/-! ### The next byte of `RXQ` (R144) -/

theorem microStep_skipCurrentPacket {s : State} (hs : s.state = .skipCurrentPacket) {b : Byte} {q : List Byte}
    (hq : s.line.rxq = b :: q) :
    microStep s = skipByte b { s with line := { s.line with rxq := q } } := by
  simp only [microStep, hs, withRxByte, hq]

theorem microStep_stopped {s : State} (h : s.state = .stopped) : microStep s = blocked s := by
  simp only [microStep, h]

theorem withRxByte_nil (f : Byte → State → StepOut) {s : State} (hq : s.line.rxq = []) :
    withRxByte f s = blocked s := by
  simp only [withRxByte, hq]

theorem microStep_receiving_nil {s : State} (hr : s.state.receiving = true) (hq : s.line.rxq = []) :
    microStep s = blocked s := by
  cases hs : s.state with
  | readDestination | readPayload | skipCurrentPacket => simp only [microStep, hs, withRxByte_nil _ hq]
  | start | stopped | encode => simp [hs, EngineState.receiving] at hr

/-! ### `STEP` and the commands of the receiver as operations (R12, R140, R160, R161) -/

theorem exec_step_progress {s t : State} (h : microStep s = progress t) :
    exec .step s = .next (answer (.stepped .progress) [] t) := by
  rw [exec_step, h]
  rfl

/-- The same, with the state after the micro-step given by an equation of its own. -/
theorem exec_step_progress_of_eq {s t u : State} (h : microStep s = progress t) (ht : t = u) :
    exec .step s = .next (answer (.stepped .progress) [] u) :=
  ht ▸ exec_step_progress h

theorem exec_step_blocked {s t : State} (h : microStep s = blocked t) :
    exec .step s = .next (answer (.stepped .blocked) [] t) := by
  rw [exec_step, h]
  rfl

theorem exec_step_skipCurrentPacket_drops {s : State} {b : Byte} {q : List Byte} (hs : s.state = .skipCurrentPacket)
    (hq : s.line.rxq = b :: q) (hb : b ≠ 0#8) :
    exec .step s = .next (answer (.stepped .progress) [] { s with line := { s.line with rxq := q } }) :=
  exec_step_progress ((microStep_skipCurrentPacket hs hq).trans (skipByte_drops hb _))

theorem exec_step_skipCurrentPacket_delimiter {s : State} {q : List Byte} (hs : s.state = .skipCurrentPacket)
    (hq : s.line.rxq = 0#8 :: q) :
    exec .step s =
      .next (answer (.stepped .progress) [] (toReadDestination { s with line := { s.line with rxq := q } })) :=
  exec_step_progress ((microStep_skipCurrentPacket hs hq).trans (skipByte_delimiter _))

theorem exec_stopRx_stopped {s : State} (hs : s.state = .stopped) :
    exec .stopRx s = .next (answer .none [] s) := by
  change cmdStopRx s = _
  simp only [cmdStopRx, hs]

/-- `STOP_RX` in a receive state or `Start` (R160). -/
theorem exec_stopRx_of_listening {s : State} (he : s.state ≠ .encode) (hs : s.state ≠ .stopped) :
    exec .stopRx s = .next (answer .none [] (stopReceiving s)) := by
  change cmdStopRx s = _
  cases hst : s.state with
  | start | readDestination | readPayload | skipCurrentPacket => simp only [cmdStopRx, hst]
  | stopped => exact absurd hst hs
  | encode => exact absurd hst he

/-- `START_RX` outside `Stopped` (R161). -/
theorem exec_startRx_of_not_stopped {s : State} (hs : s.state ≠ .stopped) :
    exec .startRx s = .next (answer .none [] s) := by
  change cmdStartRx s = _
  cases hst : s.state with
  | start | readDestination | readPayload | skipCurrentPacket | encode => simp only [cmdStartRx, hst]
  | stopped => exact absurd hst hs

/-! ### What waits behind the consumed byte does not matter (R163)

The meaning of a received byte reads neither the line nor the outputs, so a run goes the same way with more bytes
behind it in `RXQ`. -/

/-- The state on another line and with other outputs. -/
def State.onLine (l : Line) (o : Output) (s : State) : State := { s with line := l, out := o }

/-- A micro-step's answer with the state after it on another line and with other outputs. -/
def StepOut.onLine (l : Line) (o : Output) (r : StepOut) : StepOut := { r with after := r.after.onLine l o }

theorem destinationComplete_onLine (l : Line) (o : Output) (s : State) :
    destinationComplete (s.onLine l o) = (destinationComplete s).onLine l o := by
  simp only [destinationComplete, apply_ite (State.onLine l o)]
  rfl

theorem readDestinationByte_onLine (b : Byte) (l : Line) (o : Output) (s : State) :
    readDestinationByte b (s.onLine l o) = (readDestinationByte b s).onLine l o := by
  by_cases hb : b = 0#8
  · simp only [readDestinationByte, hb, if_true, apply_ite (StepOut.onLine l o)]
    rfl
  · cases hd : s.rx.delivered b with
    | none =>
      rw [readDestinationByte_silent hb hd]
      exact readDestinationByte_silent hb hd
    | some d =>
      by_cases h3 : s.rx.destCnt = 3#3
      · rw [readDestinationByte_fourth hb hd h3]
        refine (readDestinationByte_fourth (s := s.onLine l o) hb hd h3).trans (congrArg progress ?_)
        exact destinationComplete_onLine l o { s with rx := (s.rx.decode b).storeDest d }
      · rw [readDestinationByte_early hb hd h3]
        exact readDestinationByte_early hb hd h3

theorem frameEnd_onLine (l : Line) (o : Output) (s : State) : frameEnd (s.onLine l o) = (frameEnd s).onLine l o := by
  simp only [frameEnd, apply_ite (StepOut.onLine l o)]
  rfl

theorem readPayloadByte_onLine (b : Byte) (l : Line) (o : Output) (s : State) :
    readPayloadByte b (s.onLine l o) = (readPayloadByte b s).onLine l o := by
  by_cases hb : b = 0#8
  · rw [hb]
    exact frameEnd_onLine l o s
  · cases hd : s.rx.delivered b with
    | none =>
      rw [readPayloadByte_silent hb hd]
      exact readPayloadByte_silent hb hd
    | some d =>
      by_cases hf : s.rx.bodyCnt.toNat = 1020
      · rw [readPayloadByte_full hb hd hf]
        exact readPayloadByte_full hb hd hf
      · rw [readPayloadByte_stores hb hd hf]
        exact readPayloadByte_stores hb hd hf

theorem skipByte_onLine (b : Byte) (l : Line) (o : Output) (s : State) :
    skipByte b (s.onLine l o) = (skipByte b s).onLine l o := by
  simp only [skipByte, apply_ite (StepOut.onLine l o)]
  rfl

/-- What the receive state `s` makes of the byte `b`, already taken from `RXQ` (R144). -/
def consume (b : Byte) (s : State) : StepOut :=
  match s.state with
  | .readDestination => readDestinationByte b s
  | .readPayload => readPayloadByte b s
  | .skipCurrentPacket | .start | .stopped | .encode => skipByte b s

theorem consume_onLine (b : Byte) (l : Line) (o : Output) (s : State) :
    consume b (s.onLine l o) = (consume b s).onLine l o := by
  have hs : (s.onLine l o).state = s.state := rfl
  unfold consume
  rw [hs]
  cases s.state with
  | readDestination => exact readDestinationByte_onLine b l o s
  | readPayload => exact readPayloadByte_onLine b l o s
  | skipCurrentPacket | start | stopped | encode => exact skipByte_onLine b l o s

/-- A micro-step in a receive state with a byte at hand. -/
theorem microStep_eq_consume {s : State} {b : Byte} {q : List Byte} (hr : s.state.receiving = true)
    (hq : s.line.rxq = b :: q) : microStep s = (consume b s).onLine { s.line with rxq := q } s.out := by
  rw [← consume_onLine]
  cases hs : s.state with
  | readDestination | readPayload | skipCurrentPacket =>
    simp only [microStep, withRxByte, consume, State.onLine, hs, hq]
  | start | stopped | encode => simp [hs, EngineState.receiving] at hr

theorem consume_res (b : Byte) (s : State) : (consume b s).res = .progress := by
  unfold consume
  cases s.state with
  | readDestination => exact readDestinationByte_res b s
  | readPayload => exact readPayloadByte_res b s
  | skipCurrentPacket | start | stopped | encode => exact skipByte_res b s

theorem consume_receiving (b : Byte) {s : State} (hr : s.state.receiving = true) :
    (consume b s).after.state.receiving = true := by
  unfold consume
  cases s.state with
  | readDestination => exact (readDestinationByte_receiving b hr).receiving
  | readPayload => exact (readPayloadByte_receiving b hr).receiving
  | skipCurrentPacket | start | stopped | encode => exact (skipByte_receiving b hr).receiving

/-- A receive state that moves has a byte to consume, and stays among the receive states. -/
theorem microStep_receiving_progress {s : State} (hr : s.state.receiving = true)
    (hp : (microStep s).res = .progress) :
    (∃ b q, s.line.rxq = b :: q) ∧ (microStep s).after.state.receiving = true := by
  rcases hq : s.line.rxq with _ | ⟨b, q⟩
  · rw [microStep_receiving_nil hr hq] at hp
    cases hp
  · rw [microStep_eq_consume hr hq]
    exact ⟨⟨b, q, rfl⟩, consume_receiving b hr⟩

/-- A receive state that is blocked has no byte to consume. -/
theorem queue_of_blocked {s : State} (hr : s.state.receiving = true) (h : (microStep s).res = .blocked) :
    s.line.rxq = [] := by
  rcases hq : s.line.rxq with _ | ⟨b, q⟩
  · rfl
  · rw [microStep_eq_consume hr hq] at h
    cases (consume_res b s).symm.trans h

/-! ### Every delimiter ends the frame (R164) -/

theorem RxSession.fresh_isFresh (r : RxSession) : r.fresh.isFresh := ⟨rfl, rfl, rfl, rfl, rfl⟩

theorem frameEnd_after (s : State) : ∃ t, (frameEnd s).after = toReadDestination t := by
  unfold frameEnd
  split_ifs <;> exact ⟨_, rfl⟩

theorem consume_delimiter (s : State) : ∃ t, (consume 0#8 s).after = toReadDestination t := by
  unfold consume
  cases s.state with
  | readDestination =>
    by_cases hr : s.rx.rem = 0#8
    · exact ⟨s, congrArg StepOut.after (readDestinationByte_frameStart hr)⟩
    · exact ⟨{ s with cnt := s.cnt.incError s.params.cntOverflow .malformed },
        congrArg StepOut.after (readDestinationByte_cut hr)⟩
  | readPayload => exact frameEnd_after s
  | skipCurrentPacket | start | stopped | encode => exact ⟨s, rfl⟩

/-! ### Runs of micro-steps (R141) -/

theorem Progresses.trans {s t u : State} {e f : List Event} (h : Progresses s e t) (k : Progresses t f u) :
    Progresses s (e ++ f) u := by
  induction h with
  | refl _ => exact k
  | step hp _ ih =>
    rw [List.append_assoc]
    exact .step hp (ih k)

theorem Progresses.head {s t u : State} {e : List Event} (h : microStep s = progress t) (k : Progresses t e u) :
    Progresses s e u := by
  have hp : (microStep s).res = .progress := by rw [h]; rfl
  simpa [h] using Progresses.step hp (by rwa [h])

theorem microStep_blocked_event {s : State} (h : (microStep s).res = .blocked) : (microStep s).event = none := by
  obtain e | e := microStep_blocked h <;> rw [e] <;> rfl

/-- The loop of `PUMP` follows any run of `PROGRESS` micro-steps to its end. -/
theorem Progresses.pumpLoop_eq {s u : State} {e : List Event} (h : Progresses s e u)
    (hb : (microStep u).res = .blocked) {fuel : Nat} (hf : pumpWork s < fuel) (evs : List Event) :
    pumpLoop fuel s evs = ((microStep u).after, evs ++ e) := by
  induction h generalizing fuel evs with
  | refl s =>
    obtain ⟨n, rfl⟩ := Nat.exists_eq_succ_of_ne_zero (Nat.ne_of_gt (Nat.zero_lt_of_lt hf))
    simp [pumpLoop, hb, microStep_blocked_event hb]
  | step hp _ ih =>
    obtain ⟨n, rfl⟩ := Nat.exists_eq_succ_of_ne_zero (Nat.ne_of_gt (Nat.zero_lt_of_lt hf))
    have hw := microStep_work hp
    simp only [pumpLoop, hp]
    rw [ih hb (by omega), List.append_assoc]

theorem exec_pump_of_progresses {s u : State} {e : List Event} (h : Progresses s e u)
    (hb : (microStep u).res = .blocked) : exec .pump s = .next (answer .none e (microStep u).after) := by
  rw [exec_pump, pump, h.pumpLoop_eq hb (Nat.lt_succ_self _) []]
  rfl

theorem exists_progresses_blocked (s : State) : ∃ e u, Progresses s e u ∧ (microStep u).res = .blocked := by
  obtain ⟨e, u, h, hb, _⟩ := pumpLoop_ends_blocked (pumpWork s + 1) s [] (Nat.lt_succ_self _)
  exact ⟨e, u, h, hb⟩

/-! ### What blocks a micro-step blocks it again (R162)

Neither `enc_stalled` nor the outputs decide whether the engine can move. -/

/-- At `s` the micro-step `f` waits: it is blocked, and blocked again in the state it leaves, whatever the
outputs are by then. -/
def Waits (f : State → StepOut) (s : State) : Prop :=
  ∃ stalled, f s = blocked { s with encStalled := stalled } ∧
    ∀ o, f { s with encStalled := stalled, out := o } = blocked { s with encStalled := stalled, out := o }

theorem Waits.of_eq {f g : State → StepOut} {s : State} (h : Waits f s)
    (he : ∀ x o, g { s with encStalled := x, out := o } = f { s with encStalled := x, out := o }) : Waits g s := by
  obtain ⟨x, hx, hxo⟩ := h
  exact ⟨x, (he s.encStalled s.out).trans hx, fun o => (he x o).trans (hxo o)⟩

theorem pushOrStall_of_noRoom {b : Byte} {f : State → State} {s : State} (h : s.line.room = 0) :
    pushOrStall b f s = blocked { s with encStalled := true } := if_pos h

theorem pushOrStall_room_of_blocked {b : Byte} {f : State → State} {s : State}
    (h : (pushOrStall b f s).res = .blocked) : s.line.room = 0 := by
  obtain ⟨hr, _⟩ | ⟨_, hw⟩ := pushOrStall_cases b f s
  · exact hr
  · rw [hw] at h
    cases h

theorem stepDrain_waits {s : State} (h : (stepDrain s).res = .blocked) : Waits stepDrain s := by
  have hr := pushOrStall_room_of_blocked h
  exact ⟨true, pushOrStall_of_noRoom hr, fun _ => pushOrStall_of_noRoom hr⟩

theorem stepFlush_waits {s : State} (h : (stepFlush s).res = .blocked) : Waits stepFlush s := by
  rcases hsrc : s.encSrc.toNat with _ | _ | k <;> simp only [stepFlush, hsrc] at h
  · cases h
  · have hr := pushOrStall_room_of_blocked h
    refine ⟨true, ?_, fun o => ?_⟩ <;> simp only [stepFlush, hsrc] <;> exact pushOrStall_of_noRoom hr
  · have hi : s.line.idle = false := by
      cases hi : s.line.idle
      · rfl
      · simp [txIdle, hi] at h
    exact ⟨s.encStalled, by simp [stepFlush, hsrc, txIdle, hi], fun o => by simp [stepFlush, hsrc, txIdle, hi]⟩

theorem stepEncode_waits {s : State} (h : (stepEncode s).res = .blocked) : Waits stepEncode s := by
  by_cases hd : s.enc.dlen = 0#8
  · cases hg : s.encStage <;> simp only [stepEncode, hd, hg, ne_eq, not_true_eq_false, if_false] at h
    case flush => exact (stepFlush_waits h).of_eq fun _ _ => by simp [stepEncode, hd, hg]
    all_goals cases h
  · have hdrain : stepEncode s = stepDrain s := if_pos hd
    rw [hdrain] at h
    exact (stepDrain_waits h).of_eq fun _ _ => if_pos hd

theorem microStep_waits {s : State} (h : (microStep s).res = .blocked) : Waits microStep s := by
  have hrec (hr : s.state.receiving = true) : Waits microStep s :=
    have hq := queue_of_blocked hr h
    ⟨s.encStalled, microStep_receiving_nil hr hq, fun _ => microStep_receiving_nil hr hq⟩
  cases hs : s.state with
  | start =>
    rw [microStep_start hs] at h
    cases h
  | stopped => exact ⟨s.encStalled, microStep_stopped hs, fun _ => microStep_stopped hs⟩
  | readDestination | readPayload | skipCurrentPacket => exact hrec (by rw [hs]; rfl)
  | encode =>
    have henc : microStep s = stepEncode s := by simp only [microStep, hs]
    rw [henc] at h
    exact (stepEncode_waits h).of_eq fun _ _ => by simp only [microStep, hs]

/-! ### A run with more bytes behind it (R163) -/

/-- The state with `y` behind what waits in `RXQ`, and other outputs. -/
def State.behind (y : List Byte) (o : Output) (s : State) : State :=
  s.onLine { s.line with rxq := s.line.rxq ++ y } o

theorem State.behind_behind (y z : List Byte) (o p : Output) (s : State) :
    (s.behind y o).behind z p = s.behind (y ++ z) p := by
  simp [State.behind, State.onLine]

theorem State.answer_behind_nil (v : Value) (evs : List Event) (o : Output) (s : State) :
    answer v evs (s.behind [] o) = answer v evs s := by
  simp [answer, State.behind, State.onLine]

theorem microStep_behind {s : State} {b : Byte} {q : List Byte} (hr : s.state.receiving = true)
    (hq : s.line.rxq = b :: q) (y : List Byte) (o : Output) :
    microStep (s.behind y o) = { microStep s with after := (microStep s).after.behind y o } :=
  calc microStep (s.behind y o)
    _ = (consume b (s.behind y o)).onLine { s.line with rxq := q ++ y } o :=
      microStep_eq_consume hr (congrArg (· ++ y) hq)
    _ = ((consume b s).onLine { s.line with rxq := s.line.rxq ++ y } o).onLine { s.line with rxq := q ++ y } o := by
      rw [State.behind, consume_onLine]
    _ = { microStep s with after := (microStep s).after.behind y o } := by
      rw [microStep_eq_consume hr hq]
      rfl

theorem Progresses.receiving {s u : State} {e : List Event} (h : Progresses s e u) (hr : s.state.receiving = true) :
    u.state.receiving = true := by
  induction h with
  | refl _ => exact hr
  | step hp _ ih => exact ih (microStep_receiving_progress hr hp).2

theorem Progresses.keepsReceiver {s u : State} {e : List Event} (h : Progresses s e u)
    (hr : s.state.receiving = true) : u.rxEn = s.rxEn ∧ u.params = s.params := by
  induction h with
  | refl _ => exact ⟨rfl, rfl⟩
  | @step s _ _ hp _ ih =>
    obtain ⟨hen, hpar⟩ := ih (microStep_receiving_progress hr hp).2
    exact ⟨hen.trans (microStep_receiving_control hr).rxEn, hpar.trans (microStep_keepsHost s).params⟩

theorem Progresses.behind {s u : State} {e : List Event} (h : Progresses s e u) (hr : s.state.receiving = true)
    (y : List Byte) (o : Output) : Progresses (s.behind y o) e (u.behind y o) := by
  induction h with
  | refl s => exact .refl _
  | @step s _ _ hp _ ih =>
    obtain ⟨⟨b, q, hq⟩, hr'⟩ := microStep_receiving_progress hr hp
    have hm := microStep_behind hr hq y o
    have hstep := Progresses.step (s := s.behind y o) (by rw [hm]; exact hp) (by rw [hm]; exact ih hr')
    rwa [hm] at hstep

/-! ### `PUMP` in a receive state -/

theorem exec_pump_of_emptied {s u : State} {e : List Event} (h : Progresses s e u)
    (hr : s.state.receiving = true) (hq : u.line.rxq = []) : exec .pump s = .next (answer .none e u) := by
  have hu := microStep_receiving_nil (h.receiving hr) hq
  rw [exec_pump_of_progresses h (by rw [hu]; rfl), hu]
  rfl

/-- `PUMP` in a receive state empties `RXQ` and stays in a receive state. -/
theorem exec_pump_receiving {s : State} (hr : s.state.receiving = true) :
    ∃ e u, Progresses s e u ∧ u.state.receiving = true ∧ u.line.rxq = [] ∧
      exec .pump s = .next (answer .none e u) := by
  obtain ⟨e, u, hrun, hb⟩ := exists_progresses_blocked s
  have hru := hrun.receiving hr
  have hq := queue_of_blocked hru hb
  exact ⟨e, u, hrun, hru, hq, exec_pump_of_emptied hrun hr hq⟩

theorem lineAct_receive_unbounded {s : State} (x : List Byte) (he : s.rxEn = true) (hd : s.params.rxqDepth = none) :
    lineAct (.receive x) s = s.behind x s.out := by
  rw [lineAct_receive_enabled x he, hd]
  rfl

/-! ### The stuffed bytes a session has read -/

theorem streamDecode_concat (w : List Byte) (b : Byte) (rem : Byte) (pz : Bool) :
    streamDecode rem pz (w ++ [b]) =
      ((streamDecode rem pz w).1 ++
          (decByte (streamDecode rem pz w).2.1 (streamDecode rem pz w).2.2 b).out.toList,
        (decByte (streamDecode rem pz w).2.1 (streamDecode rem pz w).2.2 b).rem,
        (decByte (streamDecode rem pz w).2.1 (streamDecode rem pz w).2.2 b).pz) := by
  rw [streamDecode_append, streamDecode_cons, streamDecode_nil, List.append_nil]

/-- Where the `n + 1`-th data byte comes from: the stuffed bytes up to the one that delivers it. -/
theorem streamDecode_cut {n : Nat} {w : List Byte} {rem : Byte} {pz : Bool}
    (h : n < (streamDecode rem pz w).1.length) :
    ∃ v b w' x, w = v ++ b :: w' ∧ (streamDecode rem pz v).1.length = n ∧
      (decByte (streamDecode rem pz v).2.1 (streamDecode rem pz v).2.2 b).out = some x := by
  induction w generalizing n rem pz with
  | nil => simp [streamDecode_nil] at h
  | cons b w ih =>
    rw [streamDecode_cons] at h
    cases hd : (decByte rem pz b).out with
    | none =>
      obtain ⟨v, b', w', x, rfl, hn, hx⟩ := ih (n := n) (by simpa [hd] using h)
      exact ⟨b :: v, b', w', x, rfl, by simpa [streamDecode_cons, hd] using hn, hx⟩
    | some y =>
      cases n with
      | zero => exact ⟨[], b, w, y, rfl, rfl, hd⟩
      | succ n =>
        obtain ⟨v, b', w', x, rfl, hn, hx⟩ := ih (n := n) (by simpa [hd] using h)
        exact ⟨b :: v, b', w', x, rfl, by simpa [streamDecode_cons, hd] using hn, hx⟩

/-- The data bytes that the stuffed bytes `w` of a frame deliver. -/
def dataOf (w : List Byte) : List Byte := (streamDecode 0#8 false w).1

theorem dataOf_append (v w : List Byte) : dataOf v <+: dataOf (v ++ w) := by
  rw [dataOf, dataOf, streamDecode_append]
  exact ⟨_, rfl⟩

/-- Since the frame's start the session has decoded the stuffed bytes `w` and checksummed their data. -/
structure RxSession.HasRead (r : RxSession) (w : List Byte) : Prop where
  rem : r.rem = (streamDecode 0#8 false w).2.1
  pz : r.pz = (streamDecode 0#8 false w).2.2
  crc : r.crc = crcAccumulate Config.crcInitValue (dataOf w)

/-- The session goes on reading the destination: its buffer begins with the data of `w`. -/
structure RxSession.ReadsDest (r : RxSession) (w : List Byte) : Prop extends r.HasRead w where
  destCnt : r.destCnt.toNat = (dataOf w).length
  destBuf : dataOf w <+: r.destBuf.toList

theorem RxSession.isFresh.readsDest {r : RxSession} (h : r.isFresh) : r.ReadsDest [] := by
  obtain ⟨hr, hp, hc, hd, _⟩ := h
  exact ⟨⟨hr, hp, hc⟩, by rw [hd]; rfl, List.nil_prefix⟩

theorem dataOf_concat {r : RxSession} {w : List Byte} (h : r.HasRead w) (b : Byte) :
    dataOf (w ++ [b]) = dataOf w ++ (r.delivered b).toList := by
  rw [dataOf, streamDecode_concat, RxSession.delivered, h.rem, h.pz]
  rfl

theorem RxSession.HasRead.decode {r : RxSession} {w : List Byte} (h : r.HasRead w) (b : Byte) :
    (r.decode b).rem = (streamDecode 0#8 false (w ++ [b])).2.1 ∧
    (r.decode b).pz = (streamDecode 0#8 false (w ++ [b])).2.2 := by
  rw [streamDecode_concat, RxSession.decode, h.rem, h.pz]
  exact ⟨rfl, rfl⟩

theorem crcAccumulate_concat (c : Word) (x : List Byte) (d : Byte) :
    crcAccumulate c (x ++ [d]) = crcUpdate (crcAccumulate c x) d := by
  simp [crcAccumulate]

theorem RxSession.ReadsDest.silent {r : RxSession} {w : List Byte} (h : r.ReadsDest w) {b : Byte}
    (hd : r.delivered b = none) : (r.decode b).ReadsDest (w ++ [b]) := by
  have hw : dataOf (w ++ [b]) = dataOf w := by rw [dataOf_concat h.toHasRead, hd]; simp
  obtain ⟨hr, hp⟩ := h.toHasRead.decode b
  exact ⟨⟨hr, hp, hw ▸ h.crc⟩, hw ▸ h.destCnt, hw ▸ h.destBuf⟩

theorem RxSession.ReadsDest.delivers {r : RxSession} {w : List Byte} (h : r.ReadsDest w) {b d : Byte}
    (hd : r.delivered b = some d) (h4 : (dataOf w).length < 4) :
    ((r.decode b).storeDest d).ReadsDest (w ++ [b]) := by
  have hw : dataOf (w ++ [b]) = dataOf w ++ [d] := by rw [dataOf_concat h.toHasRead, hd]; rfl
  obtain ⟨hr, hp⟩ := h.toHasRead.decode b
  have hcnt := h.destCnt
  refine ⟨⟨hr, hp, ?_⟩, ?_, ?_⟩
  · rw [hw, crcAccumulate_concat, ← h.crc]
    rfl
  · rw [hw, List.length_append]
    show (r.destCnt + 1#3).toNat = _
    simp only [BitVec.toNat_add, BitVec.toNat_ofNat, List.length_singleton]
    omega
  · obtain ⟨junk, hj⟩ := h.destBuf
    obtain _ | ⟨x, junk⟩ := junk
    · have := congrArg List.length hj
      simp at this
      omega
    · refine ⟨junk, ?_⟩
      show _ = (r.destBuf.setIfInBounds r.destCnt.toNat d).toList
      rw [Vector.toList_setIfInBounds, ← hj, hcnt, hw]
      simp

/-! ### Reading the destination -/

/-- The state with session `r` and `q` waiting in `RXQ`. -/
def State.reading (r : RxSession) (q : List Byte) (s : State) : State :=
  { s with rx := r, line := { s.line with rxq := q } }

/-- Stuffed bytes that do not complete the destination are read as part of it (R145). -/
theorem readDestination_run {s : State} {v w rest : List Byte} (hs : s.state = .readDestination)
    (hr : s.rx.ReadsDest v) (h0 : 0#8 ∉ w) (hq : s.line.rxq = w ++ rest) (h4 : (dataOf (v ++ w)).length < 4) :
    ∃ r, Progresses s [] (s.reading r rest) ∧ r.ReadsDest (v ++ w) := by
  induction w generalizing s v with
  | nil => exact ⟨s.rx, by rw [State.reading, ← List.nil_append rest, ← hq]; exact .refl s, by simpa using hr⟩
  | cons b w ih =>
    obtain ⟨hb, hw⟩ := List.ne_and_not_mem_of_not_mem_cons h0
    have hstep : ∃ r, microStep s = progress (s.reading r (w ++ rest)) ∧ r.ReadsDest (v ++ [b]) := by
      have hlen : (dataOf (v ++ [b])).length < 4 := by
        have := (dataOf_append (v ++ [b]) w).length_le
        simp only [List.append_assoc, List.singleton_append] at this
        omega
      have hm := microStep_readDestination hs hq
      cases hd : s.rx.delivered b with
      | none => exact ⟨_, hm.trans (readDestinationByte_silent hb.symm hd), hr.silent hd⟩
      | some d =>
        rw [dataOf_concat hr.toHasRead, hd, List.length_append] at hlen
        simp only [Option.toList_some, List.length_singleton] at hlen
        have h3 : s.rx.destCnt ≠ 3#3 := by
          have := hr.destCnt
          rintro h
          rw [h] at this
          simp at this
          omega
        exact ⟨_, hm.trans (readDestinationByte_early hb.symm hd h3), hr.delivers hd (by omega)⟩
    obtain ⟨r, hm, hr'⟩ := hstep
    obtain ⟨r', hrun, hread⟩ := ih (s := s.reading r (w ++ rest)) hs hr' hw rfl (by simpa using h4)
    exact ⟨r', .head hm hrun, by simpa using hread⟩

/-- The destination the session has read is the one `DESERIALIZE` reads from the frame's data (R53, R75). -/
theorem bufferedDest_eq_fieldsOf {s : State} {v : List Byte} (w : List Byte) (hr : s.rx.ReadsDest v)
    (h4 : (dataOf v).length = 4) : bufferedDest s = (fieldsOf s.params.destByteOrder (dataOf (v ++ w))).dest := by
  have hbuf : dataOf v = s.rx.destBuf.toList := hr.destBuf.eq_of_length (by simp [h4])
  obtain ⟨more, hmore⟩ := dataOf_append v w
  have hget (i : Nat) (hi : i < 4) : (dataOf (v ++ w)).getD i 0#8 = s.rx.destBuf[i] := by
    rw [← hmore, List.getD_append _ _ _ _ (by omega), hbuf]
    simp [hi]
  simp only [bufferedDest, fieldsOf, hget 0 (by decide), hget 1 (by decide), hget 2 (by decide), hget 3 (by decide)]

/-- The destination that the data of the frame `w` begin with (R53, R75). -/
def destOf (s : State) (w : List Byte) : Word := (fieldsOf s.params.destByteOrder (dataOf w)).dest

/-- A frame of at least four data bytes is read up to the stuffed byte that completes its destination. -/
theorem destination_run {s : State} {w rest : List Byte} (hs : s.state = .readDestination) (hf : s.rx.isFresh)
    (h0 : 0#8 ∉ w) (hq : s.line.rxq = w ++ rest) (h4 : 4 ≤ (dataOf w).length) :
    ∃ v w' r, w = v ++ w' ∧ (dataOf v).length = 4 ∧ r.HasRead v ∧
      bufferedDest (s.reading r (w' ++ rest)) = destOf s w ∧
      Progresses s [] (destinationComplete (s.reading r (w' ++ rest))) := by
  obtain ⟨v, b, w', d, rfl, hn, hd⟩ := streamDecode_cut (show 3 < (dataOf w).length from h4)
  simp only [List.mem_append, List.mem_cons, not_or] at h0
  obtain ⟨hv0, hb, _⟩ := h0
  rw [List.append_assoc] at hq
  obtain ⟨r, hrun, hr⟩ := readDestination_run (v := []) hs hf.readsDest hv0 hq (hn.trans_lt (by decide))
  rw [List.nil_append] at hr
  have hdel : r.delivered b = some d := by rw [RxSession.delivered, hr.rem, hr.pz, hd]
  have h3 : r.destCnt = 3#3 := BitVec.eq_of_toNat_eq (hr.destCnt.trans hn)
  have hlast := (microStep_readDestination (s := s.reading r (b :: (w' ++ rest))) hs rfl).trans
    (readDestinationByte_fourth (Ne.symm hb) hdel h3)
  have hr' := hr.delivers hdel (hn.trans_lt (by decide))
  have hlen : (dataOf (v ++ [b])).length = 4 := by
    rw [dataOf_concat hr.toHasRead, hdel, List.length_append]
    exact congrArg (· + 1) hn
  have hw : v ++ b :: w' = v ++ [b] ++ w' := by simp
  refine ⟨v ++ [b], w', _, hw, hlen, hr'.toHasRead, ?_, hrun.trans (.head hlast (.refl _))⟩
  rw [hw]
  exact bufferedDest_eq_fieldsOf (s := s.reading _ (w' ++ rest)) w' hr' hlen

/-! ### Skipping to the delimiter -/

/-- In `SkipCurrentPacket` everything up to the delimiter is dropped and nothing is counted (R158). -/
theorem skip_run {s : State} {w rest : List Byte} (hs : s.state = .skipCurrentPacket) (h0 : 0#8 ∉ w)
    (hq : s.line.rxq = w ++ 0#8 :: rest) : Progresses s [] (toReadDestination (s.reading s.rx rest)) := by
  induction w generalizing s with
  | nil => exact .head ((microStep_skipCurrentPacket hs hq).trans (skipByte_delimiter _)) (.refl _)
  | cons b w ih =>
    obtain ⟨hb, hw⟩ := List.ne_and_not_mem_of_not_mem_cons h0
    exact .head ((microStep_skipCurrentPacket hs hq).trans (skipByte_drops hb.symm _)) (ih hs hw rfl)

/-! ### Frames that are not taken (R146 to R148) -/

/-- What a frame that is not taken counts: a cut block before the destination, or an overrun. -/
def notTakenCounters (s : State) (w : List Byte) : Counters :=
  if (dataOf w).length < 4 then
    if (streamDecode 0#8 false w).2.1 = 0#8 then s.cnt else s.cnt.incError s.params.cntOverflow .malformed
  else if matchDest s.params s.filter (destOf s w) = true then s.cnt.incError s.params.cntOverflow .overrun
  else s.cnt

/-- A frame that ends before its destination is complete (R146). -/
theorem shortFrame_run {s : State} {w rest : List Byte} (hs : s.state = .readDestination) (hf : s.rx.isFresh)
    (h0 : 0#8 ∉ w) (hq : s.line.rxq = w ++ 0#8 :: rest) (h4 : (dataOf w).length < 4) :
    ∃ r, Progresses s [] (toReadDestination { s.reading r rest with cnt := notTakenCounters s w }) := by
  obtain ⟨r, hrun, hr⟩ := readDestination_run (v := []) hs hf.readsDest h0 hq h4
  have hm : microStep (s.reading r (0#8 :: rest)) = _ := microStep_readDestination (by exact hs) rfl
  refine ⟨r, hrun.trans (.head (hm.trans ?_) (.refl _))⟩
  have hrem : r.rem = (streamDecode 0#8 false w).2.1 := hr.rem
  by_cases hz : r.rem = 0#8
  · rw [notTakenCounters, if_pos h4, if_pos (hrem ▸ hz)]
    exact readDestinationByte_frameStart hz
  · rw [notTakenCounters, if_pos h4, if_neg (hrem ▸ hz)]
    exact readDestinationByte_cut hz

/-- A frame with a destination that is not this node's, or that a pending packet keeps out (R147, R148). -/
theorem skippedFrame_run {s : State} {w rest : List Byte} (hs : s.state = .readDestination) (hf : s.rx.isFresh)
    (h0 : 0#8 ∉ w) (hq : s.line.rxq = w ++ 0#8 :: rest) (h4 : 4 ≤ (dataOf w).length)
    (hn : matchDest s.params s.filter (destOf s w) = false ∨ s.pktValid = true) :
    ∃ r, Progresses s [] (toReadDestination { s.reading r rest with cnt := notTakenCounters s w }) := by
  obtain ⟨v, w', r, rfl, _, _, hdest, hrun⟩ := destination_run hs hf h0 hq h4
  have hw' : 0#8 ∉ w' := fun h => h0 (List.mem_append_right _ h)
  refine ⟨r, hrun.trans ?_⟩
  rw [notTakenCounters, if_neg (Nat.not_lt.2 h4), ← hdest]
  rw [← hdest] at hn
  cases hm : matchDest s.params s.filter (bufferedDest (s.reading r (w' ++ 0#8 :: rest))) with
  | false =>
    rw [if_neg Bool.false_ne_true, destinationComplete_unmatched hm]
    exact skip_run rfl hw' rfl
  | true =>
    have hv : (s.reading r (w' ++ 0#8 :: rest)).pktValid = true := hn.resolve_left (by simp [hm])
    rw [if_pos rfl, destinationComplete_pending hm hv]
    exact skip_run rfl hw' rfl

/-- A frame that is short, not addressed here, or addressed here while a packet is pending ends at a frame start
and counts what it counts; nothing else but the session and `RXQ` changes. -/
theorem frameNotTaken_run {s : State} {w rest : List Byte} (hs : s.state = .readDestination) (hf : s.rx.isFresh)
    (h0 : 0#8 ∉ w) (hq : s.line.rxq = w ++ 0#8 :: rest)
    (hn : (dataOf w).length < 4 ∨
      matchDest s.params s.filter (destOf s w) = false ∨ s.pktValid = true) :
    ∃ r, Progresses s [] (toReadDestination { s.reading r rest with cnt := notTakenCounters s w }) := by
  by_cases h4 : (dataOf w).length < 4
  · exact shortFrame_run hs hf h0 hq h4
  · exact skippedFrame_run hs hf h0 hq (Nat.le_of_not_lt h4) (hn.resolve_left h4)

/-! ### Reading the payload (R151) -/

/-- The data of the stuffed bytes `w`, without their destination, have been received into the buffer of `s₀`. -/
structure State.ReadsBody (s s₀ : State) (w : List Byte) : Prop extends s.rx.HasRead w where
  bodyCnt : s.rx.bodyCnt.toNat + 4 = (dataOf w).length
  buf : ∀ a, pktRead s a = ((dataOf w).drop 4)[a]?.getD (pktRead s₀ a)

/-- The state with session `r`, `q` waiting in `RXQ` and `m` in the packet buffer. -/
def State.storing (r : RxSession) (q : List Byte) (m : Memory) (s : State) : State :=
  { s.reading r q with mem := m }

theorem State.ReadsBody.silent {s s₀ : State} {w q : List Byte} (h : s.ReadsBody s₀ w) {b : Byte}
    (hd : s.rx.delivered b = none) : (s.storing (s.rx.decode b) q s.mem).ReadsBody s₀ (w ++ [b]) := by
  have hw : dataOf (w ++ [b]) = dataOf w := by rw [dataOf_concat h.toHasRead, hd]; simp
  obtain ⟨hr, hp⟩ := h.toHasRead.decode b
  exact ⟨⟨hr, hp, hw ▸ h.crc⟩, hw ▸ h.bodyCnt, hw ▸ h.buf⟩

theorem State.ReadsBody.delivers {s s₀ : State} {w q : List Byte} (h : s.ReadsBody s₀ w) {b d : Byte}
    (hd : s.rx.delivered b = some d) (hmax : (dataOf w).length < 1024) :
    (s.storing ((s.rx.decode b).countBody d) q (Memory.write s.mem s.rx.bodyCnt.toNat d)).ReadsBody s₀
      (w ++ [b]) := by
  have hw : dataOf (w ++ [b]) = dataOf w ++ [d] := by rw [dataOf_concat h.toHasRead, hd]; rfl
  obtain ⟨hr, hp⟩ := h.toHasRead.decode b
  have hcnt := h.bodyCnt
  have hdrop : ((dataOf w).drop 4).length = s.rx.bodyCnt.toNat := by
    rw [List.length_drop]
    omega
  refine ⟨⟨hr, hp, ?_⟩, ?_, fun a => ?_⟩
  · rw [hw, crcAccumulate_concat, ← h.crc]
    rfl
  · rw [hw, List.length_append]
    show (s.rx.bodyCnt + 1#11).toNat + 4 = _
    simp only [BitVec.toNat_add, BitVec.toNat_ofNat, List.length_singleton]
    omega
  · rw [hw, List.drop_append_of_le_length (by omega)]
    by_cases ha : a = s.rx.bodyCnt.toNat
    · subst ha
      rw [List.getElem?_append_right hdrop.le, hdrop, Nat.sub_self]
      exact pktRead_pktWrite_same s _ d
    · rw [show pktRead (s.storing _ q _) a = pktRead s a from pktRead_pktWrite_other s d ha, h.buf a]
      rcases Nat.lt_or_gt_of_ne ha with hlt | hgt
      · rw [List.getElem?_append_left (hdrop ▸ hlt)]
      · rw [List.getElem?_eq_none (by omega), List.getElem?_eq_none (by simp; omega)]

/-- Stuffed bytes whose data fit the buffer are read as part of the payload. -/
theorem readPayload_run {s s₀ : State} {v w rest : List Byte} (hs : s.state = .readPayload)
    (hr : s.ReadsBody s₀ v) (h0 : 0#8 ∉ w) (hq : s.line.rxq = w ++ rest)
    (hmax : (dataOf (v ++ w)).length ≤ 1024) :
    ∃ r m, Progresses s [] (s.storing r rest m) ∧ (s.storing r rest m).ReadsBody s₀ (v ++ w) := by
  induction w generalizing s v with
  | nil =>
    have hself : s.storing s.rx rest s.mem = s := by
      rw [State.storing, State.reading, ← List.nil_append rest, ← hq]
    exact ⟨s.rx, s.mem, hself ▸ .refl s, by rwa [hself, List.append_nil]⟩
  | cons b w ih =>
    obtain ⟨hb, hw⟩ := List.ne_and_not_mem_of_not_mem_cons h0
    rw [List.append_cons v b w] at hmax
    have hm := microStep_readPayload hs hq
    obtain ⟨r, m, hstep, hr'⟩ : ∃ r m, microStep s = progress (s.storing r (w ++ rest) m) ∧
        (s.storing r (w ++ rest) m).ReadsBody s₀ (v ++ [b]) := by
      cases hd : s.rx.delivered b with
      | none => exact ⟨s.rx.decode b, s.mem, hm.trans (readPayloadByte_silent hb.symm hd), hr.silent hd⟩
      | some d =>
        have hlen := (dataOf_append (v ++ [b]) w).length_le
        rw [dataOf_concat hr.toHasRead, hd, List.length_append, Option.toList_some, List.length_singleton] at hlen
        have hfull : s.rx.bodyCnt.toNat ≠ 1020 := by
          have := hr.bodyCnt
          omega
        exact ⟨_, Memory.write s.mem s.rx.bodyCnt.toNat d, hm.trans (readPayloadByte_stores hb.symm hd hfull),
          hr.delivers hd (by omega)⟩
    obtain ⟨r', m', hrun, hread⟩ := ih (s := s.storing r (w ++ rest) m) hs hr' hw rfl hmax
    rw [List.append_cons v b w]
    exact ⟨r', m', .head hstep hrun, hread⟩

/-! ### A frame that is taken (R149, R155, R156) -/

/-- A matching destination with no packet pending opens the payload: nothing of it has been received. -/
theorem matchedDestination_run {s : State} {w rest : List Byte} (hs : s.state = .readDestination)
    (hf : s.rx.isFresh) (hv : s.pktValid = false) (h0 : 0#8 ∉ w) (hq : s.line.rxq = w ++ rest)
    (h4 : 4 ≤ (dataOf w).length) (hm : matchDest s.params s.filter (destOf s w) = true) :
    ∃ v w' r t, w = v ++ w' ∧ t = { s.reading r (w' ++ rest) with dest := destOf s w, state := .readPayload } ∧
      Progresses s [] t ∧ t.ReadsBody s v := by
  obtain ⟨v, w', r, hw, hlen, hr, hdest, hrun⟩ := destination_run hs hf h0 hq h4
  rw [destinationComplete_confirmed (s := s.reading r (w' ++ rest)) (hdest ▸ hm) hv, hdest] at hrun
  refine ⟨v, w', { r with bodyCnt := 0#11 }, _, hw, rfl, hrun, ⟨hr.rem, hr.pz, hr.crc⟩, hlen.symm, fun a => ?_⟩
  rw [List.drop_of_length_le hlen.le]
  rfl

theorem Progresses.emits {s t : State} {ev : Event}
    (h : microStep s = { res := .progress, event := some ev, after := t }) : Progresses s [ev] t := by
  have hstep := Progresses.step (s := s) (by rw [h]) (.refl _)
  rwa [h] at hstep

/-- A frame for this node of legal length with the right residue, and no packet pending, is received whole. -/
theorem goodFrame_run {s : State} {w rest : List Byte} (hs : s.state = .readDestination) (hf : s.rx.isFresh)
    (hv : s.pktValid = false) (h0 : 0#8 ∉ w) (hq : s.line.rxq = w ++ 0#8 :: rest)
    (hrem : (streamDecode 0#8 false w).2.1 = 0#8) (hmin : 10 ≤ (dataOf w).length) (hmax : (dataOf w).length ≤ 1024)
    (hc : crcAccumulate Config.crcInitValue (dataOf w) = 0xDEBB20E3#32)
    (hm : matchDest s.params s.filter (destOf s w) = true) :
    ∃ r m, (s.storing r rest m).ReadsBody s w ∧ Progresses s [.evRx]
      (acceptFrame { s.storing r rest m with dest := destOf s w, state := .readPayload }) := by
  obtain ⟨v, w', r, t, rfl, rfl, hrun, hbody⟩ := matchedDestination_run hs hf hv h0 hq (by omega) hm
  obtain ⟨r', m, hrun', hread⟩ :=
    readPayload_run rfl hbody (fun h => h0 (List.mem_append_right _ h)) rfl hmax
  have hlen : r'.bodyCnt.toNat + 4 = _ := hread.bodyCnt
  have h6 : 6 ≤ r'.bodyCnt.toNat := by omega
  refine ⟨r', m, ⟨hread.toHasRead, hlen, hread.buf⟩, hrun.trans (hrun'.trans (.emits ?_))⟩
  refine (microStep_readPayload rfl rfl).trans ?_
  exact frameEnd_good (hread.rem.trans hrem) h6 (hread.crc.trans hc)

/-! ### The frame `SERIALIZE` makes (R200) -/

theorem frameRaw_crc (head : List Byte) :
    crcAccumulate Config.crcInitValue (frameRaw head) = 0xDEBB20E3#32 := by
  have h := crcAccumulate_own_trailer (crcAccumulate Config.crcInitValue head)
  rwa [crcAccumulate, crcAccumulate, ← List.foldl_append] at h

theorem frameRaw_eq (o : ByteOrder) (d : Word) (c i : Byte) (p : List Byte) :
    ∃ b0 b1 b2 b3 tail, frameRaw (frameHead o d c i p) = [b0, b1, b2, b3] ++ ([c, i] ++ p ++ tail) ∧
      tail.length = 4 ∧ destOfBytes o b0 b1 b2 b3 = d := by
  obtain ⟨b0, b1, b2, b3, hb, hd⟩ := destOfBytes_destBytes o d
  refine ⟨b0, b1, b2, b3, le32 (crcOf (frameHead o d c i p)), ?_, rfl, hd⟩
  rw [frameRaw, frameHead, hb]
  simp

/-- The stuffed bytes of a serialized packet, and what they carry. -/
structure IsFrameOf (o : ByteOrder) (d : Word) (body : List Byte) (w : List Byte) : Prop where
  noZero : 0#8 ∉ w
  blockEnd : (streamDecode 0#8 false w).2.1 = 0#8
  crc : crcAccumulate Config.crcInitValue (dataOf w) = 0xDEBB20E3#32
  length : (dataOf w).length = body.length + 8
  dest : (fieldsOf o (dataOf w)).dest = d
  body : body <+: (dataOf w).drop 4

theorem serialize_isFrameOf (o : ByteOrder) (d : Word) (c i : Byte) (p : List Byte) :
    ∃ w, (serialize o d c i p).1 = w ++ [0#8] ∧ IsFrameOf o d ([c, i] ++ p) w := by
  have h0 := zero_not_mem_cobsEncode (frameRaw (frameHead o d c i p))
  obtain ⟨hdata, hrem⟩ := (cobsDecode_eq_some_iff h0).1 (cobsDecode_cobsEncode _)
  obtain ⟨b0, b1, b2, b3, tail, hraw, htail, hd⟩ := frameRaw_eq o d c i p
  change dataOf _ = _ at hdata
  refine ⟨_, rfl, h0, hrem, by rw [hdata, frameRaw_crc], ?_, ?_, ?_⟩
  · rw [hdata, hraw]
    simp [htail]
  · rw [hdata, hraw]
    exact hd
  · rw [hdata, hraw]
    exact ⟨_, rfl⟩

theorem pktBytes_eq_of_isPrefix {s : State} {x y : List Byte} {g : Nat → Byte}
    (hb : ∀ a, pktRead s a = y[a]?.getD (g a)) (hx : x <+: y) : pktBytes s x.length = x := by
  obtain ⟨z, rfl⟩ := hx
  apply List.ext_getElem
  · simp [pktBytes]
  · intro a _ ha
    simp [pktBytes, hb, List.getElem?_append_left ha, ha]

/-! ### The statements -/

/-- Settles O54: the run that the loop of `PUMP` follows; what blocked its last micro-step blocks the `STEP` too. -/
theorem pumpRunsStepsUntilBlocked : Obligations.PumpRunsStepsUntilBlocked := by
  intro s
  obtain ⟨e, u, hrun, hb⟩ := exists_progresses_blocked s
  obtain ⟨x, hx, hxo⟩ := microStep_waits hb
  refine ⟨e, u, _, hrun, hb, rfl, exec_pump_of_progresses hrun hb, ?_⟩
  rw [hx]
  exact exec_step_blocked (hxo _)

/-- Settles O56: such a frame is read to its delimiter, short, skipped or skipped as an overrun. -/
theorem frameNotTaken : Obligations.FrameNotTaken := by
  intro s w hs hf h0 hq raw dest hn
  obtain ⟨r, hrun⟩ := frameNotTaken_run hs hf h0 hq hn
  refine ⟨_, exec_pump_of_emptied hrun (by rw [hs]; rfl) rfl, rfl, r.fresh_isFresh, rfl, rfl, rfl, rfl, rfl, rfl,
    fun h4 hz => ?_, fun h4 hz => ?_, fun h4 hm => ?_, fun h4 hm => ?_⟩
  · exact (if_pos h4).trans (if_pos hz)
  · exact (if_pos h4).trans (if_neg hz)
  · exact (if_neg (Nat.not_lt.2 h4)).trans (if_neg (Bool.eq_false_iff.1 hm))
  · exact (if_neg (Nat.not_lt.2 h4)).trans (if_pos hm)

/-- Settles O59: the first frame is received whole; the second finds its packet pending and is not taken. -/
theorem backToBackFramesOverrun : Obligations.BackToBackFramesOverrun := by
  intro s d₁ d₂ c₁ i₁ c₂ i₂ p₁ p₂ w₁ w₂ hs hf hv hp₁ hp₂ hm₁ hm₂ hw₁ hw₂ hq
  obtain ⟨v₁, he₁, hv₁⟩ := serialize_isFrameOf s.params.destByteOrder d₁ c₁ i₁ p₁
  obtain ⟨v₂, he₂, hv₂⟩ := serialize_isFrameOf s.params.destByteOrder d₂ c₂ i₂ p₂
  have hlen₁ := hv₁.length
  have hlen₂ := hv₂.length
  simp only [List.length_append, List.length_cons, List.length_nil] at hlen₁ hlen₂
  rw [hw₁, hw₂, he₁, he₂, List.append_assoc, List.singleton_append] at hq
  have hd₁ : destOf s v₁ = d₁ := hv₁.dest
  have hd₂ : destOf s v₂ = d₂ := hv₂.dest
  obtain ⟨r, m, hread, hrun⟩ :=
    goodFrame_run hs hf hv hv₁.noZero hq hv₁.blockEnd (by omega) (by omega) hv₁.crc (hd₁ ▸ hm₁)
  obtain ⟨r', hrun'⟩ := frameNotTaken_run (w := v₂) (rest := []) (s := acceptFrame
      { s.storing r (v₂ ++ [0#8]) m with dest := destOf s v₁, state := .readPayload })
    rfl (RxSession.fresh_isFresh _) hv₂.noZero rfl (.inr (.inr rfl))
  have hcnt : r.bodyCnt.toNat + 4 = _ := hread.bodyCnt
  refine ⟨_, exec_pump_of_emptied (hrun.trans hrun') (by rw [hs]; rfl) rfl, rfl, rfl, hd₁, ?_,
    pktBytes_eq_of_isPrefix hread.buf hv₁.body, (if_neg (by omega)).trans (if_pos ?_)⟩
  · show (r.bodyCnt - 4#11).toNat = _
    bv_omega
  · show matchDest s.params s.filter (destOf s v₂) = true
    rw [hd₂, hm₂]

/-- Settles O60: the run over the first part goes the same way with the rest behind it in `RXQ`, and the run over
the rest goes on from there. -/
theorem pumpIgnoresArrivalGrouping : Obligations.PumpIgnoresArrivalGrouping := by
  intro s x y hr he hd _
  obtain ⟨e, u, hrun, hru, _, hpump⟩ := exec_pump_receiving (s := s.behind x s.out) hr
  obtain ⟨hue, hup⟩ := hrun.keepsReceiver hr
  obtain ⟨f, v, hrun', _, hqv, hpump'⟩ :=
    exec_pump_receiving (s := (answer .none e u).behind y (answer .none e u).out) hru
  have hall : Progresses (s.behind (x ++ y) s.out) (e ++ f) (v.behind [] s.out) := by
    have h1 := hrun.behind hr y s.out
    have h2 := hrun'.behind hru [] s.out
    rw [State.behind_behind] at h1 h2
    rw [List.append_nil] at h2
    exact h1.trans h2
  refine ⟨answer .none e u, answer .none f v, answer .none (e ++ f) v, ?_, ?_, ?_, rfl⟩
  · rwa [lineAct_receive_unbounded x he hd]
  · rwa [lineAct_receive_unbounded (s := answer .none e u) y (hue.trans he) ((congrArg Params.rxqDepth hup).trans hd)]
  · rw [lineAct_receive_unbounded (x ++ y) he hd,
      exec_pump_of_emptied hall hr (congrArg (· ++ []) hqv), State.answer_behind_nil]

/-- Settles O38: one equation of `readDestinationByte` per case, and of `destinationComplete` for the fourth byte. -/
theorem stepReadsTheDestination : Obligations.StepReadsTheDestination := by
  intro s hs
  refine ⟨fun hq => exec_step_blocked (microStep_receiving_nil (by rw [hs]; rfl) hq), fun b q hq => ?_⟩
  have hstep := microStep_readDestination hs hq
  refine ⟨?_, ?_, ?_, ?_⟩
  · rintro rfl hr
    exact exec_step_progress_of_eq (hstep.trans (readDestinationByte_frameStart hr))
      (toReadDestination_of_readDestination hs)
  · rintro rfl hr
    exact exec_step_progress_of_eq (hstep.trans (readDestinationByte_cut hr))
      (toReadDestination_of_readDestination (s := { s with
        line := { s.line with rxq := q }, cnt := s.cnt.incError s.params.cntOverflow .malformed }) hs)
  · intro hb hd
    exact exec_step_progress (hstep.trans (readDestinationByte_silent hb hd))
  · intro x hb hd
    have hfourth h3 := hstep.trans (readDestinationByte_fourth hb hd h3)
    exact ⟨fun h3 => exec_step_progress (hstep.trans (readDestinationByte_early hb hd h3)),
      fun h3 hm => exec_step_progress_of_eq (hfourth h3) (destinationComplete_unmatched hm),
      fun h3 hm hv => exec_step_progress_of_eq (hfourth h3) (destinationComplete_pending hm hv),
      fun h3 hm hv => exec_step_progress_of_eq (hfourth h3) (destinationComplete_confirmed hm hv)⟩

/-- Settles O40: one equation of `frameEnd` per outcome of a delimiter, of `readPayloadByte` per other byte. -/
theorem stepReadsThePayload : Obligations.StepReadsThePayload := by
  intro s hs
  refine ⟨fun hq => exec_step_blocked (microStep_receiving_nil (by rw [hs]; rfl) hq), fun b q hq => ?_⟩
  have hstep := microStep_readPayload hs hq
  refine ⟨?_, ?_, ?_, ?_, ?_, ?_⟩
  · rintro rfl h
    exact exec_step_progress (hstep.trans (frameEnd_malformed h))
  · rintro rfl hr hl hc
    exact exec_step_progress (hstep.trans (frameEnd_badCrc hr hl hc))
  · rintro rfl hr hl hc
    rw [exec_step, hstep.trans (frameEnd_good hr hl hc)]
    rfl
  · intro hb hd
    exact exec_step_progress (hstep.trans (readPayloadByte_silent hb hd))
  · intro x hb hd hf
    exact exec_step_progress (hstep.trans (readPayloadByte_full hb hd hf))
  · intro x hb hd hf
    exact ⟨_, exec_step_progress (hstep.trans (readPayloadByte_stores hb hd hf)), rfl,
      pktRead_pktWrite_same _ _ _, fun k hk => pktRead_pktWrite_other _ _ hk⟩

/-- Settles O34: the three cases of the command. -/
theorem stopRxRule : Obligations.StopRxRule := by
  refine fun s => ⟨fun hs => ?_, exec_stopRx_stopped, fun he hs => ?_⟩
  · simp only [exec, execStopRx, cmdStopRx, hs]
  · rw [exec_stopRx_of_listening he hs, stopReceiving_eq]
    rfl

/-- Settles O35: the command in `Stopped`, and its equation elsewhere. -/
theorem startRxRule : Obligations.StartRxRule := by
  refine fun s => ⟨fun hs => ?_, exec_startRx_of_not_stopped⟩
  simp only [exec, execStartRx, cmdStartRx, hs]
  rfl

/-- Settles O37: the equations of the micro-step in the two states. -/
theorem stepInStartAndStopped : Obligations.StepInStartAndStopped :=
  fun _ => ⟨fun hs => exec_step_progress (microStep_start hs), fun hs => exec_step_blocked (microStep_stopped hs)⟩

/-- Settles O39: the parameter chooses the default predicate, which is the condition. -/
theorem defaultAddressMatch : Obligations.DefaultAddressMatch := by
  intro p f d hp
  simp only [matchDest, hp]
  exact matchStandard_iff f d

/-- Settles O41: the equations of the micro-step; the worked example is two of one and one of the other. -/
theorem skipDiscardsToTheDelimiter : Obligations.SkipDiscardsToTheDelimiter := by
  intro s hs
  refine ⟨fun hq => exec_step_blocked (microStep_receiving_nil (by rw [hs]; rfl) hq),
    fun _ _ hq hb => exec_step_skipCurrentPacket_drops hs hq hb,
    fun _ hq => exec_step_skipCurrentPacket_delimiter hs hq, fun hq => ?_⟩
  exact ⟨_, _, _, exec_step_skipCurrentPacket_drops hs hq (by decide),
    exec_step_skipCurrentPacket_drops hs rfl (by decide), exec_step_skipCurrentPacket_delimiter hs rfl,
    hs, hs, rfl, rfl, RxSession.fresh_isFresh _, rfl⟩

/-- Settles O42: whatever the receive state, the delimiter enters `ReadDestination`. -/
theorem delimiterResynchronises : Obligations.DelimiterResynchronises := by
  intro s q hr hq
  obtain ⟨t, ht⟩ := consume_delimiter s
  refine ⟨_, exec_step s, ?_⟩
  rw [microStep_eq_consume hr hq, StepOut.onLine, ht]
  exact ⟨rfl, t.rx.fresh_isFresh, rfl⟩

end Sys2Proof.Machine
end

section
/-! PROOF. The family of spec/43_node_tx.md: `START_TX` (O36), the micro-steps of an encode pass (O43, O44), and the
pass as a whole, which is not aborted (O53) and sends the frame that `SERIALIZE` makes (O55). -/

namespace Sys2Proof.Machine

/-! ### The micro-steps of an encode pass (R171 to R179) -/

theorem microStep_encode {s : State} (hs : s.state = .encode) : microStep s = stepEncode s := by
  simp only [microStep, hs]

theorem pushOrStall_of_room {b : Byte} {f : State → State} {s : State} (h : s.line.room ≠ 0) :
    pushOrStall b f s = progress (f { txPush b s with encStalled := false }) := if_neg h

theorem microStep_drain {s : State} (hs : s.state = .encode) (hd : s.enc.dlen ≠ 0#8) :
    microStep s = stepDrain s :=
  (microStep_encode hs).trans (if_pos hd)

theorem microStep_drain_stalls {s : State} (hs : s.state = .encode) (hd : s.enc.dlen ≠ 0#8) (hr : s.line.room = 0) :
    microStep s = blocked { s with encStalled := true } :=
  (microStep_drain hs hd).trans (pushOrStall_of_noRoom hr)

theorem microStep_drain_pushes {s : State} (hs : s.state = .encode) (hd : s.enc.dlen ≠ 0#8) (hr : s.line.room ≠ 0) :
    microStep s = progress { txPush s.enc.next s with enc := s.enc.advance, encStalled := false } :=
  (microStep_drain hs hd).trans (pushOrStall_of_room hr)

theorem microStep_writeDestination {s : State} (hs : s.state = .encode) (hd : s.enc.dlen = 0#8)
    (hg : s.encStage = .writeDestination) : microStep s = progress (stepWriteDestination s) := by
  simp [microStep_encode hs, stepEncode, hd, hg]

theorem microStep_writePayload {s : State} (hs : s.state = .encode) (hd : s.enc.dlen = 0#8)
    (hg : s.encStage = .writePayload) : microStep s = progress (stepWritePayload s) := by
  simp [microStep_encode hs, stepEncode, hd, hg]

theorem microStep_writeCrc {s : State} (hs : s.state = .encode) (hd : s.enc.dlen = 0#8)
    (hg : s.encStage = .writeCrc) : microStep s = progress (stepWriteCrc s) := by
  simp [microStep_encode hs, stepEncode, hd, hg]

theorem microStep_flush {s : State} (hs : s.state = .encode) (hd : s.enc.dlen = 0#8)
    (hg : s.encStage = .flush) : microStep s = stepFlush s := by
  simp [microStep_encode hs, stepEncode, hd, hg]

theorem stepFlush_close {s : State} (h0 : s.encSrc = 0#11) :
    stepFlush s = progress { s with enc := s.enc.close (s.enc.fill + 1#8), encSrc := 1#11 } := by
  simp [stepFlush, h0]

theorem stepFlush_delimiter {s : State} (h1 : s.encSrc = 1#11) :
    stepFlush s = pushOrStall 0#8 (fun t => { t with encSrc := 2#11 }) s := by
  simp [stepFlush, h1]

theorem stepFlush_lineOut {s : State} (h0 : s.encSrc ≠ 0#11) (h1 : s.encSrc ≠ 1#11) :
    stepFlush s = if s.line.idle then progress (flushDone s) else blocked s := by
  rcases h : s.encSrc.toNat with _ | _ | k
  · exact absurd (BitVec.eq_of_toNat_eq h) h0
  · exact absurd (BitVec.eq_of_toNat_eq h) h1
  · cases hi : s.line.idle <;> simp [stepFlush, h, txIdle, hi]

/-- After the fourth byte, the one under cursor 3, the cursor starts again in the next stage. -/
theorem nextOfFour_eq (stage : EncStage) (s : State) :
    nextOfFour stage s =
      { s with
        encSrc := if s.encSrc = 3#11 then 0#11 else s.encSrc + 1#11
        encStage := if s.encSrc = 3#11 then stage else s.encStage } := by
  have h3 : s.encSrc + 1#11 = 4#11 ↔ s.encSrc = 3#11 := by bv_omega
  simp only [nextOfFour, h3]
  split <;> rfl

/-- The byte that `WriteDestination` feeds next. -/
abbrev State.destByte (s : State) : Byte := sourceByte s (destBytes s.params.destByteOrder s.dest)

theorem stepWriteDestination_eq {s : State} (hg : s.encStage = .writeDestination) :
    stepWriteDestination s =
      { s with
        enc := EncSession.feed s.destByte { s.enc with txCrc := crcUpdate s.enc.txCrc s.destByte }
        encSrc := if s.encSrc = 3#11 then 0#11 else s.encSrc + 1#11
        encStage := if s.encSrc = 3#11 then .writePayload else .writeDestination } := by
  rw [stepWriteDestination, nextOfFour_eq, ← hg]
  rfl

theorem stepWriteCrc_eq {s : State} (hg : s.encStage = .writeCrc) :
    stepWriteCrc s =
      { s with
        enc := s.enc.feed (sourceByte s (le32 s.enc.crcLat))
        encSrc := if s.encSrc = 3#11 then 0#11 else s.encSrc + 1#11
        encStage := if s.encSrc = 3#11 then .flush else .writeCrc } := by
  rw [stepWriteCrc, nextOfFour_eq, ← hg]

/-- The next micro-step has a byte to push: one of the closed block, or the delimiter (R172, R178). -/
abbrev State.pushes (s : State) : Prop :=
  s.enc.dlen ≠ 0#8 ∨ s.encStage = .flush ∧ s.encSrc = 1#11

/-- The micro-steps in `Encode`: one constructor for each that R172 to R179 tell apart. -/
inductive EncodeMove (s : State) : StepOut → Prop
  | stalls (hp : s.pushes) (hr : s.line.room = 0) : EncodeMove s (blocked { s with encStalled := true })
  | drains (hd : s.enc.dlen ≠ 0#8) (hr : s.line.room ≠ 0) :
      EncodeMove s (progress { txPush s.enc.next s with enc := s.enc.advance, encStalled := false })
  | begins (hd : s.enc.dlen = 0#8) (hg : s.encStage = .encoderStart) : EncodeMove s (progress (stepEncoderStart s))
  | feedsDest (hd : s.enc.dlen = 0#8) (hg : s.encStage = .writeDestination) :
      EncodeMove s (progress (stepWriteDestination s))
  | feedsPayload (hd : s.enc.dlen = 0#8) (hg : s.encStage = .writePayload) (hsrc : s.encSrc ≠ s.pktLen) :
      EncodeMove s
        (progress { feedChecked (pktRead s s.encSrc.toNat) s with encSrc := s.encSrc + 1#11 })
  | latches (hd : s.enc.dlen = 0#8) (hg : s.encStage = .writePayload) (hsrc : s.encSrc = s.pktLen) :
      EncodeMove s
        (progress { s with
          enc := { s.enc with crcLat := crcFinal s.enc.txCrc }, encSrc := 0#11, encStage := .writeCrc })
  | feedsCrc (hd : s.enc.dlen = 0#8) (hg : s.encStage = .writeCrc) : EncodeMove s (progress (stepWriteCrc s))
  | closes (hd : s.enc.dlen = 0#8) (hg : s.encStage = .flush) (hsrc : s.encSrc = 0#11) :
      EncodeMove s (progress { s with enc := s.enc.close (s.enc.fill + 1#8), encSrc := 1#11 })
  | delimits (hd : s.enc.dlen = 0#8) (hg : s.encStage = .flush) (hsrc : s.encSrc = 1#11) (hr : s.line.room ≠ 0) :
      EncodeMove s (progress { txPush 0#8 s with encSrc := 2#11, encStalled := false })
  | waits (hd : s.enc.dlen = 0#8) (hg : s.encStage = .flush) (hi : s.line.idle = false) : EncodeMove s (blocked s)
  | turns (hd : s.enc.dlen = 0#8) (hg : s.encStage = .flush) (h0 : s.encSrc ≠ 0#11) (h1 : s.encSrc ≠ 1#11)
      (hi : s.line.idle = true) : EncodeMove s (progress (flushDone s))

theorem stepWritePayload_feeds {s : State} (h : s.encSrc ≠ s.pktLen) :
    stepWritePayload s = { feedChecked (pktRead s s.encSrc.toNat) s with encSrc := s.encSrc + 1#11 } := if_neg h

theorem stepWritePayload_latches {s : State} (h : s.encSrc = s.pktLen) :
    stepWritePayload s =
      { s with enc := { s.enc with crcLat := crcFinal s.enc.txCrc }, encSrc := 0#11, encStage := .writeCrc } :=
  if_pos h

theorem stepFlush_move {s : State} (hd : s.enc.dlen = 0#8) (hg : s.encStage = .flush) :
    EncodeMove s (stepFlush s) := by
  by_cases h0 : s.encSrc = 0#11
  · rw [stepFlush_close h0]
    exact .closes hd hg h0
  by_cases h1 : s.encSrc = 1#11
  · rw [stepFlush_delimiter h1]
    by_cases hr : s.line.room = 0
    · rw [pushOrStall_of_noRoom hr]
      exact .stalls (.inr ⟨hg, h1⟩) hr
    · rw [pushOrStall_of_room hr]
      exact .delimits hd hg h1 hr
  rw [stepFlush_lineOut h0 h1]
  cases hi : s.line.idle with
  | false => exact .waits hd hg hi
  | true => exact .turns hd hg h0 h1 hi

/-- Every micro-step in `Encode` is one of these. -/
theorem microStep_move {s : State} (hs : s.state = .encode) : EncodeMove s (microStep s) := by
  by_cases hd : s.enc.dlen = 0#8
  · cases hg : s.encStage with
    | encoderStart =>
      rw [microStep_begins ⟨hs, hd, hg⟩]
      exact .begins hd hg
    | writeDestination =>
      rw [microStep_writeDestination hs hd hg]
      exact .feedsDest hd hg
    | writePayload =>
      rw [microStep_writePayload hs hd hg]
      by_cases hsrc : s.encSrc = s.pktLen
      · rw [stepWritePayload_latches hsrc]
        exact .latches hd hg hsrc
      · rw [stepWritePayload_feeds hsrc]
        exact .feedsPayload hd hg hsrc
    | writeCrc =>
      rw [microStep_writeCrc hs hd hg]
      exact .feedsCrc hd hg
    | flush =>
      rw [microStep_flush hs hd hg]
      exact stepFlush_move hd hg
  · by_cases hr : s.line.room = 0
    · rw [microStep_drain_stalls hs hd hr]
      exact .stalls (.inl hd) hr
    · rw [microStep_drain_pushes hs hd hr]
      exact .drains hd hr

/-- A pass takes nothing from `RXQ` and leaves `tx_idle` as it is (assumption 7). -/
theorem EncodeMove.keepsLine {s : State} {r : StepOut} (m : EncodeMove s r) :
    r.after.line.rxq = s.line.rxq ∧ r.after.line.idle = s.line.idle := by
  cases m with
  | drains =>
    obtain ⟨_, hq, hi, _⟩ := s.line.push_txs s.enc.next
    exact ⟨hq, hi⟩
  | delimits =>
    obtain ⟨_, hq, hi, _⟩ := s.line.push_txs 0#8
    exact ⟨hq, hi⟩
  | feedsDest =>
    rw [progress_after, stepWriteDestination, nextOfFour_line]
    exact ⟨rfl, rfl⟩
  | feedsCrc =>
    rw [progress_after, stepWriteCrc, nextOfFour_line]
    exact ⟨rfl, rfl⟩
  | _ => exact ⟨rfl, rfl⟩

theorem EncodeMove.event_none {s : State} {r : StepOut} (m : EncodeMove s r) : r.event = none := by
  cases m <;> rfl

/-! ### The stuffer (R108 to R110) -/

/-- The bytes of the closed block that are not yet pushed. -/
def EncSession.pending (e : EncSession) : List Byte := e.closedBlock.drop e.out.toNat

/-- The literals that a byte fed next joins: none while a block drains, for the drain ends with an empty block. -/
def EncSession.openLiterals (e : EncSession) : List Byte := if e.dlen = 0#8 then e.literals else []

/-- What the session still has to push if `x` is fed to it and then the final block is closed. -/
def EncSession.stuffed (e : EncSession) (x : List Byte) : List Byte :=
  e.pending ++ cobsEncodeFrom e.openLiterals x

theorem EncSession.pending_open {e : EncSession} (hd : e.dlen = 0#8) : e.pending = [] := by
  simp [EncSession.pending, EncSession.closedBlock, hd]

theorem EncSession.openLiterals_closed {e : EncSession} (hd : e.dlen ≠ 0#8) : e.openLiterals = [] := if_neg hd

theorem EncSession.stuffed_open {e : EncSession} (hd : e.dlen = 0#8) (x : List Byte) :
    e.stuffed x = cobsEncodeFrom e.literals x := by
  rw [EncSession.stuffed, EncSession.pending_open hd, EncSession.openLiterals, if_pos hd, List.nil_append]

/-- An empty block, none draining: what is fed is stuffed from its start. -/
theorem EncSession.stuffed_empty {e : EncSession} (hd : e.dlen = 0#8) (hf : e.fill = 0#8) (x : List Byte) :
    e.stuffed x = cobsEncode x := by
  have hl : e.literals = [] := by simp [EncSession.literals, hf]
  rw [EncSession.stuffed_open hd, hl, cobsEncode]

theorem EncSession.length_literals {e : EncSession} (hf : e.fill.toNat ≤ 254) : e.literals.length = e.fill.toNat := by
  simp [EncSession.literals, hf]

theorem EncSession.close_pending (code : Byte) {e : EncSession} (hf : e.fill.toNat ≤ 254) :
    (e.close code).pending = code :: e.literals :=
  EncSession.close_closedBlock code hf

theorem EncSession.close_stuffed (code : Byte) {e : EncSession} (hf : e.fill.toNat ≤ 254) (x : List Byte) :
    (e.close code).stuffed x = code :: e.literals ++ cobsEncode x := by
  have hd : (e.close code).dlen ≠ 0#8 := by
    simp only [EncSession.close]
    bv_omega
  rw [EncSession.stuffed, EncSession.close_pending code hf, EncSession.openLiterals_closed hd, cobsEncode]

/-- The code byte of the open block. -/
theorem EncSession.codeByte {e : EncSession} (hf : e.fill.toNat ≤ 254) :
    e.fill + 1#8 = BitVec.ofNat 8 (e.literals.length + 1) := by
  rw [EncSession.length_literals hf]
  bv_omega

/-- Closing the final block is stuffing the empty rest. -/
theorem EncSession.close_final {e : EncSession} (hd : e.dlen = 0#8) (hf : e.fill.toNat ≤ 254) :
    (e.close (e.fill + 1#8)).pending = e.stuffed [] := by
  rw [EncSession.close_pending _ hf, EncSession.stuffed_open hd, EncSession.codeByte hf, cobsEncodeFrom]

/-- R110: feeding a byte is one step of the one-pass encoder. -/
theorem EncSession.feed_stuffed (b : Byte) {e : EncSession} (hd : e.dlen = 0#8) (hf : e.fill.toNat ≤ 253)
    (x : List Byte) : (e.feed b).stuffed x = e.stuffed (b :: x) := by
  have hlit := EncSession.literal_literals b hf
  have hlen : (e.literals ++ [b]).length = e.fill.toNat + 1 := by
    rw [List.length_append, EncSession.length_literals (by omega), List.length_singleton]
  rw [EncSession.stuffed_open hd, cobsEncodeFrom, hlen, Config.cobsMaxRun]
  obtain ⟨hb, h254, h⟩ | ⟨hb, h254, h⟩ | ⟨hb, h⟩ := e.feed_cases b <;> rw [h]
  · rw [if_neg hb, if_neg (by bv_omega), EncSession.stuffed_open (e := e.literal b) hd, hlit]
  · have hfill : (e.literal b).fill.toNat ≤ 254 := by simp [EncSession.literal, h254]
    rw [if_neg hb, if_pos (by bv_omega), EncSession.close_stuffed _ hfill, hlit, cobsEncode]
  · rw [if_pos hb, EncSession.close_stuffed _ (by omega), EncSession.codeByte (by omega), cobsEncode]

/-- The byte that the drain pushes is the first of those pending. -/
theorem EncSession.pending_advance {e : EncSession} (hd : e.dlen ≠ 0#8) (h : e.cursorsInRange) :
    e.pending = e.next :: e.advance.pending := by
  obtain ⟨_, hout⟩ := (EncSession.cursorsInRange_closed hd).1 h
  have hdl := e.dlen.isLt
  have hlen : e.closedBlock.length = e.dlen.toNat := by
    simp only [EncSession.closedBlock, List.length_take, Vector.length_toList]
    omega
  have hnext : e.closedBlock[e.out.toNat] = e.next := by
    have hblk : e.out.toNat < 255 := by omega
    simp [EncSession.closedBlock, EncSession.next, hblk]
  rw [EncSession.pending, List.drop_eq_getElem_cons (by omega), hnext, EncSession.advance]
  split
  · rw [EncSession.pending_open rfl, List.drop_eq_nil_of_le]
    bv_omega
  · have hout' : (e.out + 1#8).toNat = e.out.toNat + 1 := by bv_omega
    rw [← hout']
    rfl

theorem EncSession.advance_openLiterals {e : EncSession} (hd : e.dlen ≠ 0#8) :
    e.advance.openLiterals = e.openLiterals := by
  rw [EncSession.openLiterals_closed hd, EncSession.advance]
  split
  · simp [EncSession.openLiterals, EncSession.literals]
  · exact EncSession.openLiterals_closed hd

theorem EncSession.advance_stuffed {e : EncSession} (hd : e.dlen ≠ 0#8) (h : e.cursorsInRange) (x : List Byte) :
    e.stuffed x = e.next :: e.advance.stuffed x := by
  rw [EncSession.stuffed, EncSession.pending_advance hd h, List.cons_append, ← EncSession.advance_openLiterals hd,
    EncSession.stuffed]

/-! ### What a pass still has to feed and to push (R180) -/

/-- The bytes `x` and behind them their checksum, as the accumulator `c` goes on over them. -/
def withTrailer (c : Word) (x : List Byte) : List Byte := x ++ le32 (crcFinal (crcAccumulate c x))

theorem withTrailer_cons (c : Word) (b : Byte) (x : List Byte) :
    withTrailer c (b :: x) = b :: withTrailer (crcUpdate c b) x := rfl

/-- The frame of the packet in `DEST` and the buffer, not yet stuffed. -/
def State.rawFrame (s : State) : List Byte :=
  frameRaw (destBytes s.params.destByteOrder s.dest ++ pktBytes s s.pktLen.toNat)

/-- The bytes still to be fed from the cursor `k` of a stage on, with the checksums of the session `e`. -/
def State.unfedAt (s : State) (e : EncSession) (k : Nat) : EncStage → List Byte
  | .encoderStart => s.rawFrame
  | .writeDestination =>
    withTrailer e.txCrc ((destBytes s.params.destByteOrder s.dest).drop k ++ pktBytes s s.pktLen.toNat)
  | .writePayload => withTrailer e.txCrc ((pktBytes s s.pktLen.toNat).drop k)
  | .writeCrc => (le32 e.crcLat).drop k
  | .flush => []

/-- The bytes that the pass has still to feed to the stuffer. -/
def State.unfed (s : State) : List Byte := s.unfedAt s.enc s.encSrc.toNat s.encStage

theorem State.unfed_eq {s : State} {g : EncStage} (hg : s.encStage = g) :
    s.unfed = s.unfedAt s.enc s.encSrc.toNat g := by
  rw [State.unfed, hg]

theorem State.unfedAt_feed (s : State) (e : EncSession) (b : Byte) (k : Nat) (g : EncStage) :
    s.unfedAt (e.feed b) k g = s.unfedAt e k g := by
  cases g <;> simp only [State.unfedAt, EncSession.feed_txCrc, EncSession.feed_crcLat]

/-- The final block is closed. -/
abbrev State.closedFinal (s : State) : Prop := s.encStage = .flush ∧ s.encSrc ≠ 0#11

/-- The bytes that the pass has still to push: of the blocks, then the delimiter. -/
def State.unpushed (s : State) : List Byte :=
  if s.closedFinal then s.enc.pending ++ if s.encSrc = 1#11 then [0#8] else []
  else s.enc.stuffed s.unfed ++ [0#8]

theorem State.unpushed_feeding {s : State} (h : ¬ s.closedFinal) : s.unpushed = s.enc.stuffed s.unfed ++ [0#8] :=
  if_neg h

theorem State.unpushed_closedFinal {s : State} (h : s.closedFinal) :
    s.unpushed = s.enc.pending ++ if s.encSrc = 1#11 then [0#8] else [] := if_pos h

theorem State.not_closedFinal {s : State} {g : EncStage} (hg : s.encStage = g) (hne : g ≠ .flush) :
    ¬ s.closedFinal :=
  fun h => hne (hg.symm.trans h.1)

theorem destBytes_length (o : ByteOrder) (d : Word) : (destBytes o d).length = 4 := by
  cases o <;> rfl

theorem pktBytes_drop {s : State} {k n : Nat} (h : k < n) :
    (pktBytes s n).drop k = pktRead s k :: (pktBytes s n).drop (k + 1) := by
  have hlen : k < (pktBytes s n).length := by simpa [pktBytes] using h
  rw [List.drop_eq_getElem_cons hlen]
  simp [pktBytes]

/-- The byte under the cursor is the first of those the cursor has still to pass. -/
theorem drop_eq_sourceByte {s : State} {x : List Byte} (h : s.encSrc.toNat < x.length) :
    x.drop s.encSrc.toNat = sourceByte s x :: x.drop (s.encSrc.toNat + 1) := by
  rw [List.drop_eq_getElem_cons h, sourceByte, List.getD_eq_getElem _ _ h]

theorem State.unfedAt_destination {s : State} (h : s.encSrc.toNat < 4) :
    s.unfedAt s.enc s.encSrc.toNat .writeDestination =
      s.destByte ::
        s.unfedAt { s.enc with txCrc := crcUpdate s.enc.txCrc s.destByte } (s.encSrc.toNat + 1) .writeDestination := by
  have hlen := destBytes_length s.params.destByteOrder s.dest
  rw [State.unfedAt, drop_eq_sourceByte (by omega), List.cons_append, withTrailer_cons, State.unfedAt]

theorem State.unfedAt_destination_end (s : State) (e : EncSession) :
    s.unfedAt e 4 .writeDestination = s.unfedAt e 0 .writePayload := by
  rw [State.unfedAt, List.drop_eq_nil_of_le (destBytes_length _ _).le]
  rfl

theorem State.unfedAt_payload {s : State} (h : s.encSrc.toNat < s.pktLen.toNat) :
    s.unfedAt s.enc s.encSrc.toNat .writePayload =
      pktRead s s.encSrc.toNat ::
        s.unfedAt { s.enc with txCrc := crcUpdate s.enc.txCrc (pktRead s s.encSrc.toNat) } (s.encSrc.toNat + 1)
          .writePayload := by
  rw [State.unfedAt, pktBytes_drop h, withTrailer_cons, State.unfedAt]

theorem State.unfedAt_payload_end (s : State) (e : EncSession) :
    s.unfedAt e s.pktLen.toNat .writePayload =
      s.unfedAt { e with crcLat := crcFinal e.txCrc } 0 .writeCrc := by
  rw [State.unfedAt, List.drop_eq_nil_of_le (by simp [pktBytes])]
  rfl

theorem State.unfedAt_crc {s : State} (h : s.encSrc.toNat < 4) :
    s.unfedAt s.enc s.encSrc.toNat .writeCrc =
      sourceByte s (le32 s.enc.crcLat) :: s.unfedAt s.enc (s.encSrc.toNat + 1) .writeCrc :=
  drop_eq_sourceByte h

/-! ### A pass goes on (R180) -/

/-- An encode pass under way, with its cursors in range. -/
structure State.Encoding (s : State) : Prop where
  state : s.state = .encode
  block : s.enc.cursorsInRange
  cursor : cursorInRange s.encStage s.encSrc.toNat s.pktLen.toNat
  fresh : s.encStage = .encoderStart → s.enc.dlen = 0#8 ∧ s.enc.fill = 0#8

/-- From `s` to `t` the pass goes on: what is pushed and what is still to be pushed make the same stream. -/
structure PassGoesOn (s t : State) : Prop where
  encoding : t.Encoding
  stream : t.line.txs ++ t.unpushed = s.line.txs ++ s.unpushed

theorem State.Encoding.fill_le {s : State} (h : s.Encoding) (hd : s.enc.dlen = 0#8) : s.enc.fill.toNat ≤ 253 :=
  (EncSession.cursorsInRange_open hd).1 h.block

theorem cursorInRange_zero (g : EncStage) (len : Nat) : cursorInRange g 0 len := by
  cases g <;> simp [cursorInRange]

/-- A micro-step that feeds the first of the bytes still to be fed, and moves the cursor to `k` in stage `g`. -/
theorem State.Encoding.feeds {s : State} (h : s.Encoding) (hd : s.enc.dlen = 0#8) (hs : s.encStage ≠ .flush)
    {b : Byte} {c : Word} {g : EncStage} {k : BitVec 11} (hg : g ≠ .encoderStart) (hf : g = .flush → k = 0#11)
    (hc : cursorInRange g k.toNat s.pktLen.toNat)
    (hu : s.unfed = b :: s.unfedAt { s.enc with txCrc := c } k.toNat g) :
    PassGoesOn s
      { s with enc := EncSession.feed b { s.enc with txCrc := c }, encSrc := k, encStage := g } where
  encoding :=
    { state := h.state
      block := EncSession.feed_cursorsInRange b hd (h.fill_le hd)
      cursor := hc
      fresh := fun e => absurd e hg }
  stream := by
    rw [State.unpushed_feeding (fun hcl => hs hcl.1), State.unpushed_feeding (fun hcl => hcl.2 (hf hcl.1)), hu,
      State.unfed, State.unfedAt_feed, EncSession.feed_stuffed (e := { s.enc with txCrc := c }) b hd (h.fill_le hd)]
    rfl

/-- The same in a stage of four bytes, which ends after the one under cursor 3. -/
theorem State.Encoding.feedsOfFour {s : State} (h : s.Encoding) (hd : s.enc.dlen = 0#8) {g next : EncStage}
    (hg : s.encStage = g) (hfour : g = .writeDestination ∨ g = .writeCrc) (hnext : next ≠ .encoderStart)
    {b : Byte} {c : Word}
    (hu : s.encSrc.toNat < 4 →
      s.unfedAt s.enc s.encSrc.toNat g = b :: s.unfedAt { s.enc with txCrc := c } (s.encSrc.toNat + 1) g)
    (hend : s.unfedAt { s.enc with txCrc := c } 4 g = s.unfedAt { s.enc with txCrc := c } 0 next) :
    PassGoesOn s
      { s with
        enc := EncSession.feed b { s.enc with txCrc := c }
        encSrc := if s.encSrc = 3#11 then 0#11 else s.encSrc + 1#11
        encStage := if s.encSrc = 3#11 then next else g } := by
  have hrange (k : Nat) : cursorInRange g k s.pktLen.toNat ↔ k < 4 := by
    obtain rfl | rfl := hfour <;> rfl
  have hlt := (hrange _).1 (hg ▸ h.cursor)
  have hne : g ≠ .flush ∧ g ≠ .encoderStart := by
    obtain rfl | rfl := hfour <;> simp
  rw [← State.unfed_eq hg] at hu
  by_cases h3 : s.encSrc = 3#11
  · rw [if_pos h3, if_pos h3]
    refine h.feeds hd (hg ▸ hne.1) hnext (fun _ => rfl) (cursorInRange_zero _ _) ?_
    rw [hu hlt, h3]
    exact congrArg _ hend
  · have hsrc : (s.encSrc + 1#11).toNat = s.encSrc.toNat + 1 := by bv_omega
    rw [if_neg h3, if_neg h3]
    refine h.feeds hd (hg ▸ hne.1) hne.2 (absurd · hne.1) ((hrange _).2 ?_) ?_
    · bv_omega
    · rw [hu hlt, hsrc]

theorem stepWriteDestination_goesOn {s : State} (h : s.Encoding) (hd : s.enc.dlen = 0#8)
    (hg : s.encStage = .writeDestination) : PassGoesOn s (stepWriteDestination s) := by
  rw [stepWriteDestination_eq hg]
  exact h.feedsOfFour hd hg (.inl rfl) (by simp) State.unfedAt_destination (State.unfedAt_destination_end s _)

theorem stepWriteCrc_goesOn {s : State} (h : s.Encoding) (hd : s.enc.dlen = 0#8) (hg : s.encStage = .writeCrc) :
    PassGoesOn s (stepWriteCrc s) := by
  rw [stepWriteCrc_eq hg]
  exact h.feedsOfFour (c := s.enc.txCrc) hd hg (.inr rfl) (by simp) State.unfedAt_crc rfl

theorem feedPayload_goesOn {s : State} (h : s.Encoding) (hd : s.enc.dlen = 0#8) (hg : s.encStage = .writePayload)
    (hne : s.encSrc ≠ s.pktLen) :
    PassGoesOn s { feedChecked (pktRead s s.encSrc.toNat) s with encSrc := s.encSrc + 1#11 } := by
  have hc := h.cursor
  rw [hg] at hc
  have hlt : s.encSrc.toNat < s.pktLen.toNat := by
    simp only [cursorInRange] at hc
    bv_omega
  have hsrc : (s.encSrc + 1#11).toNat = s.encSrc.toNat + 1 := by bv_omega
  have hu := (State.unfed_eq hg).trans (State.unfedAt_payload hlt)
  refine h.feeds hd (g := s.encStage) (by simp [hg]) (by simp [hg]) (by simp [hg]) ?_ ?_
  · rw [hg, hsrc]
    exact hlt
  · rw [hg, hsrc]
    exact hu

theorem State.unfedAt_advance (s : State) (e : EncSession) (k : Nat) (g : EncStage) :
    s.unfedAt e.advance k g = s.unfedAt e k g := by
  unfold EncSession.advance
  split <;> cases g <;> rfl

/-- A drain pushes the first of the bytes still to be pushed. -/
theorem State.Encoding.unpushed_drain {s : State} (h : s.Encoding) (hd : s.enc.dlen ≠ 0#8) (l : Line) (x : Bool) :
    s.unpushed = s.enc.next :: State.unpushed { s with line := l, enc := s.enc.advance, encStalled := x } := by
  by_cases hc : s.closedFinal
  · rw [State.unpushed_closedFinal hc, State.unpushed_closedFinal (by exact hc),
      EncSession.pending_advance hd h.block]
    rfl
  · rw [State.unpushed_feeding hc, State.unpushed_feeding (by exact hc), EncSession.advance_stuffed hd h.block,
      State.unfed, State.unfed, State.unfedAt_advance]
    rfl

theorem stepDrain_goesOn {s : State} (h : s.Encoding) (hd : s.enc.dlen ≠ 0#8) :
    PassGoesOn s { txPush s.enc.next s with enc := s.enc.advance, encStalled := false } where
  encoding :=
    { state := h.state
      block := EncSession.advance_cursorsInRange hd h.block
      cursor := h.cursor
      fresh := fun hg => absurd (h.fresh hg).1 hd }
  stream := by
    obtain ⟨htxs, _⟩ := s.line.push_txs s.enc.next
    rw [h.unpushed_drain hd (s.line.push s.enc.next) false, txPush_line, htxs, ← List.append_cons]
    rfl

theorem stepEncoderStart_goesOn {s : State} (h : s.Encoding) (hg : s.encStage = .encoderStart) :
    PassGoesOn s (stepEncoderStart s) where
  encoding :=
    { state := h.state
      block := (EncSession.cursorsInRange_open (e := (stepEncoderStart s).enc) (h.fresh hg).1).2 (Nat.zero_le _)
      cursor := cursorInRange_zero _ _
      fresh := nofun }
  stream := by
    obtain ⟨hd, hf⟩ := h.fresh hg
    rw [State.unpushed_feeding (State.not_closedFinal hg (by simp)),
      State.unpushed_feeding (by simp [stepEncoderStart]), EncSession.stuffed_empty hd hf,
      EncSession.stuffed_empty (by exact hd) rfl, State.unfed_eq hg]
    rfl

theorem latch_goesOn {s : State} (h : s.Encoding) (hg : s.encStage = .writePayload) (hsrc : s.encSrc = s.pktLen) :
    PassGoesOn s
      { s with enc := { s.enc with crcLat := crcFinal s.enc.txCrc }, encSrc := 0#11, encStage := .writeCrc } where
  encoding :=
    { state := h.state
      block := h.block
      cursor := cursorInRange_zero _ _
      fresh := nofun }
  stream := by
    rw [State.unpushed_feeding (State.not_closedFinal hg (by simp)), State.unpushed_feeding (by simp),
      State.unfed_eq hg, hsrc, State.unfedAt_payload_end]
    rfl

theorem closeFinal_goesOn {s : State} (h : s.Encoding) (hd : s.enc.dlen = 0#8) (hg : s.encStage = .flush)
    (hsrc : s.encSrc = 0#11) :
    PassGoesOn s { s with enc := s.enc.close (s.enc.fill + 1#8), encSrc := 1#11 } where
  encoding :=
    { state := h.state
      block := EncSession.close_cursorsInRange _ (Nat.le_succ_of_le (h.fill_le hd))
      cursor := by simp [hg, cursorInRange]
      fresh := fun e => absurd (hg.symm.trans e) (by simp) }
  stream := by
    rw [State.unpushed_feeding (fun hc => hc.2 hsrc), State.unpushed_closedFinal (by exact ⟨hg, by simp⟩),
      State.unfed_eq hg, State.unfedAt, ← EncSession.close_final hd (Nat.le_succ_of_le (h.fill_le hd))]
    rfl

/-- Once the final block is pushed, the delimiter is all that is left, and then nothing. -/
theorem State.unpushed_delimiter {s : State} (hd : s.enc.dlen = 0#8) (hg : s.encStage = .flush)
    (h0 : s.encSrc ≠ 0#11) : s.unpushed = if s.encSrc = 1#11 then [0#8] else [] := by
  rw [State.unpushed_closedFinal ⟨hg, h0⟩, EncSession.pending_open hd, List.nil_append]

theorem delimiter_goesOn {s : State} (h : s.Encoding) (hd : s.enc.dlen = 0#8) (hg : s.encStage = .flush)
    (hsrc : s.encSrc = 1#11) : PassGoesOn s { txPush 0#8 s with encSrc := 2#11, encStalled := false } where
  encoding :=
    { state := h.state
      block := h.block
      cursor := by simp [hg, cursorInRange]
      fresh := fun e => absurd (hg.symm.trans e) (by simp) }
  stream := by
    obtain ⟨htxs, _⟩ := s.line.push_txs 0#8
    rw [State.unpushed_delimiter hd hg (by simp [hsrc]), if_pos hsrc, txPush_line, htxs,
      State.unpushed_delimiter (by exact hd) (by exact hg) (by simp)]
    simp

/-- A micro-step of the pass: it goes on, or everything is pushed and the line is turned around (R179). -/
theorem EncodeMove.goesOn {s : State} {r : StepOut} (h : s.Encoding) (m : EncodeMove s r) :
    PassGoesOn s r.after ∨ s.unpushed = [] ∧ r.after = flushDone s := by
  cases m with
  | stalls => exact .inl ⟨{ h with }, rfl⟩
  | drains hd => exact .inl (stepDrain_goesOn h hd)
  | begins _ hg => exact .inl (stepEncoderStart_goesOn h hg)
  | feedsDest hd hg => exact .inl (stepWriteDestination_goesOn h hd hg)
  | feedsPayload hd hg hsrc => exact .inl (feedPayload_goesOn h hd hg hsrc)
  | latches _ hg hsrc => exact .inl (latch_goesOn h hg hsrc)
  | feedsCrc hd hg => exact .inl (stepWriteCrc_goesOn h hd hg)
  | closes hd hg hsrc => exact .inl (closeFinal_goesOn h hd hg hsrc)
  | delimits hd hg hsrc => exact .inl (delimiter_goesOn h hd hg hsrc)
  | waits => exact .inl ⟨h, rfl⟩
  | turns hd hg h0 h1 => exact .inr ⟨(State.unpushed_delimiter hd hg h0).trans (if_neg h1), rfl⟩

/-- With room for everything that is still to be pushed and an idle line, no micro-step of the pass is blocked. -/
theorem EncodeMove.res_of_room {s : State} {r : StepOut} (h : s.Encoding) (m : EncodeMove s r)
    (hroom : s.unpushed.length ≤ s.line.room) (hidle : s.line.idle = true) : r.res = .progress := by
  cases m with
  | stalls hp hr =>
    obtain hd | ⟨hg, hsrc⟩ := hp
    · rw [h.unpushed_drain hd s.line s.encStalled, List.length_cons] at hroom
      omega
    · rw [State.unpushed_closedFinal ⟨hg, by simp [hsrc]⟩, if_pos hsrc, List.length_append,
        List.length_singleton] at hroom
      omega
  | waits _ _ hi => exact absurd (hi.symm.trans hidle) (by simp)
  | _ => rfl

/-! ### From `START_TX` to the end of the pass (R170, R179, R180) -/

theorem SamePacket.trans {s t u : State} (h : SamePacket s t) (k : SamePacket t u) : SamePacket s u :=
  ⟨k.mem.trans h.mem, k.dest.trans h.dest, k.pktLen.trans h.pktLen, k.pktValid.trans h.pktValid, k.cnt.trans h.cnt⟩

/-- In `u` the pass begun in `s` is under way; `z` is the stream that it makes. -/
structure InPass (s : State) (z : List Byte) (u : State) : Prop where
  encoding : u.Encoding
  packet : SamePacket s u
  rxEn : u.rxEn = s.rxEn
  rxq : u.line.rxq = []
  stream : u.line.txs ++ u.unpushed = z

/-- In `u` the pass begun in `s` has ended, with the stream `z`, and the line is turned around. -/
structure PassDone (s : State) (z : List Byte) (u : State) : Prop where
  state : u.state = .readDestination
  packet : SamePacket s u
  rxEn : u.rxEn = true
  txEn : u.txEn = false
  fresh : u.rx.isFresh
  rxq : u.line.rxq = []
  stream : u.line.txs = z

/-- The pass begun in `s` is under way or has ended. -/
abbrev PassState (s : State) (z : List Byte) (u : State) : Prop := InPass s z u ∨ PassDone s z u

section
variable {s u v : State} {z : List Byte}

theorem InPass.after_microStep (h : InPass s z u) : PassState s z (microStep u).after := by
  have hs := h.encoding.state
  have m := microStep_move hs
  have hp := h.packet.trans (stepEncode_samePacket u)
  rw [← microStep_encode hs] at hp
  obtain hgo | ⟨hnil, hdone⟩ := m.goesOn h.encoding
  · have hc := stepEncode_control hs
    rw [← microStep_encode hs] at hc
    exact .inl ⟨hgo.encoding, hp, (hc.rxEn (hgo.encoding.state.trans hs.symm)).trans h.rxEn,
      m.keepsLine.1.trans h.rxq, hgo.stream.trans h.stream⟩
  · have hz := h.stream
    rw [hnil, List.append_nil] at hz
    rw [hdone] at hp ⊢
    exact .inr ⟨rfl, hp, rfl, rfl, u.rx.fresh_isFresh, h.rxq, hz⟩

theorem PassDone.microStep_blocked (h : PassDone s z u) : microStep u = blocked u :=
  microStep_receiving_nil (by rw [h.state]; rfl) h.rxq

theorem PassState.after_microStep (h : PassState s z u) : PassState s z (microStep u).after := by
  obtain h | h := h
  · exact h.after_microStep
  · rw [h.microStep_blocked]
    exact .inr h

theorem PassState.after_answer (val : Value) (evs : List Event) (h : PassState s z u) :
    PassState s z (answer val evs u) := by
  obtain h | h := h
  · exact .inl ⟨{ h.encoding with },
      h.packet.trans ⟨rfl, rfl, rfl, rfl, rfl⟩, h.rxEn, h.rxq, h.stream⟩
  · exact .inr ⟨h.state, h.packet.trans ⟨rfl, rfl, rfl, rfl, rfl⟩, h.rxEn, h.txEn, h.fresh, h.rxq, h.stream⟩

theorem PassState.after_exec {i : Instr} (hi : i = .pump ∨ i = .step) (hn : exec i u = .next v)
    (h : PassState s z u) : PassState s z v := by
  obtain rfl | rfl := hi <;> cases hn
  · exact PassState.after_answer _ _ (pump_induct (fun _ => PassState.after_microStep) h)
  · exact PassState.after_answer _ _ h.after_microStep

theorem lineAct_rxq_of_disabled (a : LineAction) (h : u.rxEn = false) : (lineAct a u).line.rxq = u.line.rxq := by
  cases a with
  | receive x => rw [lineAct_receive_disabled x h]
  | drain k => rfl
  | room k => rfl
  | idle t => cases t <;> rfl

/-- With the receiver disabled the line leaves the pass as it is. -/
theorem InPass.after_lineAct (a : LineAction) (hrx : s.rxEn = false) (h : InPass s z u) : InPass s z (lineAct a u) := by
  have hrxq := (lineAct_rxq_of_disabled a (h.rxEn.trans hrx)).trans h.rxq
  have hz := h.stream
  rw [← lineAct_txs a] at hz
  rw [lineAct_eq_line] at hrxq ⊢
  exact ⟨{ h.encoding with },
    h.packet.trans ⟨rfl, rfl, rfl, rfl, rfl⟩, h.rxEn, hrxq, hz⟩

theorem PassState.encode (h : PassState s z u) (hs : u.state = .encode) : InPass s z u :=
  h.resolve_right fun hd => by simp [hd.state] at hs

/-- However the pass is spread, it stays a pass begun in `s`. -/
theorem EncodeRun.passState (run : EncodeRun u v) (hrx : s.rxEn = false) (h : PassState s z u) : PassState s z v := by
  induction run with
  | refl _ => exact h
  | issue i _ hi hn _ ih => exact ih (h.after_exec hi hn)
  | line a hs _ ih => exact ih (.inl ((h.encode hs).after_lineAct a hrx))

/-- A run of micro-steps that finds room for everything still to be pushed and an idle line ends the pass. -/
theorem Progresses.passDone {e : List Event} (run : Progresses u e v) (hb : (microStep v).res = .blocked)
    (h : InPass s z u) (hroom : u.unpushed.length ≤ u.line.room) (hidle : u.line.idle = true) :
    e = [] ∧ PassDone s z v := by
  induction run with
  | refl u =>
    have hp := (microStep_move h.encoding.state).res_of_room h.encoding hroom hidle
    cases hp.symm.trans hb
  | @step u _ _ _ rest ih =>
    have m := microStep_move h.encoding.state
    rw [m.event_none]
    obtain hgo | hdone := h.after_microStep
    · obtain ⟨x, hx, hlen⟩ := microStep_pushed u
      have hz := hgo.stream.trans h.stream.symm
      rw [hx, List.append_assoc, List.append_cancel_left_eq] at hz
      rw [← hz, List.length_append] at hroom
      exact ih hb hgo (by omega) (m.keepsLine.2.trans hidle)
    · cases rest with
      | refl _ => exact ⟨rfl, hdone⟩
      | step hp => simp [hdone.microStep_blocked] at hp

theorem InPass.pump_done (h : InPass s z u) (hroom : u.unpushed.length ≤ u.line.room) (hidle : u.line.idle = true) :
    ∃ t, exec .pump u = .next t ∧ PassDone s z t ∧ t.out.events = [] := by
  obtain ⟨e, v, hrun, hb⟩ := exists_progresses_blocked u
  obtain ⟨rfl, hdone⟩ := hrun.passDone hb h hroom hidle
  refine ⟨_, exec_pump_of_progresses hrun hb, ?_, rfl⟩
  rw [hdone.microStep_blocked]
  exact (PassState.after_answer _ _ (.inr hdone)).resolve_left fun hin => by
    have := hin.encoding.state
    simp [hdone.state] at this

end

theorem exec_startTx_legal {s : State} (hs : s.state = .stopped) (h2 : 2 ≤ s.pktLen.toNat)
    (hmax : s.pktLen.toNat ≤ 1016) : exec .startTx s = .next (answer .none [] (beginEncode s)) := by
  have hlen : ¬ (s.pktLen.toNat < 2 ∨ Config.pktBufCap - 4 < s.pktLen.toNat) := by
    simp only [Config.pktBufCap]
    omega
  change cmdStartTx s = _
  rw [cmdStartTx, if_neg (not_not.2 hs), if_neg hlen]

/-- The wire bytes of the packet in `DEST` and the buffer (R200). -/
def State.wire (s : State) : List Byte := cobsEncode s.rawFrame ++ [0#8]

theorem pktBytes_eq_cons_cons {s : State} {n : Nat} (h : 2 ≤ n) :
    pktBytes s n = pktRead s 0 :: pktRead s 1 :: (pktBytes s n).drop 2 :=
  calc pktBytes s n
    _ = pktRead s 0 :: (pktBytes s n).drop 1 := pktBytes_drop (k := 0) (by omega)
    _ = pktRead s 0 :: pktRead s 1 :: (pktBytes s n).drop 2 := congrArg _ (pktBytes_drop (by omega))

/-- The command, the index and the payload that `SERIALIZE` is given are the bytes of the buffer. -/
theorem frameHead_pktBytes {s : State} {n : Nat} (h : 2 ≤ n) (o : ByteOrder) (d : Word) :
    frameHead o d (pktRead s 0) (pktRead s 1) ((pktBytes s n).drop 2) = destBytes o d ++ pktBytes s n := by
  conv_rhs => rw [pktBytes_eq_cons_cons h]
  rw [frameHead, List.append_assoc]
  rfl

theorem exec_serialize_packet {s : State} (h2 : 2 ≤ s.pktLen.toNat) (hmax : s.pktLen.toNat ≤ 1016) :
    ∃ crc, exec (.serialize s.dest (pktRead s 0) (pktRead s 1) ((pktBytes s s.pktLen.toNat).drop 2)) s =
      .next (answer (.frame s.wire crc) [] s) := by
  have hlen : ¬ Config.maxPayload < ((pktBytes s s.pktLen.toNat).drop 2).length := by
    simp only [pktBytes, Config.maxPayload, List.length_drop, List.length_map, List.length_range]
    omega
  refine ⟨crcOf (destBytes s.params.destByteOrder s.dest ++ pktBytes s s.pktLen.toNat), ?_⟩
  rw [State.wire, State.rawFrame, ← frameHead_pktBytes h2]
  exact if_neg hlen

theorem length_wire_le {s : State} (hmax : s.pktLen.toNat ≤ 1016) : s.wire.length ≤ 1030 := by
  have hraw : s.rawFrame.length = s.pktLen.toNat + 8 := by
    simp only [State.rawFrame, frameRaw, pktBytes, List.length_append, destBytes_length, le32_length, List.length_map,
      List.length_range]
    omega
  obtain ⟨_, hlen⟩ := length_cobsEncode s.rawFrame
  rw [State.wire, List.length_append, List.length_singleton]
  omega

theorem beginEncode_unpushed (s : State) : (beginEncode s).unpushed = s.wire := by
  rw [State.unpushed_feeding (by simp [beginEncode]), EncSession.stuffed_empty rfl rfl]
  rfl

theorem beginEncode_inPass {s : State} (hq : s.line.rxq = []) :
    InPass s (s.line.txs ++ s.wire) (answer .none [] (beginEncode s)) where
  encoding :=
    { state := rfl
      block := (EncSession.cursorsInRange_open (e := (beginEncode s).enc) rfl).2 (Nat.zero_le _)
      cursor := cursorInRange_zero _ _
      fresh := fun _ => ⟨rfl, rfl⟩ }
  packet := ⟨rfl, rfl, rfl, rfl, rfl⟩
  rxEn := rfl
  rxq := hq
  stream := congrArg (s.line.txs ++ ·) (beginEncode_unpushed s)

/-! ### What a micro-step pushes, and where the encoder stalls (R172, R178) -/

theorem Line.push_room {l : Line} (b : Byte) (h : l.room ≠ 0) : (l.push b).room + 1 = l.room := by
  obtain ⟨_, _, _, hroom⟩ := l.push_txs b
  omega

theorem EncodeMove.pushes_of_txs {s : State} {r : StepOut} (m : EncodeMove s r)
    (h : r.after.line.txs ≠ s.line.txs) : s.line.room ≠ 0 ∧ s.pushes := by
  cases m with
  | drains hd hr => exact ⟨hr, .inl hd⟩
  | delimits _ hg hsrc hr => exact ⟨hr, .inr ⟨hg, hsrc⟩⟩
  | feedsDest => exact absurd (congrArg Line.txs (nextOfFour_line _ _)) h
  | feedsCrc => exact absurd (congrArg Line.txs (nextOfFour_line _ _)) h
  | _ => exact absurd rfl h

theorem microStep_receiving_txs {s : State} (hr : s.state.receiving = true) :
    (microStep s).after.line.txs = s.line.txs := by
  cases hq : s.line.rxq with
  | nil => rw [microStep_receiving_nil hr hq, blocked_after]
  | cons b q =>
    rw [microStep_eq_consume hr hq]
    rfl

theorem microStep_pushes_of_txs {s : State} (h : (microStep s).after.line.txs ≠ s.line.txs) :
    s.state = .encode ∧ s.line.room ≠ 0 ∧ s.pushes := by
  cases hs : s.state with
  | encode => exact ⟨rfl, (microStep_move hs).pushes_of_txs h⟩
  | start => exact absurd (by rw [microStep_start hs]; rfl) h
  | stopped => exact absurd (by rw [microStep_stopped hs]; rfl) h
  | readDestination | readPayload | skipCurrentPacket =>
    exact absurd (microStep_receiving_txs (by rw [hs]; rfl)) h

theorem EncodeMove.stalls_of_encStalled {s : State} {r : StepOut} (m : EncodeMove s r) (h0 : s.encStalled = false)
    (h1 : r.after.encStalled = true) : r.res = .blocked ∧ s.line.room = 0 ∧ s.pushes := by
  cases m with
  | stalls hp hr => exact ⟨rfl, hr, hp⟩
  | drains | delimits => cases h1
  | feedsDest _ hg =>
    rw [stepWriteDestination_eq hg] at h1
    cases h0.symm.trans h1
  | feedsCrc _ hg =>
    rw [stepWriteCrc_eq hg] at h1
    cases h0.symm.trans h1
  | _ => cases h0.symm.trans h1

theorem microStep_stalls {s : State} (h0 : s.encStalled = false) (h1 : (microStep s).after.encStalled = true) :
    (microStep s).res = .blocked ∧ s.state = .encode ∧ s.line.room = 0 ∧ s.pushes := by
  have hkeeps (h : (microStep s).after.encStalled = s.encStalled) : False := by
    cases h1.symm.trans (h.trans h0)
  cases hs : s.state with
  | encode =>
    obtain ⟨hb, hr, hp⟩ := (microStep_move hs).stalls_of_encStalled h0 h1
    exact ⟨hb, rfl, hr, hp⟩
  | start => exact (hkeeps (by rw [microStep_start hs]; rfl)).elim
  | stopped => exact (hkeeps (by rw [microStep_stopped hs]; rfl)).elim
  | readDestination | readPayload | skipCurrentPacket =>
    exact (hkeeps (microStep_receiving_control (by rw [hs]; rfl)).encStalled).elim

/-- No operation but a blocked `STEP` sets `enc_stalled`, a `PUMP` apart, which is a run of `STEP`s. -/
theorem Effect.stalls {i : Instr} {s t : State} (he : Effect i s t) (hp : ¬ issues i .pump 1)
    (h0 : s.encStalled = false) (h1 : t.encStalled = true) :
    i = .step ∧ t.out.value = .stepped .blocked ∧ s.state = .encode ∧ s.line.room = 0 ∧ s.pushes := by
  cases he with
  | pump hi => exact absurd hi hp
  | step hi =>
    obtain ⟨hb, hrest⟩ := microStep_stalls h0 h1
    exact ⟨hi, by rw [answer_out, hb], hrest⟩
  | startTx => cases h1
  | stopRx =>
    rw [stopReceiving_eq] at h1
    cases h0.symm.trans h1
  | _ => cases h0.symm.trans h1

/-! ### A pass is not aborted (R182) -/

/-- The engine sends or receives. -/
abbrev State.sendsOrReceives (s : State) : Prop := s.state = .encode ∨ s.state.receiving = true

theorem microStep_sendsOrReceives {s : State} (h : s.sendsOrReceives) : (microStep s).after.sendsOrReceives := by
  obtain hs | hr := h
  · rw [microStep_encode hs]
    obtain he | ⟨he, _⟩ := (stepEncode_control hs).state
    · exact .inl (he.trans hs)
    · exact .inr (by rw [he]; rfl)
  · cases hq : s.line.rxq with
    | nil => exact .inr (by rw [microStep_receiving_nil hr hq]; exact hr)
    | cons b q => exact .inr (by rw [microStep_eq_consume hr hq]; exact consume_receiving b hr)

theorem Effect.of_encode {i : Instr} {s t : State} (he : Effect i s t) (hs : s.state = .encode) :
    t.state = .encode ∨ t.state.receiving = true ∧ (i = .step ∨ issues i .pump 1) := by
  have hstop : s.state ≠ .stopped := by simp [hs]
  cases he with
  | pump hi =>
    exact (pump_induct (P := State.sendsOrReceives) (fun _ => microStep_sendsOrReceives) (.inl hs)).imp_right
      fun hr => ⟨hr, .inr hi⟩
  | step hi => exact (microStep_sendsOrReceives (.inl hs)).imp_right fun hr => ⟨hr, .inl hi⟩
  | stopRx _ h => simp [hs, EngineState.receiving] at h
  | startRx _ h => exact absurd h hstop
  | startTx _ h => exact absurd h hstop
  | _ => exact .inl hs

/-! ### `STEP` in the stages (R173 to R179) -/

theorem sourceByte_of_getElem? {s : State} {x : List Byte} {b : Byte} (h : x[s.encSrc.toNat]? = some b) :
    sourceByte s x = b := by
  rw [sourceByte, List.getD_eq_getElem?_getD, h, Option.getD_some]

theorem exec_step_delimiter {s : State} (hs : s.state = .encode) (hd : s.enc.dlen = 0#8) (hg : s.encStage = .flush)
    (hsrc : s.encSrc = 1#11) :
    (s.line.room = 0 → exec .step s = .next (answer (.stepped .blocked) [] { s with encStalled := true })) ∧
    (s.line.room ≠ 0 → exec .step s =
      .next (answer (.stepped .progress) [] { txPush 0#8 s with encSrc := 2#11, encStalled := false })) := by
  have hstep := (microStep_flush hs hd hg).trans (stepFlush_delimiter hsrc)
  exact ⟨fun hr => exec_step_blocked (hstep.trans (pushOrStall_of_noRoom hr)),
    fun hr => exec_step_progress (hstep.trans (pushOrStall_of_room hr))⟩

/-! ### The statements -/

/-- Settles O55: every micro-step of the pass keeps what is pushed and what is still to be pushed together the frame,
so that all of it is pushed where the line is turned around. -/
theorem encodePassSendsTheFrame : Obligations.EncodePassSendsTheFrame := by
  intro s hs hq h2 hmax
  have hbegin := beginEncode_inPass (s := s) hq
  obtain ⟨crc, hser⟩ := exec_serialize_packet h2 hmax
  refine ⟨_, s.wire, crc, exec_startTx_legal hs h2 hmax, hser, fun hroom hidle => ?_, fun hrx u run => ?_⟩
  · have hlen : (answer .none [] (beginEncode s)).unpushed.length ≤ s.line.room := by
      rw [List.append_cancel_left hbegin.stream]
      exact (length_wire_le hmax).trans hroom
    obtain ⟨t, ht, hd, hev⟩ := hbegin.pump_done hlen hidle
    exact ⟨t, ht, hd.stream, hd.state, hd.rxEn, hd.txEn, hd.fresh, hd.packet.dest, hd.packet.pktLen, hd.packet.mem,
      hd.packet.pktValid, hd.packet.cnt, hev⟩
  · have hu := run.passState hrx (.inl hbegin)
    have hp : SamePacket s u := hu.elim InPass.packet PassDone.packet
    refine ⟨hp.dest, hp.pktLen, hp.mem, hp.pktValid, hp.cnt, fun he => ?_, fun hne => ?_⟩
    · have hin := hu.encode he
      refine ⟨u.unpushed, hin.stream.symm, fun hroom hidle => ?_⟩
      obtain ⟨t, ht, hd, _⟩ := hin.pump_done hroom hidle
      exact ⟨t, ht, hd.state, hd.stream⟩
    · have hd := hu.resolve_left fun hin => hne hin.encoding.state
      exact ⟨hd.stream, hd.state, hd.rxEn, hd.txEn, hd.fresh⟩

/-- Settles O43: the two outcomes of the drain step; which micro-steps push, and which operations can stall. -/
theorem stepDrains : Obligations.StepDrains := by
  refine ⟨fun s hs hd => ⟨fun hr => exec_step_blocked (microStep_drain_stalls hs hd hr), fun hr => ?_⟩, ?_,
    fun i s t hp hn => (exec_effect hn).stalls hp⟩
  · obtain ⟨htxs, hq, hi, _⟩ := s.line.push_txs s.enc.next
    exact ⟨_, exec_step_progress (microStep_drain_pushes hs hd hr), rfl, htxs, Line.push_room _ hr, hq, hi,
      fun hlast => if_neg hlast, fun hlast => if_pos hlast⟩
  · intro s t hn
    cases hn
    exact microStep_pushes_of_txs

/-- Settles O44: one equation of the micro-step per stage, and per phase of `Flush`. -/
theorem stepEncodes : Obligations.StepEncodes := by
  intro s hs moved held
  refine ⟨?_, ?_, ?_, ?_, ?_, ?_, ?_, ?_, ?_, ?_⟩
  · exact fun hd hg => exec_step_progress (microStep_begins ⟨hs, hd, hg⟩)
  · intro b hd hg hb
    have heq := stepWriteDestination_eq hg
    rw [State.destByte, sourceByte_of_getElem? hb] at heq
    exact exec_step_progress_of_eq (microStep_writeDestination hs hd hg) heq
  · exact fun hd hg hsrc => exec_step_progress_of_eq (microStep_writePayload hs hd hg) (stepWritePayload_feeds hsrc)
  · exact fun hd hg hsrc => exec_step_progress_of_eq (microStep_writePayload hs hd hg) (stepWritePayload_latches hsrc)
  · intro b hd hg hb
    have heq := stepWriteCrc_eq hg
    rw [sourceByte_of_getElem? hb] at heq
    exact exec_step_progress_of_eq (microStep_writeCrc hs hd hg) heq
  · exact fun hd hg hsrc => exec_step_progress ((microStep_flush hs hd hg).trans (stepFlush_close hsrc))
  · exact fun hd hg hsrc => (exec_step_delimiter hs hd hg hsrc).1
  · intro hd hg hsrc hr
    obtain ⟨htxs, hq, hi, _⟩ := s.line.push_txs 0#8
    exact ⟨_, (exec_step_delimiter hs hd hg hsrc).2 hr, rfl, htxs, Line.push_room _ hr, hq, hi⟩
  · intro hd hg hsrc hi
    refine exec_step_blocked ((microStep_flush hs hd hg).trans ?_)
    rw [stepFlush_lineOut (by simp [hsrc]) (by simp [hsrc]), hi]
    rfl
  · exact fun hd hg hsrc hi => exec_step_progress (microStep_flushed ⟨hs, hd, hg, hsrc, hi⟩)

/-- Settles O53: of the effects only those made of micro-steps leave `Encode`, and micro-steps go on to receive. -/
theorem encodePassIsNotAborted : Obligations.EncodePassIsNotAborted := by
  intro i s t hs hn
  exact (exec_effect hn).of_encode hs

/-- Settles O36: the three cases of the command. -/
theorem startTxRule : Obligations.StartTxRule := by
  refine fun s => ⟨exec_startTx_legal, fun hs => if_pos hs, fun hs hlen => ?_⟩
  exact (if_neg (not_not.2 hs)).trans (if_pos hlen)

end Sys2Proof.Machine
end

section
/-! PROOF. The family of spec/44_serializer.md: `SERIALIZE` (O22, O23), `DESERIALIZE` (O25), the round trip (O24), and
what the node makes of a frame for it as `DESERIALIZE` answers (O57, O58). A packet and the bytes of its decoded frame
determine each other; `DESERIALIZE` and the node's streaming session read the same bytes. -/

namespace Sys2Proof.Machine

/-! ### A packet and its decoded frame (R74, R75) -/

/-- The decoded frame that carries the packet `p`, whatever its checksum field holds. -/
def Packet.bytes (o : ByteOrder) (p : Packet) : List Byte :=
  frameHead o p.dest p.cmd p.idx p.payload ++ le32 p.crc

theorem Packet.length_bytes (o : ByteOrder) (p : Packet) : (p.bytes o).length = p.payload.length + 10 := by
  simp only [Packet.bytes, frameHead, List.length_append, destBytes_length, le32_length, List.length_cons,
    List.length_nil]
  omega

/-- What stands behind the destination goes into the packet buffer. -/
theorem Packet.drop_bytes (o : ByteOrder) (p : Packet) :
    (p.bytes o).drop 4 = [p.cmd, p.idx] ++ p.payload ++ le32 p.crc := by
  simp only [Packet.bytes, frameHead, List.append_assoc]
  exact List.drop_left' (destBytes_length o p.dest)

theorem destBytes_destOfBytes (o : ByteOrder) (b0 b1 b2 b3 : Byte) :
    destBytes o (destOfBytes o b0 b1 b2 b3) = [b0, b1, b2, b3] := by
  cases o with
  | little => exact le32_unle32 b0 b1 b2 b3
  | big => exact congrArg List.reverse (le32_unle32 b3 b2 b1 b0)

theorem fieldsOf_bytes (o : ByteOrder) (p : Packet) : fieldsOf o (p.bytes o) = p := by
  obtain ⟨b0, b1, b2, b3, hb, hd⟩ := destOfBytes_destBytes o p.dest
  simp [fieldsOf, Packet.bytes, frameHead, hb, hd, le32, unle32_le32, Config.hdrLen, Config.crcLen]

/-- Ten bytes are enough for a header and a trailer. -/
theorem exists_eq_bytes (o : ByteOrder) : ∀ {raw : List Byte}, 10 ≤ raw.length → ∃ p : Packet, raw = p.bytes o
  | b0 :: b1 :: b2 :: b3 :: cmd :: idx :: body, h => by
    simp only [List.length_cons] at h
    have htail : (body.drop (body.length - 4)).length = 4 := by
      rw [List.length_drop]
      omega
    obtain ⟨t0, t1, t2, t3, ht⟩ := List.length_eq_four.1 htail
    refine ⟨⟨destOfBytes o b0 b1 b2 b3, cmd, idx, body.take (body.length - 4), unle32 t0 t1 t2 t3⟩, ?_⟩
    simp [Packet.bytes, frameHead, destBytes_destOfBytes, le32_unle32, ← ht]

theorem bytes_fieldsOf (o : ByteOrder) {raw : List Byte} (h : 10 ≤ raw.length) : (fieldsOf o raw).bytes o = raw := by
  obtain ⟨p, rfl⟩ := exists_eq_bytes o h
  rw [fieldsOf_bytes]

/-! ### `SERIALIZE` (R200, R201) -/

/-- The packet that `SERIALIZE` puts on the wire: its operands and their checksum. -/
def serializedPacket (o : ByteOrder) (dest : Word) (cmd idx : Byte) (payload : List Byte) : Packet :=
  { dest := dest, cmd := cmd, idx := idx, payload := payload, crc := crcOf (frameHead o dest cmd idx payload) }

theorem crcOf_serializedPacket (o : ByteOrder) (dest : Word) (cmd idx : Byte) (payload : List Byte) :
    crcOf ((serializedPacket o dest cmd idx payload).bytes o) = 0x2144DF1C#32 :=
  crcOf_append_own_crc _

/-- The wire bytes without the delimiter. -/
theorem serialize_dropLast (o : ByteOrder) (dest : Word) (cmd idx : Byte) (payload : List Byte) :
    (serialize o dest cmd idx payload).1.dropLast =
      cobsEncode ((serializedPacket o dest cmd idx payload).bytes o) :=
  List.dropLast_concat

/-- At most 1024 decoded bytes take at most five code bytes, and the delimiter stands behind them (R203). -/
theorem length_serialize_le {payload : List Byte} (h : payload.length ≤ 1014) (o : ByteOrder) (dest : Word)
    (cmd idx : Byte) : (serialize o dest cmd idx payload).1.length ≤ payload.length + 16 := by
  have hraw : (frameRaw (frameHead o dest cmd idx payload)).length = payload.length + 10 :=
    (serializedPacket o dest cmd idx payload).length_bytes o
  obtain ⟨_, hwire⟩ := length_cobsEncode (frameRaw (frameHead o dest cmd idx payload))
  rw [serialize, List.length_append, List.length_singleton]
  omega

theorem exec_serialize_legal {payload : List Byte} (h : payload.length ≤ 1014) (dest : Word) (cmd idx : Byte)
    (s : State) :
    exec (.serialize dest cmd idx payload) s =
      .next (answer (.frame (serialize s.params.destByteOrder dest cmd idx payload).1
        (serialize s.params.destByteOrder dest cmd idx payload).2) [] s) :=
  if_neg (Nat.not_lt.2 h)

/-- The worked example of R200. -/
theorem serialize_example :
    serialize .little 1#32 0x0C#8 0x00#8 [] =
      ([0x02#8, 0x01#8, 0x01#8, 0x01#8, 0x02#8, 0x0C#8, 0x05#8, 0x0A#8, 0x3D#8, 0x2B#8, 0xD6#8, 0x00#8],
        0xD62B3D0A#32) := by
  decide +kernel

/-! ### `DESERIALIZE` (R204, R205) -/

theorem deserialize_of_none (o : ByteOrder) {w : List Byte} (h : cobsDecode w = none) :
    deserialize o w = .error .malformed := by
  simp only [deserialize, h]

theorem deserialize_of_badLength (o : ByteOrder) {w raw : List Byte} (h : cobsDecode w = some raw)
    (hl : raw.length < 10 ∨ 1024 < raw.length) : deserialize o w = .error .malformed := by
  simp only [deserialize, h]
  exact if_pos hl

/-- With a legal length the residue decides. -/
theorem deserialize_of_legalLength (o : ByteOrder) {w raw : List Byte} (h : cobsDecode w = some raw)
    (hmin : 10 ≤ raw.length) (hmax : raw.length ≤ 1024) :
    deserialize o w = if crcOf raw = 0x2144DF1C#32 then .ok (fieldsOf o raw) else .error .badChecksum := by
  have hl : ¬ (raw.length < 10 ∨ 1024 < raw.length) := by omega
  have hv : crcVerify (crcAccumulate Config.crcInitValue raw) = true ↔ crcOf raw = 0x2144DF1C#32 := beq_iff_eq
  simp only [deserialize, h, hv]
  exact if_neg hl

/-- The frames that are taken apart are the encodings of a packet with the right residue. -/
theorem deserialize_eq_ok_iff {o : ByteOrder} {w : List Byte} {p : Packet} :
    deserialize o w = .ok p ↔
      cobsDecode w = some (p.bytes o) ∧ p.payload.length ≤ 1014 ∧ crcOf (p.bytes o) = 0x2144DF1C#32 := by
  constructor
  · intro h
    cases hw : cobsDecode w with
    | none =>
      rw [deserialize_of_none o hw] at h
      cases h
    | some raw =>
      by_cases hl : raw.length < 10 ∨ 1024 < raw.length
      · rw [deserialize_of_badLength o hw hl] at h
        cases h
      rw [deserialize_of_legalLength o hw (by omega) (by omega)] at h
      split at h <;> cases h
      have hraw := bytes_fieldsOf o (raw := raw) (by omega)
      have hlen := (fieldsOf o raw).length_bytes o
      rw [hraw] at hlen ⊢
      exact ⟨rfl, by omega, ‹_›⟩
  · rintro ⟨hw, hlen, hc⟩
    have h := p.length_bytes o
    rw [deserialize_of_legalLength o hw (by omega) (by omega), if_pos hc, fieldsOf_bytes]

/-- R207. -/
theorem deserialize_serialize {payload : List Byte} (h : payload.length ≤ 1014) (o : ByteOrder) (dest : Word)
    (cmd idx : Byte) :
    deserialize o (serialize o dest cmd idx payload).1.dropLast = .ok (serializedPacket o dest cmd idx payload) := by
  rw [serialize_dropLast, deserialize_eq_ok_iff]
  exact ⟨cobsDecode_cobsEncode _, h, crcOf_serializedPacket o dest cmd idx payload⟩

/-- What `DESERIALIZE` returns for the outcome `r`. -/
def deserializeValue (r : Except CoreError Packet) : Value :=
  match r with
  | .ok p => .packet p
  | .error e => .error e

theorem deserializeValue_injective : Function.Injective deserializeValue := by
  rintro (_ | _) (_ | _) h <;> cases h <;> rfl

theorem exec_deserialize (w : List Byte) (s : State) :
    exec (.deserialize w) s = .next (answer (deserializeValue (deserialize s.params.destByteOrder w)) [] s) := by
  cases h : deserialize s.params.destByteOrder w <;> simp only [exec, execDeserialize, h, deserializeValue]

/-- The answer tells the outcome. -/
theorem deserialize_of_exec {w : List Byte} {s : State} {r : Except CoreError Packet}
    (h : exec (.deserialize w) s = .next (answer (deserializeValue r) [] s)) :
    deserialize s.params.destByteOrder w = r := by
  rw [exec_deserialize] at h
  exact deserializeValue_injective (congrArg (fun t : State => t.out.value) (Host.Outcome.next.inj h))

theorem crcOf_eq_residue_iff (x : List Byte) :
    crcOf x = 0x2144DF1C#32 ↔ crcAccumulate Config.crcInitValue x = 0xDEBB20E3#32 :=
  beq_iff_eq.symm.trans (crcVerify_iff _)

/-- On stuffed bytes with no zero `DESERIALIZE` judges the data that the streaming decoder delivers and where it
ended. -/
theorem deserialize_eq_dataOf (o : ByteOrder) {w : List Byte} (h0 : 0#8 ∉ w) :
    deserialize o w =
      if (streamDecode 0#8 false w).2.1 ≠ 0#8 ∨ (dataOf w).length < 10 ∨ 1024 < (dataOf w).length then
        .error .malformed
      else if crcAccumulate Config.crcInitValue (dataOf w) = 0xDEBB20E3#32 then .ok (fieldsOf o (dataOf w))
      else .error .badChecksum := by
  by_cases hrem : (streamDecode 0#8 false w).2.1 = 0#8
  · have hw : cobsDecode w = some (dataOf w) := (cobsDecode_eq_some_iff h0).2 ⟨rfl, hrem⟩
    by_cases hl : (dataOf w).length < 10 ∨ 1024 < (dataOf w).length
    · rw [deserialize_of_badLength o hw hl, if_pos (.inr hl)]
    · rw [deserialize_of_legalLength o hw (by omega) (by omega), if_neg (not_or.2 ⟨not_not.2 hrem, hl⟩)]
      simp only [crcOf_eq_residue_iff]
  · have hw : cobsDecode w = none := by
      rw [cobsDecode, cobsDecodeFrom_eq_streamDecode _ _ h0, if_neg hrem]
    rw [deserialize_of_none o hw, if_pos (.inl hrem)]

/-! ### A matching frame at the node (R151 to R157) -/

/-- Four data bytes fix the destination, whatever follows them. -/
theorem destOf_append (s : State) {w : List Byte} (w' : List Byte) (h4 : 4 ≤ (dataOf w).length) :
    destOf s (w ++ w') = destOf s w := by
  obtain ⟨more, hmore⟩ := dataOf_append w w'
  have hget (i : Nat) (hi : i < 4) : (dataOf (w ++ w')).getD i 0#8 = (dataOf w).getD i 0#8 := by
    rw [← hmore, List.getD_append _ _ _ _ (by omega)]
  simp only [destOf, fieldsOf, hget 0 (by decide), hget 1 (by decide), hget 2 (by decide), hget 3 (by decide)]

/-- The stuffed bytes of a matching frame whose data fit the buffer are read into it. -/
theorem matchedBody_run {s : State} {w rest : List Byte} (hs : s.state = .readDestination) (hf : s.rx.isFresh)
    (hv : s.pktValid = false) (h0 : 0#8 ∉ w) (hq : s.line.rxq = w ++ rest) (h4 : 4 ≤ (dataOf w).length)
    (hmax : (dataOf w).length ≤ 1024) (hm : matchDest s.params s.filter (destOf s w) = true) :
    ∃ r m, (s.storing r rest m).ReadsBody s w ∧
      Progresses s [] { s.storing r rest m with dest := destOf s w, state := .readPayload } := by
  obtain ⟨v, w', r, t, rfl, rfl, hrun, hbody⟩ := matchedDestination_run hs hf hv h0 hq h4 hm
  obtain ⟨r', m, hrun', hread⟩ := readPayload_run rfl hbody (fun h => h0 (List.mem_append_right _ h)) rfl hmax
  exact ⟨r', m, ⟨hread.toHasRead, hread.bodyCnt, hread.buf⟩, hrun.trans hrun'⟩

/-- A matching frame with more data than the buffer holds is counted at the first byte too many and skipped (R157). -/
theorem overlongFrame_run {s : State} {w rest : List Byte} (hs : s.state = .readDestination) (hf : s.rx.isFresh)
    (hv : s.pktValid = false) (h0 : 0#8 ∉ w) (hq : s.line.rxq = w ++ 0#8 :: rest) (hlong : 1024 < (dataOf w).length)
    (hm : matchDest s.params s.filter (destOf s w) = true) :
    ∃ r m d, Progresses s [] (toReadDestination
      { s.storing r rest m with dest := d, cnt := s.cnt.incError s.params.cntOverflow .malformed }) := by
  obtain ⟨v, b, w', x, rfl, hlen, hx⟩ := streamDecode_cut hlong
  change (dataOf v).length = 1024 at hlen
  simp only [List.mem_append, List.mem_cons, not_or] at h0
  obtain ⟨hv0, hb, hw0⟩ := h0
  rw [List.append_assoc] at hq
  rw [destOf_append s _ (by omega)] at hm
  obtain ⟨r, m, hread, hrun⟩ := matchedBody_run hs hf hv hv0 hq (by omega) hlen.le hm
  have hdel : r.delivered b = some x := by
    rw [RxSession.delivered, show r.rem = _ from hread.rem, show r.pz = _ from hread.pz, hx]
  have hfull : r.bodyCnt.toNat = 1020 := by
    have : r.bodyCnt.toNat + 4 = _ := hread.bodyCnt
    omega
  refine ⟨r.decode b, m, destOf s v, hrun.trans (.head
    ((microStep_readPayload rfl rfl).trans (readPayloadByte_full (Ne.symm hb) hdel hfull)) ?_)⟩
  exact skip_run rfl hw0 rfl

/-- A matching frame that `DESERIALIZE` rejects ends at a frame start, and the error it returns is counted. -/
theorem rejectedFrame_run {s : State} {w rest : List Byte} {e : CoreError} (hs : s.state = .readDestination)
    (hf : s.rx.isFresh) (hv : s.pktValid = false) (h0 : 0#8 ∉ w) (hq : s.line.rxq = w ++ 0#8 :: rest)
    (h4 : 4 ≤ (dataOf w).length) (hm : matchDest s.params s.filter (destOf s w) = true)
    (he : deserialize s.params.destByteOrder w = .error e) :
    ∃ r m d, Progresses s [] (toReadDestination
      { s.storing r rest m with dest := d, cnt := s.cnt.incError s.params.cntOverflow e }) := by
  rw [deserialize_eq_dataOf _ h0] at he
  by_cases hlong : 1024 < (dataOf w).length
  · rw [if_pos (.inr (.inr hlong))] at he
    cases he
    exact overlongFrame_run hs hf hv h0 hq hlong hm
  obtain ⟨r, m, hread, hrun⟩ := matchedBody_run hs hf hv h0 hq h4 (Nat.le_of_not_lt hlong) hm
  have hlen : r.bodyCnt.toNat + 4 = _ := hread.bodyCnt
  refine ⟨r, m, destOf s w, hrun.trans (.head ((microStep_readPayload rfl rfl).trans ?_) (.refl _))⟩
  by_cases hbad : (streamDecode 0#8 false w).2.1 ≠ 0#8 ∨ (dataOf w).length < 10
  · rw [if_pos (hbad.imp_right .inl)] at he
    cases he
    refine frameEnd_malformed (hbad.imp (fun hrem => ?_) fun hshort => ?_)
    · exact hread.rem.trans_ne hrem
    · show r.bodyCnt.toNat < 6
      omega
  · obtain ⟨hrem, hshort⟩ := not_or.1 hbad
    rw [if_neg (not_or.2 ⟨hrem, not_or.2 ⟨hshort, hlong⟩⟩)] at he
    split at he
    · cases he
    · cases he
      refine frameEnd_badCrc (hread.rem.trans (not_not.1 hrem)) ?_ (hread.crc.trans_ne ‹_›)
      show 6 ≤ r.bodyCnt.toNat
      omega

/-- A frame that `DESERIALIZE` takes apart into a packet for this node is received whole. -/
theorem acceptedFrame_run {s : State} {w rest : List Byte} {p : Packet} (hs : s.state = .readDestination)
    (hf : s.rx.isFresh) (hv : s.pktValid = false) (hq : s.line.rxq = w ++ 0#8 :: rest)
    (hp : deserialize s.params.destByteOrder w = .ok p) (hm : matchDest s.params s.filter p.dest = true) :
    ∃ r m, (s.storing r rest m).ReadsBody s w ∧ dataOf w = p.bytes s.params.destByteOrder ∧ Progresses s [.evRx]
      (acceptFrame { s.storing r rest m with dest := p.dest, state := .readPayload }) := by
  obtain ⟨hw, hlen, hc⟩ := deserialize_eq_ok_iff.1 hp
  have h0 : 0#8 ∉ w := fun h => by
    rw [cobsDecode, cobsDecodeFrom_of_zero_mem _ _ h] at hw
    cases hw
  obtain ⟨hdata, hrem⟩ := (cobsDecode_eq_some_iff h0).1 hw
  change dataOf w = _ at hdata
  have hbytes := p.length_bytes s.params.destByteOrder
  rw [← hdata] at hbytes hc
  have hdest : destOf s w = p.dest := by rw [destOf, hdata, fieldsOf_bytes]
  obtain ⟨r, m, hread, hrun⟩ := goodFrame_run hs hf hv h0 hq hrem (by omega) (by omega)
    ((crcOf_eq_residue_iff _).1 hc) (hdest ▸ hm)
  exact ⟨r, m, hread, hdata, hdest ▸ hrun⟩

/-! ### The statements -/

/-- Settles O24: the wire bytes are the encoding of a packet with the right residue. -/
theorem serializeDeserializeRoundTrip : Obligations.SerializeDeserializeRoundTrip := by
  intro dest cmd idx payload s hlen
  have hwire := length_serialize_le hlen s.params.destByteOrder dest cmd idx
  refine ⟨_, _, exec_serialize_legal hlen dest cmd idx s, hwire, by omega, ?_⟩
  rw [exec_deserialize, deserialize_serialize hlen]
  rfl

/-- Settles O57: the frame is skipped from its first byte too many on, or rejected at its delimiter. -/
theorem frameRejected : Obligations.FrameRejected := by
  intro s w e hs hf hv h0 hq raw dest h4 hm he
  have hr := deserialize_of_exec (r := .error e) he
  obtain ⟨r, m, d, hrun⟩ := rejectedFrame_run hs hf hv h0 hq h4 hm hr
  refine ⟨_, exec_pump_of_emptied hrun (by rw [hs]; rfl) rfl, rfl, r.fresh_isFresh, rfl, rfl, hv, rfl,
    fun heq => ?_, fun hne => ?_⟩
  · rw [heq]
    rfl
  · rw [deserialize_eq_dataOf _ h0] at hr
    split_ifs at hr <;> cases hr
    · exact absurd rfl hne
    · rfl

/-- Settles O58: the data the node received are the bytes of the packet. -/
theorem frameAccepted : Obligations.FrameAccepted := by
  intro s w p hs hf hv hq hp hm
  have hok := deserialize_of_exec (r := .ok p) hp
  obtain ⟨r, m, hread, hdata, hrun⟩ := acceptedFrame_run hs hf hv hq hok hm
  obtain ⟨_, hmax, _⟩ := deserialize_eq_ok_iff.1 hok
  have hcnt : r.bodyCnt.toNat + 4 = _ := hread.bodyCnt
  have hbuf := hread.buf
  rw [hdata, Packet.length_bytes] at hcnt
  rw [hdata, Packet.drop_bytes] at hbuf
  have hlen : ([p.cmd, p.idx] ++ p.payload ++ le32 p.crc).length = p.payload.length + 6 := by
    simp only [List.length_append, List.length_cons, List.length_nil, le32_length]
    omega
  refine ⟨_, exec_pump_of_emptied hrun (by rw [hs]; rfl) rfl, rfl, r.fresh_isFresh, rfl, rfl, rfl, rfl, ?_, ?_,
    fun a ha => ?_, rfl⟩
  · show (r.bodyCnt - 4#11).toNat = _
    bv_omega
  · rw [← hlen]
    exact pktBytes_eq_of_isPrefix hbuf ⟨[], List.append_nil _⟩
  · refine (hbuf a).trans ?_
    rw [List.getElem?_eq_none (by omega), Option.getD_none]

/-- Settles O22: the operation on a legal payload, the frame's length, and an encoding without a zero. -/
theorem serializeRule : Obligations.SerializeRule := by
  refine ⟨fun dest cmd idx payload s hlen => ⟨exec_serialize_legal hlen dest cmd idx s, ?_, ?_⟩, fun s ho => ?_⟩
  · exact (serializedPacket s.params.destByteOrder dest cmd idx payload).length_bytes s.params.destByteOrder
  · rw [List.dropLast_concat]
    exact zero_not_mem_cobsEncode _
  · rw [exec_serialize_legal (by decide), ho, serialize_example]
    rfl

/-- Settles O25: one lemma per outcome; a packet's bytes are the decoded ones. -/
theorem deserializeOutcomes : Obligations.DeserializeOutcomes := by
  refine fun w s => ⟨_, exec_deserialize w s, fun hw => ?_, fun raw hw => ⟨fun hl => ?_, fun hmin hmax hc => ?_,
    fun hmin hmax hc => ⟨fieldsOf s.params.destByteOrder raw, ?_, ?_⟩⟩⟩
  · rw [deserialize_of_none _ hw]
    rfl
  · rw [deserialize_of_badLength _ hw hl]
    rfl
  · rw [deserialize_of_legalLength _ hw hmin hmax, if_neg hc]
    rfl
  · rw [deserialize_of_legalLength _ hw hmin hmax, if_pos hc]
    rfl
  · exact (bytes_fieldsOf _ hmin).symm

/-- Settles O23: the guard of the operation. -/
theorem serializeStopsOnLongPayload : Obligations.SerializeStopsOnLongPayload := by
  refine fun dest cmd idx payload s => ⟨fun h => ?_, fun h => if_pos h⟩
  by_contra hlen
  rw [exec_serialize_legal (Nat.le_of_not_lt hlen)] at h
  cases h

end Sys2Proof.Machine
end

section
/-! PROOF. The family of spec/45_app_interface.md: the writes that only the owner of the packet may make (O28),
`RELEASE` and `RESET_PKTCNT` (O33). -/

namespace Sys2Proof.Machine

/-! ### The writes of the owner (R222, R223) -/

theorem ownedWrite_of_stopped {s : State} (f : State → State) (h : s.state = .stopped) :
    ownedWrite f s = .next (answer .none [] (f s)) :=
  if_neg (not_not.2 h)

theorem ownedWrite_of_not_stopped {s : State} (f : State → State) (h : s.state ≠ .stopped) :
    ownedWrite f s = .refused .busWriteNotOwned :=
  if_pos h

theorem exec_busWr_byte {a : Addr} (h : a.toNat ≤ 0x3FB) (v : Word) (s : State) :
    exec (.busWr a 1 v) s = ownedWrite (pktWrite a.toNat (v.extractLsb' 0 8)) s := by
  simp only [exec, execBusWr, busTarget_byte h]

theorem exec_busWr_dest (v : Word) (s : State) :
    exec (.busWr 0x400#12 4 v) s = ownedWrite (fun t => { t with dest := v }) s := rfl

theorem exec_busWr_pktLen (v : Word) (s : State) :
    exec (.busWr 0x404#12 4 v) s = ownedWrite (fun t => { t with pktLen := v.extractLsb' 0 11 }) s := rfl

/-! ### The statements -/

/-- Settles O28: each of the three is an owned write, and a stored byte is read at its own address alone. -/
theorem busWritesToThePacket : Obligations.BusWritesToThePacket := by
  refine fun v s => ⟨fun hs => ⟨fun a ha => ?_, ?_, ?_⟩, fun hs => ⟨fun a ha => ?_, ?_, ?_⟩⟩
  · exact ⟨_, (exec_busWr_byte ha v s).trans (ownedWrite_of_stopped _ hs), rfl, pktRead_pktWrite_same s _ _,
      fun k hk => pktRead_pktWrite_other s _ hk⟩
  · exact (exec_busWr_dest v s).trans (ownedWrite_of_stopped _ hs)
  · exact (exec_busWr_pktLen v s).trans (ownedWrite_of_stopped _ hs)
  · exact (exec_busWr_byte ha v s).trans (ownedWrite_of_not_stopped _ hs)
  · exact (exec_busWr_dest v s).trans (ownedWrite_of_not_stopped _ hs)
  · exact (exec_busWr_pktLen v s).trans (ownedWrite_of_not_stopped _ hs)

/-- Settles O33: each command is an update of the state without a case. -/
theorem releaseAndResetPktcnt : Obligations.ReleaseAndResetPktcnt :=
  fun _ => ⟨rfl, rfl⟩

end Sys2Proof.Machine
end

section
/-! PROOF. The family of spec/60_exceptions.md: the transitions of the main state and of the encoder's stage (O48). -/

namespace Sys2Proof.Machine

/-! ### The transitions of a micro-step (R250) -/

/-- The rows of R250 that a micro-step in `s` takes to the main state `next`, each under its condition. -/
abbrev State.transits (s : State) (next : EngineState) : Prop :=
  s.state = .start ∧ next = .readDestination ∨
  s.state = .readDestination ∧ next = .skipCurrentPacket ∧ s.rx.destCnt = 3#3 ∧
    (∃ x, s.delivers x ∧ (s.fourthMatches x = false ∨ s.fourthMatches x = true ∧ s.pktValid = true)) ∨
  s.state = .readDestination ∧ next = .readPayload ∧ s.rx.destCnt = 3#3 ∧ s.pktValid = false ∧
    (∃ x, s.delivers x ∧ s.fourthMatches x = true) ∨
  s.state = .readPayload ∧ next = .skipCurrentPacket ∧ s.rx.bodyCnt.toNat = 1020 ∧ (∃ x, s.delivers x) ∨
  s.state = .readPayload ∧ next = .readDestination ∧ s.line.rxq.head? = some 0#8 ∨
  s.state = .skipCurrentPacket ∧ next = .readDestination ∧ s.line.rxq.head? = some 0#8 ∨
  s.state = .encode ∧ next = .readDestination ∧ s.enc.dlen = 0#8 ∧ s.encStage = .flush ∧
    (s.Inv → s.encSrc = 2#11) ∧ s.line.idle = true

/-- The stages of an encode pass follow each other in this order (R171). -/
abbrev EncStage.precedes (g next : EncStage) : Prop :=
  g = .encoderStart ∧ next = .writeDestination ∨ g = .writeDestination ∧ next = .writePayload ∨
  g = .writePayload ∧ next = .writeCrc ∨ g = .writeCrc ∧ next = .flush

/-- Past the delimiter the flush is in phase 2 (R25). -/
theorem State.Inv.flush_phase {s : State} (h : s.Inv) (hs : s.state = .encode) (hg : s.encStage = .flush)
    (h2 : 2 ≤ s.encSrc.toNat) : s.encSrc = 2#11 := by
  obtain ⟨_, _, hle⟩ := h.encode_range hs
  rw [hg, cursorInRange] at hle
  exact BitVec.eq_of_toNat_eq (hle.antisymm h2)

theorem microStep_transits_of_encode {s : State} (hs : s.state = .encode) :
    (microStep s).after.state = s.state ∨ s.transits (microStep s).after.state := by
  rw [microStep_encode hs]
  obtain h | ⟨hn, hd, hg, h2, hi, _⟩ := (stepEncode_control hs).state
  · exact .inl h
  · iterate 7 right
    exact ⟨hs, hn, hd, hg, fun hinv => hinv.flush_phase hs hg h2, hi⟩

theorem microStep_transits_of_receiving {s : State} (hr : s.state.receiving = true) :
    (microStep s).after.state = s.state ∨ s.transits (microStep s).after.state := by
  obtain h | h | h | h | h | h := (microStep_receiving_control hr).state
  · exact .inl h
  · exact .inr (.inr (.inl h))
  · exact .inr (.inr (.inr (.inl h)))
  · exact .inr (.inr (.inr (.inr (.inl h))))
  · exact .inr (.inr (.inr (.inr (.inr (.inl h)))))
  · exact .inr (.inr (.inr (.inr (.inr (.inr (.inl h))))))

theorem microStep_transits (s : State) :
    (microStep s).after.state = s.state ∨ s.transits (microStep s).after.state := by
  cases hs : s.state with
  | start => exact .inr (.inl ⟨hs, by rw [microStep_start hs]; rfl⟩)
  | stopped => exact .inl (by rw [microStep_stopped hs]; exact hs)
  | encode => exact hs ▸ microStep_transits_of_encode hs
  | readDestination | readPayload | skipCurrentPacket =>
    exact hs ▸ microStep_transits_of_receiving (by rw [hs]; rfl)

theorem microStep_encStage {s : State} (hs : s.state = .encode) (ht : (microStep s).after.state = .encode)
    (hne : (microStep s).after.encStage ≠ s.encStage) :
    s.enc.dlen = 0#8 ∧ s.encStage.precedes (microStep s).after.encStage := by
  rw [microStep_encode hs] at ht hne ⊢
  exact (stepEncode_control hs).encStage (ht.trans hs.symm) hne

/-! ### The transitions of an operation (R250) -/

theorem Effect.transition {i : Instr} {s t : State} (hp : ¬ issues i .pump 1) (he : Effect i s t) :
    t.state = s.state ∨
    (issues i .stopRx 2 ∧ s.state ≠ .encode ∧ t.state = .stopped) ∨
    (issues i .startRx 3 ∧ s.state = .stopped ∧ t.state = .start) ∨
    (issues i .startTx 4 ∧ s.state = .stopped ∧ 2 ≤ s.pktLen.toNat ∧ s.pktLen.toNat ≤ 1016 ∧
      t.state = .encode ∧ t.encStage = .encoderStart) ∨
    (i = .step ∧ s.transits t.state) := by
  cases he with
  | pump hi => exact absurd hi hp
  | step hi => exact (microStep_transits s).imp_right fun h => .inr (.inr (.inr ⟨hi, h⟩))
  | stopRx hi hs =>
    have hne : s.state ≠ .encode := by
      rintro h
      simp [h, EngineState.receiving] at hs
    exact .inr (.inl ⟨hi, hne, by rw [stopReceiving_eq]; rfl⟩)
  | startRx hi hs => exact .inr (.inr (.inl ⟨hi, hs, rfl⟩))
  | startTx hi hs hlen => exact .inr (.inr (.inr (.inl ⟨hi, hs, hlen.1, hlen.2, rfl, rfl⟩)))
  | _ => exact .inl rfl

theorem Effect.encStage_of_encode {i : Instr} {s t : State} (hp : ¬ issues i .pump 1) (he : Effect i s t)
    (hs : s.state = .encode) (ht : t.state = .encode) (hne : t.encStage ≠ s.encStage) :
    i = .step ∧ s.enc.dlen = 0#8 ∧ s.encStage.precedes t.encStage := by
  cases he with
  | pump hi => exact absurd hi hp
  | step hi => exact ⟨hi, microStep_encStage hs ht hne⟩
  | stopRx =>
    rw [stopReceiving_eq] at ht
    cases ht
  | startTx _ hstop => cases hs.symm.trans hstop
  | _ => exact absurd rfl hne

/-! ### The statement -/

/-- Settles O48: of the effects only `STEP` and the three commands that start and stop the node move the main state,
and only `STEP` moves the stage of a pass. -/
theorem stateTransitions : Obligations.StateTransitions :=
  fun _ _ _ hn hp => ⟨(exec_effect hn).transition hp, (exec_effect hn).encStage_of_encode hp⟩

end Sys2Proof.Machine
end

section
/-! PROOF. The rest of the family of spec/41_crc32.md: the meaning of the four operations (O12, O13) and the error of
one byte (O15). A shift is linear over XOR and takes only 0 to 0, so the engine is injective in the accumulator and in
the byte. A single shift fixes only 0, and whatever fixes only 0 does so when it is done twice: three doublings give
the eight shifts of a byte. -/

namespace Sys2Proof.Machine

/-! ### One shift (R122) -/

/-- A shift on an even and on an odd accumulator. -/
theorem crcShift_cases (c : Word) :
    (c.toNat % 2 = 0 ∧ crcShift c = c >>> 1) ∨ (c.toNat % 2 = 1 ∧ crcShift c = c >>> 1 ^^^ Config.crcPoly) := by
  have hlow : c.getLsbD 0 = decide (c.toNat % 2 = 1) := Nat.testBit_zero _
  unfold crcShift
  rw [hlow]
  rcases Nat.mod_two_eq_zero_or_one c.toNat with h | h
  · exact .inl ⟨h, by rw [h]; rfl⟩
  · exact .inr ⟨h, by rw [h]; rfl⟩

/-- The polynomial's top bit is set, so the odd case does not reach 0. -/
theorem crcShift_eq_zero {c : Word} (h : crcShift c = 0#32) : c = 0#32 := by
  obtain ⟨heven, e⟩ | ⟨_, e⟩ := crcShift_cases c <;> rw [e] at h
  · bv_omega
  · have hpoly : c >>> 1 = 0xEDB88320#32 := BitVec.xor_eq_zero_iff.1 h
    bv_omega

/-- 0xB6D0FDC0 is the one word that the odd case would take to itself, and it is even. -/
theorem crcShift_eq_self {c : Word} (h : crcShift c = c) : c = 0#32 := by
  obtain ⟨_, e⟩ | ⟨hodd, e⟩ := crcShift_cases c <;> rw [e] at h
  · bv_omega
  · have hshift : c >>> 1 = c ^^^ Config.crcPoly :=
      (BitVec.xor_left_inj Config.crcPoly).1 (by rw [h, BitVec.xor_assoc, BitVec.xor_self, BitVec.xor_zero])
    have hfix : (c ^^^ 0xB6D0FDC0#32) >>> 1 = c ^^^ 0xB6D0FDC0#32 :=
      calc (c ^^^ 0xB6D0FDC0#32) >>> 1
        _ = c >>> 1 ^^^ 0xB6D0FDC0#32 >>> 1 := BitVec.ushiftRight_xor_distrib ..
        _ = c ^^^ Config.crcPoly ^^^ (0xB6D0FDC0#32 ^^^ Config.crcPoly) := by rw [hshift]; rfl
        _ = c ^^^ 0xB6D0FDC0#32 ^^^ (Config.crcPoly ^^^ Config.crcPoly) := by ac_rfl
        _ = c ^^^ 0xB6D0FDC0#32 := by rw [BitVec.xor_self, BitVec.xor_zero]
    have hzero : c ^^^ 0xB6D0FDC0#32 = 0#32 := by bv_omega
    rw [BitVec.xor_eq_zero_iff.1 hzero] at hodd
    cases hodd

/-! ### The eight shifts of a byte (R122) -/

theorem crcShifts_eq_iterate (k : Nat) : crcShifts k = crcShift^[k] := by
  funext c
  induction k generalizing c with
  | zero => rfl
  | succ k ih => exact ih (crcShift c)

theorem crcShift_injective : Function.Injective crcShift := by
  intro c d h
  have hzero : crcShift (c ^^^ d) = 0#32 := by rw [crcShift_xor, h, BitVec.xor_self]
  exact BitVec.xor_eq_zero_iff.1 (crcShift_eq_zero hzero)

theorem crcShifts_injective (k : Nat) : Function.Injective (crcShifts k) := by
  rw [crcShifts_eq_iterate]
  exact crcShift_injective.iterate k

/-- If `k` shifts fix only 0, so do `2 k`: the difference between a word they fix and its own `k` shifts is fixed by
`k` shifts. -/
theorem crcShifts_double_eq_self {k : Nat} (hk : ∀ c, crcShifts k c = c → c = 0#32) (c : Word)
    (h : crcShifts (k + k) c = c) : c = 0#32 := by
  have htwice : crcShifts k (crcShifts k c) = c := by
    rwa [crcShifts_eq_iterate, Function.iterate_add_apply, ← crcShifts_eq_iterate] at h
  have hfix : crcShifts k (crcShifts k c ^^^ c) = crcShifts k c ^^^ c := by
    rw [crcShifts_xor, htwice, BitVec.xor_comm]
  exact hk c (BitVec.xor_eq_zero_iff.1 (hk _ hfix))

theorem crcShifts_eight_eq_self : ∀ c, crcShifts 8 c = c → c = 0#32 :=
  crcShifts_double_eq_self (k := 4) <| crcShifts_double_eq_self (k := 2) <|
    crcShifts_double_eq_self (k := 1) fun _ => crcShift_eq_self

/-! ### One byte (R122) -/

theorem crcUpdate_zero (c : Word) : crcUpdate c 0#8 = crcShifts 8 c := by
  simp [crcUpdate]

theorem crcUpdate_injective (b : Byte) : Function.Injective fun c => crcUpdate c b :=
  fun _ _ h => (BitVec.xor_left_inj _).1 (crcShifts_injective 8 h)

theorem crcUpdate_byte_injective (c : Word) : Function.Injective (crcUpdate c) := by
  intro b b' h
  have hwide : b.zeroExtend 32 = b'.zeroExtend 32 := (BitVec.xor_right_inj _).1 (crcShifts_injective 8 h)
  bv_omega

theorem exec_crcUpdate (c : Word) (b : Byte) (s : State) :
    exec (.crcUpdate c b) s = .next (answer (.word (crcShift^[8] (c ^^^ b.zeroExtend 32))) [] s) := by
  rw [← crcShifts_eq_iterate]
  rfl

/-! ### A sequence (R123, R124, R129) -/

theorem crcAccumulate_injective (x : List Byte) : Function.Injective fun c => crcAccumulate c x := by
  induction x with
  | nil => exact fun _ _ h => h
  | cons b x ih => exact fun _ _ h => crcUpdate_injective b (ih h)

theorem crcFinal_injective : Function.Injective crcFinal :=
  fun _ _ h => (BitVec.xor_left_inj _).1 h

/-! ### The statements -/

/-- Settles O12: the engine is injective, on a finite set of accumulators; a zero byte adds nothing before the
shifts. -/
theorem crcUpdateRule : Obligations.CrcUpdateRule := by
  refine ⟨exec_crcUpdate, fun c hc h => hc ?_, fun b => ?_, by decide +kernel, by decide +kernel⟩
  · exact crcShifts_eight_eq_self c ((crcUpdate_zero c).symm.trans h)
  · have : Finite Word := .of_equiv _ BitVec.equivFin.toEquiv.symm
    exact Finite.injective_iff_bijective.1 (crcUpdate_injective b)

/-- Settles O15: the accumulators differ after the changed byte, and no common byte after it brings them together. -/
theorem oneByteErrorChangesTheCrc : Obligations.OneByteErrorChangesTheCrc := by
  intro front back b b' hne h
  rw [crcOf_append, crcOf_append] at h
  exact hne (crcUpdate_byte_injective _ (crcAccumulate_injective back (crcFinal_injective h)))

/-- Settles O13: each operation is its own function of the model, and the final XOR is undone by itself. -/
theorem crcInitFinalVerify : Obligations.CrcInitFinalVerify := by
  refine ⟨fun c x s => ⟨rfl, rfl, rfl, rfl, ?_⟩, ?_⟩
  · exact beq_iff_eq.symm.trans (crcVerify_iff c)
  · decide +kernel

end Sys2Proof.Machine
end

section
/-! PROOF. The frame of `STEP` (O46): what each kind of micro-step leaves of the packet and of the transmitter, by
cases on the received byte and, in `Encode`, on the moves of a pass. -/

namespace Sys2Proof.Machine

/-! ### What a micro-step leaves of the packet (R27 to R31) -/

/-- Each part of the packet changes only in the state that writes it. -/
structure PacketFrame (s t : State) : Prop where
  dest : s.state ≠ .readDestination → t.dest = s.dest
  pktLen : s.state ≠ .readPayload → t.pktLen = s.pktLen
  pktValid : s.state ≠ .readPayload → t.pktValid = s.pktValid
  buffer : ∀ a, ¬ (s.state = .readPayload ∧ a = s.rx.bodyCnt.toNat) → pktRead t a = pktRead s a

theorem SamePacket.frame {s t : State} (h : SamePacket s t) (he : t.epoch = s.epoch) : PacketFrame s t :=
  ⟨fun _ => h.dest, fun _ => h.pktLen, fun _ => h.pktValid, fun a _ => pktRead_congr h.mem he a⟩

theorem PacketFrame.of_readDestination {s t : State} (hs : s.state = .readDestination) (hl : t.pktLen = s.pktLen)
    (hv : t.pktValid = s.pktValid) (hm : t.mem = s.mem) (he : t.epoch = s.epoch) : PacketFrame s t :=
  ⟨fun h => absurd hs h, fun _ => hl, fun _ => hv, fun a _ => pktRead_congr hm he a⟩

theorem PacketFrame.of_readPayload {s t : State} (hs : s.state = .readPayload) (hd : t.dest = s.dest)
    (hb : ∀ a, a ≠ s.rx.bodyCnt.toNat → pktRead t a = pktRead s a) : PacketFrame s t :=
  ⟨fun _ => hd, absurd hs, absurd hs, fun a h => hb a fun ha => h ⟨hs, ha⟩⟩

/-! ### What a received byte leaves (R145 to R158) -/

/-- A received byte leaves the transmitter, and of the packet what its state does not write. -/
structure ReceiveFrame (s t : State) : Prop where
  transmitter : SameTransmitter s t
  packet : PacketFrame s t

theorem destinationComplete_frame {s : State} (r : RxSession) (hs : s.state = .readDestination) :
    ReceiveFrame s (destinationComplete { s with rx := r }) := by
  unfold destinationComplete
  split_ifs <;> exact ⟨⟨rfl, rfl, rfl, rfl, rfl, rfl, rfl, rfl⟩, .of_readDestination hs rfl rfl rfl rfl⟩

theorem readDestinationByte_frame (b : Byte) {s : State} (hs : s.state = .readDestination) :
    ReceiveFrame s (readDestinationByte b s).after := by
  by_cases hb : b = 0#8
  · unfold readDestinationByte
    rw [if_pos hb]
    split <;> exact ⟨⟨rfl, rfl, rfl, rfl, rfl, rfl, rfl, rfl⟩, .of_readDestination hs rfl rfl rfl rfl⟩
  cases hd : s.rx.delivered b with
  | none =>
    rw [readDestinationByte_silent hb hd]
    exact ⟨⟨rfl, rfl, rfl, rfl, rfl, rfl, rfl, rfl⟩, .of_readDestination hs rfl rfl rfl rfl⟩
  | some d =>
    by_cases h3 : s.rx.destCnt = 3#3
    · rw [readDestinationByte_fourth hb hd h3]
      exact destinationComplete_frame _ hs
    · rw [readDestinationByte_early hb hd h3]
      exact ⟨⟨rfl, rfl, rfl, rfl, rfl, rfl, rfl, rfl⟩, .of_readDestination hs rfl rfl rfl rfl⟩

theorem frameEnd_frame {s : State} (hs : s.state = .readPayload) : ReceiveFrame s (frameEnd s).after := by
  unfold frameEnd
  split_ifs <;> exact ⟨⟨rfl, rfl, rfl, rfl, rfl, rfl, rfl, rfl⟩, .of_readPayload hs rfl fun _ _ => rfl⟩

theorem readPayloadByte_frame (b : Byte) {s : State} (hs : s.state = .readPayload) :
    ReceiveFrame s (readPayloadByte b s).after := by
  by_cases hb : b = 0#8
  · rw [readPayloadByte, if_pos hb]
    exact frameEnd_frame hs
  cases hd : s.rx.delivered b with
  | none =>
    rw [readPayloadByte_silent hb hd]
    exact ⟨⟨rfl, rfl, rfl, rfl, rfl, rfl, rfl, rfl⟩, .of_readPayload hs rfl fun _ _ => rfl⟩
  | some d =>
    by_cases hf : s.rx.bodyCnt.toNat = 1020
    · rw [readPayloadByte_full hb hd hf]
      exact ⟨⟨rfl, rfl, rfl, rfl, rfl, rfl, rfl, rfl⟩, .of_readPayload hs rfl fun _ _ => rfl⟩
    · rw [readPayloadByte_stores hb hd hf]
      refine ⟨⟨rfl, rfl, rfl, rfl, rfl, rfl, rfl, rfl⟩, .of_readPayload hs rfl fun a ha => ?_⟩
      exact pktRead_pktWrite_other { s with rx := (s.rx.decode b).countBody d } d ha

theorem skipByte_frame (b : Byte) (s : State) : ReceiveFrame s (skipByte b s).after := by
  unfold skipByte
  split <;> exact ⟨⟨rfl, rfl, rfl, rfl, rfl, rfl, rfl, rfl⟩, SamePacket.frame ⟨rfl, rfl, rfl, rfl, rfl⟩ rfl⟩

theorem consume_frame (b : Byte) (s : State) : ReceiveFrame s (consume b s).after := by
  unfold consume
  cases hs : s.state with
  | readDestination => exact readDestinationByte_frame b hs
  | readPayload => exact readPayloadByte_frame b hs
  | skipCurrentPacket | start | stopped | encode => exact skipByte_frame b s

/-! ### What a micro-step leaves -/

/-- What receiving leaves of the encoder, of the transmitted stream and of the packet. -/
structure EncoderFrame (s t : State) : Prop where
  enc : t.enc = s.enc
  encStage : t.encStage = s.encStage
  encSrc : t.encSrc = s.encSrc
  encStalled : t.encStalled = s.encStalled
  txs : t.line.txs = s.line.txs

theorem microStep_receiving_frame {s : State} (hr : s.state.receiving = true) :
    EncoderFrame s (microStep s).after ∧ PacketFrame s (microStep s).after := by
  rcases hq : s.line.rxq with _ | ⟨b, q⟩
  · rw [microStep_receiving_nil hr hq]
    exact ⟨⟨rfl, rfl, rfl, rfl, rfl⟩, SamePacket.frame ⟨rfl, rfl, rfl, rfl, rfl⟩ rfl⟩
  · rw [microStep_eq_consume hr hq]
    obtain ⟨e, p⟩ := consume_frame b s
    exact ⟨⟨e.enc, e.encStage, e.encSrc, e.encStalled, rfl⟩, ⟨p.dest, p.pktLen, p.pktValid, p.buffer⟩⟩

theorem microStep_packetFrame (s : State) : PacketFrame s (microStep s).after := by
  cases hs : s.state with
  | start =>
    rw [microStep_start hs]
    exact SamePacket.frame ⟨rfl, rfl, rfl, rfl, rfl⟩ rfl
  | stopped =>
    rw [microStep_stopped hs]
    exact SamePacket.frame ⟨rfl, rfl, rfl, rfl, rfl⟩ rfl
  | encode =>
    rw [microStep_encode hs]
    exact (stepEncode_samePacket s).frame (stepEncode_keepsHost s).epoch
  | readDestination | readPayload | skipCurrentPacket =>
    exact (microStep_receiving_frame (by rw [hs]; rfl)).2

theorem microStep_encoderFrame {s : State} (he : s.state ≠ .encode) : EncoderFrame s (microStep s).after := by
  cases hs : s.state with
  | start =>
    rw [microStep_start hs]
    exact ⟨rfl, rfl, rfl, rfl, rfl⟩
  | stopped =>
    rw [microStep_stopped hs]
    exact ⟨rfl, rfl, rfl, rfl, rfl⟩
  | encode => exact absurd hs he
  | readDestination | readPayload | skipCurrentPacket =>
    exact (microStep_receiving_frame (by rw [hs]; rfl)).1

/-! ### The statement -/

/-- Settles O46: the micro-step keeps the host's part in every state, the packet but for what its state writes, the
encoder outside `Encode`, and within it the counters and `RXQ`. -/
theorem stepFrame : Obligations.StepFrame := by
  intro s
  have h := microStep_keepsHost s
  have p := microStep_packetFrame s
  refine ⟨_, exec_step s, h.filter, h.params, h.agenda, h.epoch, p.dest, fun hs => ⟨p.pktLen hs, p.pktValid hs⟩,
    p.buffer, microStep_cnt_notReading, fun he => ?_, fun he => ⟨?_, (microStep_move he).keepsLine.1⟩, fun hr => ?_⟩
  · have e := microStep_encoderFrame he
    exact ⟨e.enc, e.encStage, e.encSrc, e.encStalled, e.txs⟩
  · exact microStep_cnt_notReading (by simp [he]) (by simp [he])
  · have c := microStep_receiving_control hr
    exact ⟨c.rxEn, c.txEn⟩

end Sys2Proof.Machine
end
